-- ==== Sys2Proof/Word.lean ====
section
/-! DEFINITION. The plain number types of the block: bytes and 32-bit words (00_scope.md R7, R9). A BitVector of R11 is a `List Bool`, first bit on the wire first. -/

namespace Sys2Proof

/-- One byte. -/
abbrev Byte := BitVec 8

/-- One 32-bit word: `ADDR_W` and `DATA_W` are both 32 (R7). -/
abbrev Word := BitVec 32

/-- A BitVector (R11): a finite sequence of bits, `bv[0]` the first bit on the wire. -/
abbrev Bits := List Bool

end Sys2Proof
end

