-- ==== Sys2Proof/Machine/Bits.lean ====
section
/-! DEFINITION. Bit vectors and byte strings: `pack`, `value`, `bits_N` (00_scope.md R11), `le16`, `le32`, `bytes_le32` (R12). -/

namespace Sys2Proof

/-- `value(bv)` (R11): bit i has weight 2^i. -/
def value : Bits → Nat
  | [] => 0
  | b :: bs => b.toNat + 2 * value bs

/-- `bits_n(v)` (R11): the BitVector of length n with `bv[i] = v[i]`. -/
def bitsOf : Nat → Nat → Bits
  | 0, _ => []
  | n + 1, v => (v % 2 == 1) :: bitsOf n (v / 2)

/-- `zeros(n)` (40_tap.md R151). -/
def zeros (n : Nat) : Bits := List.replicate n false

/-- The first `k` bytes of the packing: byte j holds bits 8j to 8j+7, missing bits are zero. -/
def packBytes : Nat → Bits → List Byte
  | 0, _ => []
  | k + 1, bv => BitVec.ofNat 8 (value (bv.take 8)) :: packBytes k (bv.drop 8)

/-- `ceil(n / 8)` (R11). -/
def byteCount (n : Nat) : Nat := (n + 7) / 8

/-- `pack(bv)` (R11). -/
def pack (bv : Bits) : List Byte := packBytes (byteCount bv.length) bv

/-- The bits of a byte string, byte k bit j at position 8k + j. -/
def bitsOfBytes (bs : List Byte) : Bits := bs.flatMap fun b => bitsOf 8 b.toNat

/-- `le16` of two bytes, the low one first (R12). -/
def le16 (b0 b1 : Byte) : BitVec 16 := b1 ++ b0

/-- `le32` of four bytes, the low one first (R12). -/
def le32 (b0 b1 b2 b3 : Byte) : Word := b3 ++ b2 ++ b1 ++ b0

/-- The bytes of a 16-bit field, low byte first (30_encoding.md R100). -/
def bytesLe16 (w : BitVec 16) : List Byte := [w.extractLsb' 0 8, w.extractLsb' 8 8]

/-- `bytes_le32(w)` (R12). -/
def bytesLe32 (w : Word) : List Byte :=
  [w.extractLsb' 0 8, w.extractLsb' 8 8, w.extractLsb' 16 8, w.extractLsb' 24 8]

end Sys2Proof
end

