-- ==== Sys2Proof/Config.lean ====
section
/-! DEFINITION. The device descriptors (10_state.md R46), the implementation parameters (00_scope.md R7) with their constraints (R8), and the free values of the model: opaque constants with no body. -/

namespace Sys2Proof

/-- FlashRegion (R46). -/
structure FlashRegion where
  base : Word
  size : Word
  sectorSize : Word
  deriving DecidableEq, Repr, Inhabited

/-- DeviceDescriptor (R46). `part_id` is 28 bits by its type; names are the byte strings the FDESC format carries (R100). -/
structure DeviceDescriptor where
  partId : BitVec 28
  name : List Byte
  vendor : List Byte
  flashSize : Word
  ramSize : Word
  regions : List FlashRegion
  fpu : Bool
  dsp : Bool
  deriving DecidableEq, Repr, Inhabited

/-- The OPEN parameters of R7 (the parameters with a source or decided value are constants of Machine/Operands.lean).
The default field values only show that some configuration meets R8: they are no candidate of R7 and no statement rests on them. -/
structure RawParams where
  irDpacc : BitVec 8 := 0
  irApacc : BitVec 8 := 1
  waitRetryMax : Nat := 1
  waitReadyMax : Nat := 1
  tckHalfPeriodUs : Nat := 0
  cswBase : Word := 0
  flashKeyr : Word := 0
  flashSr : Word := 4
  flashCr : Word := 8
  flashAr : Word := 12
  flashKey1 : Word := 0
  flashKey2 : Word := 0
  crPg : Word := 1
  crPer : Word := 2
  crStrt : Word := 4
  refSectorSize : Nat := 4
  refNamePattern : List Byte := []
  catalog0 : List DeviceDescriptor := []
  defaultEraseRange : Word × Word := (0, 0)
  deriving DecidableEq, Repr, Inhabited

/-- Exactly one bit of `w` is set. -/
def oneHot (w : Word) : Bool := (List.range 32).any fun i => w == BitVec.twoPow 32 i

/-- The constraints of R8, checked at configuration time. -/
def RawParams.valid (p : RawParams) : Bool :=
  decide (1 ≤ p.waitRetryMax) && decide (1 ≤ p.waitReadyMax) && p.irDpacc != p.irApacc
    && oneHot p.crPg && oneHot p.crPer && oneHot p.crStrt
    && p.crPg != p.crPer && p.crPg != p.crStrt && p.crPer != p.crStrt
    && p.refSectorSize == 2 ^ Nat.log2 p.refSectorSize && p.refSectorSize % 4 == 0
    && p.cswBase &&& 0x3F#32 == 0
    && [p.flashKeyr, p.flashSr, p.flashCr, p.flashAr].all (fun a => a.toNat % 4 == 0)
    && decide [p.flashKeyr, p.flashSr, p.flashCr, p.flashAr].Nodup

/-- A configuration that passed R8; one that violates it is refused (Machine/Reset.lean, `configure`). -/
structure Params extends RawParams where
  ok : toRawParams.valid = true := by decide
  deriving DecidableEq, Repr, Inhabited

/-- FREE VALUE: the configuration of the machine that `State.reset` starts (R7: OPEN parameters are arguments of the model). Log entry 5. -/
opaque Config.params : Params

/-- FREE VALUE: whether the transport performs the pin operation numbered `n` (R3, R25: every operation may fail). Log entry 1. -/
opaque Config.linkAnswer : Nat → Bool

/-- FREE VALUE: the level of TDO in the `n`-th sample (R3: the target's answers are not determined by the spec). Log entry 1. -/
opaque Config.tdoAnswer : Nat → Bool

/-- FREE VALUE: the u32 index field of a CATALOG_FIND result whose entry stands at index `n`, 2^32 or above: no u32 holds it and no rule says what is answered. Log entry 26. -/
opaque Config.wideIndex : Nat → BitVec 32

end Sys2Proof
end

