-- ==== Sys2Proof/Syntax.lean ====
section
/-! DEFINITION. The instructions: one constructor for each row of spec/opcode_table.json, the 22 host commands (30_encoding.md R102) and the 14 wire encodings the block emits (R110 to R115), with the reasons a decoder refuses for. -/

namespace Sys2Proof

/-- What SHIFT_DR shifts in (R151): TDI held low for `len` clocks when no bits are given, or the given bits. -/
inductive DrSource where
  /-- `has_bits = 0`: `len` clocks with TDI low. -/
  | low (len : Nat)
  /-- `has_bits = 1`: the bits, whose number is `len`. -/
  | bits (bv : Bits)
  deriving DecidableEq, Repr

/-- The instructions. The first 22 are host commands; the last 14 are the block's internal steps, which no command word names (R103). -/
inductive Instr where
  | sessionOpen
  | sessionClose
  | tapReset
  | shiftIr (bits : Bits)
  | shiftDr (src : DrSource)
  | readIdcode
  | selectAp (ap : Byte) (reg : Word)
  | apTransfer (write : Bool) (addr data : Word)
  | readMemory (addr len : Word)
  | writeMemory (addr : Word) (data : List Byte)
  | coreHalt
  | coreResume
  | coreReset
  | deviceBind (idcode : Word)
  | flashDetect
  | flashInit
  | flashStatus
  | flashErase (addr len : Word)
  | flashProgram (addr : Word) (data : List Byte)
  | flashVerify (addr : Word) (data : List Byte)
  | catalogFind (idcode : Word)
  | catalogAdd (partId flashSize ramSize : Word) (fpu dsp : Bool) (name vendor : List Byte) (regions : List FlashRegion)
  | irBypass
  | irDpacc
  | irApacc
  | dpSelectWrite (data : Word)
  | dpRdbuffRead
  | apCswWrite (data : Word)
  | apTarWrite (addr : Word)
  | apDrwWrite (data : Word)
  | apDrwRead
  | tmsTapReset
  | tmsIrEntry
  | tmsDrEntry
  | tmsShiftBody (tdi : Bits)
  | tmsScanExit
  deriving DecidableEq, Repr

/-- Why a decoder refuses its input: the cases of R104, and those of a wire word the block never emits. -/
inductive DecodeReject where
  /-- The opcode is not in R102. -/
  | illegalOpcode
  /-- The byte string ends before the format's last field. -/
  | truncated
  /-- Bytes remain after the format's last field. -/
  | trailingBytes
  /-- FSDR `flags[7:1]` or FDESC `flags[7:2]` is not zero. -/
  | reservedFlags
  /-- FXFER `write` is above 1. -/
  | writeAboveOne
  /-- A `bits` field has a nonzero bit at a position at or past `len`. -/
  | strayBits
  /-- An IR code, a frame or a TMS sequence that is in no row of the table. -/
  | notEmitted
  deriving DecidableEq, Repr

/-- The instruction is one the host can issue (R103: the internal steps have no opcode). -/
def Instr.isCommand : Instr → Bool
  | .irBypass | .irDpacc | .irApacc | .dpSelectWrite _ | .dpRdbuffRead | .apCswWrite _ | .apTarWrite _
  | .apDrwWrite _ | .apDrwRead | .tmsTapReset | .tmsIrEntry | .tmsDrEntry | .tmsShiftBody _ | .tmsScanExit => false
  | .sessionOpen | .sessionClose | .tapReset | .shiftIr _ | .shiftDr _ | .readIdcode | .selectAp _ _ | .apTransfer _ _ _
  | .readMemory _ _ | .writeMemory _ _ | .coreHalt | .coreResume | .coreReset | .deviceBind _ | .flashDetect | .flashInit
  | .flashStatus | .flashErase _ _ | .flashProgram _ _ | .flashVerify _ _ | .catalogFind _
  | .catalogAdd _ _ _ _ _ _ _ _ => true

end Sys2Proof
end

