-- ==== Sys2Proof/WellFormed.lean ====
section
/-! DEFINITION. The instructions an encoding can hold: the widths of the length fields of 30_encoding.md R100 and the fixed zero bits of the data words the block emits (R116, R117). -/

namespace Sys2Proof

/-- The operand sizes that fit a u16 `len` (FSIR, FSDR), a u32 `len` (FALD) and a u8 count (FDESC). -/
def DrSource.WellFormed : DrSource → Bool
  | .low len => decide (len < 2 ^ 16)
  | .bits bv => decide (bv.length < 2 ^ 16)

/-- An instruction that has an encoding. Of AP_CSW_WRITE only the low six bits are fixed (log entry 8). A shift of length 0 decodes (and is then refused ZERO_LEN, R126), so it is well-formed. -/
def Instr.WellFormed : Instr → Bool
  | .shiftIr bits => decide (bits.length < 2 ^ 16)
  | .shiftDr src => src.WellFormed
  | .writeMemory _ data => decide (data.length < 2 ^ 32)
  | .flashProgram _ data => decide (data.length < 2 ^ 32)
  | .flashVerify _ data => decide (data.length < 2 ^ 32)
  | .catalogAdd _ _ _ _ _ name vendor regions =>
    decide (name.length < 2 ^ 8) && decide (vendor.length < 2 ^ 8) && decide (regions.length < 2 ^ 8)
  | .dpSelectWrite data => data &&& 0x00FFFF0F#32 == 0
  | .apCswWrite data => data &&& 0x3F#32 == 1#32 || data &&& 0x3F#32 == 2#32
  | .tmsShiftBody tdi => decide (1 ≤ tdi.length) && decide (tdi.length < 2 ^ 16)
  | .sessionOpen | .sessionClose | .tapReset | .readIdcode | .selectAp _ _ | .apTransfer _ _ _ | .readMemory _ _
  | .coreHalt | .coreResume | .coreReset | .deviceBind _ | .flashDetect | .flashInit | .flashStatus | .flashErase _ _
  | .catalogFind _ | .irBypass | .irDpacc | .irApacc | .dpRdbuffRead | .apTarWrite _ | .apDrwWrite _ | .apDrwRead
  | .tmsTapReset | .tmsIrEntry | .tmsDrEntry | .tmsScanExit => true

end Sys2Proof
end

