-- ==== Sys2Proof/Decode.lean ====
section
/-! DEFINITION. The encodings of 30_encoding.md: the total decoder of host command words (R100 to R104) and of the wire words the block emits (R110 to R115), and after it the encoder. -/

namespace Sys2Proof

/-! ### Field readers: each returns the field and the bytes after it, or `truncated`. -/

/-- A u8 field. -/
def readU8 : List Byte → Except DecodeReject (Byte × List Byte)
  | b :: rest => .ok (b, rest)
  | [] => .error .truncated

/-- A u16 field, little-endian. -/
def readU16 : List Byte → Except DecodeReject (BitVec 16 × List Byte)
  | b0 :: b1 :: rest => .ok (le16 b0 b1, rest)
  | _ => .error .truncated

/-- A u32 field, little-endian. -/
def readU32 : List Byte → Except DecodeReject (Word × List Byte)
  | b0 :: b1 :: b2 :: b3 :: rest => .ok (le32 b0 b1 b2 b3, rest)
  | _ => .error .truncated

/-- A byte string of known length. -/
def readBytes (n : Nat) (bs : List Byte) : Except DecodeReject (List Byte × List Byte) :=
  if bs.length < n then .error .truncated else .ok (bs.take n, bs.drop n)

/-- A packed BitVector of `len` bits (R101): the bits at positions `>= len` must be zero. -/
def readBits (len : Nat) (bs : List Byte) : Except DecodeReject (Bits × List Byte) := do
  let (field, rest) ← readBytes (byteCount len) bs
  let bits := bitsOfBytes field
  if (bits.drop len).any id then .error .strayBits else .ok (bits.take len, rest)

/-- `n` region records of (base u32, size u32, sector_size u32) (R100, FDESC). -/
def readRegions : Nat → List Byte → Except DecodeReject (List FlashRegion × List Byte)
  | 0, bs => .ok ([], bs)
  | n + 1, bs => do
    let (base, bs) ← readU32 bs
    let (size, bs) ← readU32 bs
    let (sectorSize, bs) ← readU32 bs
    let (rest, bs) ← readRegions n bs
    .ok ({ base, size, sectorSize } :: rest, bs)

/-- No byte may remain after the format's last field (R104). -/
def finish (i : Instr) : List Byte → Except DecodeReject Instr
  | [] => .ok i
  | _ :: _ => .error .trailingBytes

/-! ### The formats of R100, after the opcode byte. -/

/-- FSIR: `len` u16, `bits`. -/
def decodeFsir (bs : List Byte) : Except DecodeReject Instr := do
  let (len, bs) ← readU16 bs
  let (bits, bs) ← readBits len.toNat bs
  finish (.shiftIr bits) bs

/-- FSDR: `flags` u8 (bit 0 `has_bits`), `len` u16, `bits` when `has_bits = 1`. -/
def decodeFsdr (bs : List Byte) : Except DecodeReject Instr := do
  let (flags, bs) ← readU8 bs
  let (len, bs) ← readU16 bs
  if flags &&& 0xFE#8 != 0 then .error .reservedFlags
  else if flags.getLsbD 0 then do
    let (bits, bs) ← readBits len.toNat bs
    finish (.shiftDr (.bits bits)) bs
  else finish (.shiftDr (.low len.toNat)) bs

/-- FSEL: `ap_index` u8, `register_addr` u32. -/
def decodeFsel (bs : List Byte) : Except DecodeReject Instr := do
  let (ap, bs) ← readU8 bs
  let (reg, bs) ← readU32 bs
  finish (.selectAp ap reg) bs

/-- FXFER: `write` u8 (0 or 1), `addr` u32, `data` u32. -/
def decodeFxfer (bs : List Byte) : Except DecodeReject Instr := do
  let (write, bs) ← readU8 bs
  let (addr, bs) ← readU32 bs
  let (data, bs) ← readU32 bs
  if 1 < write.toNat then .error .writeAboveOne
  else finish (.apTransfer (write == 1#8) addr data) bs

/-- FW: `word` u32. -/
def decodeFw (mk : Word → Instr) (bs : List Byte) : Except DecodeReject Instr := do
  let (word, bs) ← readU32 bs
  finish (mk word) bs

/-- FAL: `addr` u32, `len` u32. -/
def decodeFal (mk : Word → Word → Instr) (bs : List Byte) : Except DecodeReject Instr := do
  let (addr, bs) ← readU32 bs
  let (len, bs) ← readU32 bs
  finish (mk addr len) bs

/-- FALD: `addr` u32, `len` u32, `data` of `len` bytes. -/
def decodeFald (mk : Word → List Byte → Instr) (bs : List Byte) : Except DecodeReject Instr := do
  let (addr, bs) ← readU32 bs
  let (len, bs) ← readU32 bs
  let (data, bs) ← readBytes len.toNat bs
  finish (mk addr data) bs

/-- FDESC: sizes, flags (bit 0 fpu, bit 1 dsp, others zero), counted name, vendor and regions. -/
def decodeFdesc (bs : List Byte) : Except DecodeReject Instr := do
  let (partId, bs) ← readU32 bs
  let (flashSize, bs) ← readU32 bs
  let (ramSize, bs) ← readU32 bs
  let (flags, bs) ← readU8 bs
  let (nameLen, bs) ← readU8 bs
  let (name, bs) ← readBytes nameLen.toNat bs
  let (vendorLen, bs) ← readU8 bs
  let (vendor, bs) ← readBytes vendorLen.toNat bs
  let (nregions, bs) ← readU8 bs
  let (regions, bs) ← readRegions nregions.toNat bs
  if flags &&& 0xFC#8 != 0 then .error .reservedFlags
  else finish (.catalogAdd partId flashSize ramSize (flags.getLsbD 0) (flags.getLsbD 1) name vendor regions) bs

/-- Decoding of a host command word (R102, R104): total on every byte string. -/
def decodeCommand : List Byte → Except DecodeReject Instr
  | [] => .error .truncated
  | op :: bs =>
    match op.toNat with
    | 0x01 => finish .sessionOpen bs
    | 0x02 => finish .sessionClose bs
    | 0x10 => finish .tapReset bs
    | 0x11 => decodeFsir bs
    | 0x12 => decodeFsdr bs
    | 0x13 => finish .readIdcode bs
    | 0x20 => decodeFsel bs
    | 0x21 => decodeFxfer bs
    | 0x22 => decodeFal .readMemory bs
    | 0x23 => decodeFald .writeMemory bs
    | 0x24 => finish .coreHalt bs
    | 0x25 => finish .coreResume bs
    | 0x26 => finish .coreReset bs
    | 0x27 => decodeFw .deviceBind bs
    | 0x30 => finish .flashDetect bs
    | 0x31 => finish .flashInit bs
    | 0x32 => finish .flashStatus bs
    | 0x33 => decodeFal .flashErase bs
    | 0x34 => decodeFald .flashProgram bs
    | 0x35 => decodeFald .flashVerify bs
    | 0x40 => decodeFw .catalogFind bs
    | 0x41 => decodeFdesc bs
    | _ => .error .illegalOpcode

/-! ### The wire words (R110 to R115). -/

/-- One TCK cycle as the target sees it: the levels of TMS and TDI at the rising edge. -/
structure Symbol where
  tms : Bool
  tdi : Bool
  deriving DecidableEq, Repr

/-- What an encoding is: a host command word, or a word the block puts on the wire. -/
inductive Encoding where
  /-- A host command word (R100). -/
  | command (bytes : List Byte)
  /-- An 8-bit IR scan (R111). -/
  | irScan (code : Byte)
  /-- A 35-bit DR scan under IR_DPACC (`dp`) or IR_APACC (R112). -/
  | frame (dp : Bool) (bits : BitVec 35)
  /-- A sequence of TCK cycles (R110). -/
  | cycles (symbols : List Symbol)
  deriving DecidableEq, Repr

/-- `IR_BYPASS` (R111). -/
def irBypassCode : Byte := 0xFF#8

/-- `frame_out(a, rnw, wdata)` (R112). -/
def frameOut (a : BitVec 2) (rnw : Bool) (wdata : Word) : BitVec 35 := wdata ++ a ++ BitVec.ofBool rnw

/-- The row of an IR code the block scans on its own. The codes of DPACC and APACC are parameters; log entry 10 says which row a code two rows share is read as. -/
def decodeIr (p : RawParams) (code : Byte) : Except DecodeReject Instr :=
  if code = p.irDpacc then .ok .irDpacc
  else if code = p.irApacc then .ok .irApacc
  else if code = irBypassCode then .ok .irBypass
  else .error .notEmitted

/-- An instruction whose fixed bits hold, as the block emits it. -/
def emitted (i : Instr) : Except DecodeReject Instr :=
  if i.WellFormed then .ok i else .error .notEmitted

/-- The row of a DP/AP frame (R112, R115): the header gives the row, a read carries no data. -/
def decodeFrame (dp : Bool) (f : BitVec 35) : Except DecodeReject Instr :=
  let data := f.extractLsb' 3 32
  match dp, (f.extractLsb' 0 3).toNat with
  | true, 0b100 => emitted (.dpSelectWrite data)
  | true, 0b111 => if data = 0 then .ok .dpRdbuffRead else .error .notEmitted
  | false, 0b000 => emitted (.apCswWrite data)
  | false, 0b010 => .ok (.apTarWrite data)
  | false, 0b110 => .ok (.apDrwWrite data)
  | false, 0b111 => if data = 0 then .ok .apDrwRead else .error .notEmitted
  | _, _ => .error .notEmitted

/-- Cycles with TDI low, from a TMS sequence (40_tap.md R148, R150: TDI is 0 on every clock that shifts no bit). -/
def lowSymbols (tms : List Bool) : List Symbol := tms.map fun t => ⟨t, false⟩

/-- Shift body of n bits (R110): TMS is 1 exactly on the final bit. -/
def bodySymbols : Bits → List Symbol
  | [] => []
  | [b] => [⟨true, b⟩]
  | b :: b' :: bs => ⟨false, b⟩ :: bodySymbols (b' :: bs)

/-- TMS sequences of R110, in clock order. -/
def tmsTapReset : List Bool := [true, true, true, true, true, false]
/-- IR scan entry from RTI (R110). -/
def tmsIrEntry : List Bool := [true, true, false, false]
/-- DR scan entry from RTI (R110). -/
def tmsDrEntry : List Bool := [true, false, false]
/-- Scan exit from Exit1 (R110). -/
def tmsScanExit : List Bool := [true, false]

/-- The row of a sequence of cycles (R110). -/
def decodeCycles (c : List Symbol) : Except DecodeReject Instr :=
  if c = lowSymbols tmsTapReset then .ok .tmsTapReset
  else if c = lowSymbols tmsIrEntry then .ok .tmsIrEntry
  else if c = lowSymbols tmsDrEntry then .ok .tmsDrEntry
  else if c = lowSymbols tmsScanExit then .ok .tmsScanExit
  else if c ≠ [] ∧ c.length < 2 ^ 16 ∧ c = bodySymbols (c.map Symbol.tdi) then .ok (.tmsShiftBody (c.map Symbol.tdi))
  else .error .notEmitted

/-- Decoding of any encoding: total, refusing by name. -/
def decode (p : RawParams) : Encoding → Except DecodeReject Instr
  | .command bytes => decodeCommand bytes
  | .irScan code => decodeIr p code
  | .frame dp f => decodeFrame dp f
  | .cycles c => decodeCycles c

/-! ### The encoder. -/

/-- A counted byte string of FDESC: u8 length, then the bytes. -/
def counted (bs : List Byte) : List Byte := BitVec.ofNat 8 bs.length :: bs

/-- One region record of FDESC. -/
def encodeRegion (r : FlashRegion) : List Byte := bytesLe32 r.base ++ bytesLe32 r.size ++ bytesLe32 r.sectorSize

/-- FDESC flags: bit 0 fpu, bit 1 dsp. -/
def descFlags (fpu dsp : Bool) : Byte := BitVec.ofNat 8 (fpu.toNat + 2 * dsp.toNat)

/-- FALD after the opcode: the address, the length and the data (R100). -/
def encodeFald (addr : Word) (data : List Byte) : List Byte :=
  bytesLe32 addr ++ bytesLe32 (BitVec.ofNat 32 data.length) ++ data

/-- The encoding of an instruction (R100, R102 for commands; R110 to R115 for wire words). -/
def encode (p : RawParams) : Instr → Encoding
  | .sessionOpen => .command [0x01#8]
  | .sessionClose => .command [0x02#8]
  | .tapReset => .command [0x10#8]
  | .shiftIr bits => .command (0x11#8 :: (bytesLe16 (BitVec.ofNat 16 bits.length) ++ pack bits))
  | .shiftDr (.low len) => .command (0x12#8 :: 0x00#8 :: bytesLe16 (BitVec.ofNat 16 len))
  | .shiftDr (.bits bv) => .command (0x12#8 :: 0x01#8 :: (bytesLe16 (BitVec.ofNat 16 bv.length) ++ pack bv))
  | .readIdcode => .command [0x13#8]
  | .selectAp ap reg => .command (0x20#8 :: ap :: bytesLe32 reg)
  | .apTransfer write addr data =>
    .command (0x21#8 :: BitVec.ofNat 8 write.toNat :: (bytesLe32 addr ++ bytesLe32 data))
  | .readMemory addr len => .command (0x22#8 :: (bytesLe32 addr ++ bytesLe32 len))
  | .writeMemory addr data => .command (0x23#8 :: encodeFald addr data)
  | .coreHalt => .command [0x24#8]
  | .coreResume => .command [0x25#8]
  | .coreReset => .command [0x26#8]
  | .deviceBind idcode => .command (0x27#8 :: bytesLe32 idcode)
  | .flashDetect => .command [0x30#8]
  | .flashInit => .command [0x31#8]
  | .flashStatus => .command [0x32#8]
  | .flashErase addr len => .command (0x33#8 :: (bytesLe32 addr ++ bytesLe32 len))
  | .flashProgram addr data => .command (0x34#8 :: encodeFald addr data)
  | .flashVerify addr data => .command (0x35#8 :: encodeFald addr data)
  | .catalogFind idcode => .command (0x40#8 :: bytesLe32 idcode)
  | .catalogAdd partId flashSize ramSize fpu dsp name vendor regions =>
    .command (0x41#8 :: (bytesLe32 partId ++ bytesLe32 flashSize ++ bytesLe32 ramSize ++ descFlags fpu dsp ::
      (counted name ++ counted vendor ++ BitVec.ofNat 8 regions.length :: regions.flatMap encodeRegion)))
  | .irBypass => .irScan irBypassCode
  | .irDpacc => .irScan p.irDpacc
  | .irApacc => .irScan p.irApacc
  | .dpSelectWrite data => .frame true (frameOut 0b10#2 false data)
  | .dpRdbuffRead => .frame true (frameOut 0b11#2 true 0)
  | .apCswWrite data => .frame false (frameOut 0b00#2 false data)
  | .apTarWrite addr => .frame false (frameOut 0b01#2 false addr)
  | .apDrwWrite data => .frame false (frameOut 0b11#2 false data)
  | .apDrwRead => .frame false (frameOut 0b11#2 true 0)
  | .tmsTapReset => .cycles (lowSymbols tmsTapReset)
  | .tmsIrEntry => .cycles (lowSymbols tmsIrEntry)
  | .tmsDrEntry => .cycles (lowSymbols tmsDrEntry)
  | .tmsShiftBody tdi => .cycles (bodySymbols tdi)
  | .tmsScanExit => .cycles (lowSymbols tmsScanExit)

/-! ### The host's table words. -/

/-- The length of a command word from its opcode and length fields (R100, R129); `byte i` is byte i, zero past the given bytes. -/
def commandLength (byte : Nat → Byte) : Option Nat :=
  let u16 (i : Nat) := (le16 (byte i) (byte (i + 1))).toNat
  let u32 (i : Nat) := (le32 (byte i) (byte (i + 1)) (byte (i + 2)) (byte (i + 3))).toNat
  match (byte 0).toNat with
  | 0x01 | 0x02 | 0x10 | 0x13 | 0x24 | 0x25 | 0x26 | 0x30 | 0x31 | 0x32 => some 1
  | 0x11 => some (3 + byteCount (u16 1))
  | 0x12 => some (if (byte 1).getLsbD 0 then 4 + byteCount (u16 2) else 4)
  | 0x20 => some 6
  | 0x21 => some 10
  | 0x22 | 0x33 => some 9
  | 0x23 | 0x34 | 0x35 => some (9 + u32 5)
  | 0x27 | 0x40 => some 5
  | 0x41 =>
    let vendorAt := 15 + (byte 14).toNat
    let regionsAt := vendorAt + 1 + (byte vendorAt).toNat
    some (regionsAt + 1 + 12 * (byte regionsAt).toNat)
  | _ => none

/-- The `k` low bytes of `w`, least significant first. -/
def bytesOfNat : Nat → Nat → List Byte
  | 0, _ => []
  | k + 1, w => BitVec.ofNat 8 w :: bytesOfNat k (w / 256)

/-- The command word whose bits are `w`, bit 0 the least significant bit of the first byte, the bits above `nbits` zero up to the end the word's own length fields give. -/
def tableWord (nbits w : Nat) : List Byte :=
  let bs := bytesOfNat (byteCount nbits) w
  match commandLength fun i => bs.getD i 0 with
  | some n => bs ++ List.replicate (n - bs.length) 0
  | none => bs

/-- The instruction the host-command decoder reads from the word whose bits are `w`. -/
def decodeTableWord (nbits w : Nat) : Option Instr := (decodeCommand (tableWord nbits w)).toOption

end Sys2Proof
end

