-- ==== Sys2Proof/Machine/State.lean ====
section
/-! DEFINITION. The block's state (10_state.md R32), the environment's answers as plain data (00_scope.md R3), results and errors (60_exceptions.md R300, R301), the reasons a command is refused (R303), and the state after power-on (70_reset_and_hazards.md R340). -/

namespace Sys2Proof.Machine

/-- The TAP positions of R34 and UNKNOWN. -/
inductive TapState where
  | tlr | rti
  | selDr | capDr | shDr | ex1Dr | paDr | ex2Dr | upDr
  | selIr | capIr | shIr | ex1Ir | paIr | ex2Ir | upIr
  | unknown
  deriving DecidableEq, Repr

/-- The flash driver variants (R38): the reference driver is the only one. -/
inductive Driver where
  | ref
  deriving DecidableEq, Repr

/-- The pins of the transport (00_scope.md R25). -/
inductive Pin where
  | tck | tms | tdi | tdo | trst | srst
  deriving DecidableEq, Repr

/-- The operations the transport offers (R25). -/
inductive PinOp where
  /-- `open()` -/
  | openLink
  /-- `close()` -/
  | closeLink
  /-- `set_pin(pin, level)` -/
  | setPin (p : Pin) (level : Bool)
  /-- `get_pin(pin)` -/
  | getPin (p : Pin)
  /-- `delay(microseconds)` -/
  | delay (us : Nat)
  deriving DecidableEq, Repr

/-- The environment's answer to one pin operation (R3). -/
inductive PinAnswer where
  /-- The operation was performed. -/
  | done
  /-- GetPin(TDO) was performed and read this level. -/
  | level (b : Bool)
  /-- TransportError. -/
  | failed
  deriving DecidableEq, Repr

/-- A pin operation the block issued and its answer. -/
structure PinEvent where
  op : PinOp
  answer : PinAnswer
  deriving DecidableEq, Repr

/-- The transport's coming answers, success or failure (R3, R25): a free input, held as plain data (log entry 1). -/
inductive Link where
  /-- Every operation succeeds. -/
  | working
  /-- `n` operations succeed, the next fails, and `rest` answers the ones after it. -/
  | failsAfter (n : Nat) (rest : Link)
  /-- Every answer is the environment's free choice `Config.linkAnswer`. -/
  | free
  deriving DecidableEq, Repr

/-- The error codes 1 to 8 of R300. -/
inductive ErrorCode where
  | transportError
  | protocolError
  | noDeviceError
  | unsupportedDeviceError
  | alignmentError
  | flashTimeoutError
  | verifyMismatchError
  | flashStatusError
  deriving DecidableEq, Repr

/-- The `step` field of an error record (R301). -/
inductive StepKind where
  | none | erase | program | verify
  deriving DecidableEq, Repr

/-- An error and its record (R301). -/
structure ErrorRecord where
  code : ErrorCode
  step : StepKind
  addr : Word
  detail : Byte
  deriving DecidableEq, Repr

/-- FlashStatus (R44). -/
structure FlashStatus where
  busy : Bool
  error : Bool
  eop : Bool
  deriving DecidableEq, Repr

/-- The payload of an OK result (30_encoding.md R105). -/
inductive Payload where
  | empty
  /-- SHIFT_DR: the sampled BitVector. -/
  | bits (bv : Bits)
  /-- READ_IDCODE, AP_TRANSFER: a u32. -/
  | word (w : Word)
  /-- READ_MEMORY: a byte string. -/
  | bytes (bs : List Byte)
  /-- FLASH_DETECT: the bound driver. -/
  | driver (d : Driver)
  /-- FLASH_STATUS. -/
  | status (st : FlashStatus)
  /-- CATALOG_FIND: the index of the entry found, or none. -/
  | found (index : Option Nat)
  deriving DecidableEq, Repr

/-- The result of a command (R300): OK with a payload, or one error. -/
inductive CommandResult where
  | ok (p : Payload)
  | error (e : ErrorRecord)
  deriving DecidableEq, Repr

/-- The block's state R32 (`cfg` to `result`), and the model's own fields: the host's commands to come, the environment's answers to come, and the pin operations issued. -/
structure State where
  /-- The parameters of 00_scope.md R7; no rule writes them. -/
  cfg : Params
  /-- `S.open` -/
  isOpen : Bool
  /-- `S.busy` -/
  busy : Bool
  /-- `S.tap` -/
  tap : TapState
  /-- `S.ir` -/
  ir : Option Bits
  /-- `S.sel_valid` -/
  selValid : Bool
  /-- `S.sel_ap` -/
  selAp : Byte
  /-- `S.sel_bank` -/
  selBank : Byte
  /-- `S.device` -/
  device : Option DeviceDescriptor
  /-- `S.driver` -/
  driver : Option Driver
  /-- `S.flash_unlocked` -/
  flashUnlocked : Bool
  /-- `S.catalog` -/
  catalog : List DeviceDescriptor
  /-- `S.pin_tck`: none is UNDRIVEN. -/
  pinTck : Option Bool
  /-- `S.pin_tms` -/
  pinTms : Option Bool
  /-- `S.pin_tdi` -/
  pinTdi : Option Bool
  /-- `S.result` -/
  result : Option CommandResult
  /-- MODEL'S OWN: the command words the host has yet to have accepted, oldest first (log entry 2). -/
  cmds : List (List Byte)
  /-- MODEL'S OWN: the transport's answers to come (log entry 1). -/
  link : Link
  /-- MODEL'S OWN: the levels TDO answers to come; past the end they are `Config.tdoAnswer` (log entry 1). -/
  tdo : List Bool
  /-- MODEL'S OWN: how many pin operations that may fail were issued. -/
  ops : Nat
  /-- MODEL'S OWN: how many levels of TDO were sampled. -/
  samples : Nat
  /-- MODEL'S OWN: the pin operations issued and their answers, newest first (log entry 4). -/
  trace : List PinEvent
  deriving DecidableEq, Repr

/-- Why a step stops with a fault. No rule of the spec stops the block: every command ends with a result (60_exceptions.md R326) or is refused (R303), so there is no constructor. -/
inductive Fault where
  deriving DecidableEq, Repr

/-- Why a command is refused (R303). Every refusal is SAFE: the spec gives the command no behaviour for that input (00_scope.md R15). -/
inductive Refusal where
  /-- Raised by exec's arm of an instruction that has no meaning yet; no arm is left. SAFE. -/
  | notModelled (mnemonic : String)
  /-- DECODE, raised by step: the word is no command (30_encoding.md R104). SAFE. -/
  | decode (why : DecodeReject)
  /-- BUSY, raised by the command gate (40_tap.md R141). SAFE. -/
  | busy
  /-- CLOSED, raised by the command gate (R141, 10_state.md R33), and by an internal step run alone (log entry 8). SAFE. -/
  | closed
  /-- ALREADY_OPEN, raised by SESSION_OPEN (R142). SAFE. -/
  | alreadyOpen
  /-- TAP_UNKNOWN, raised by a command or internal step that scans when the TAP mirror is not in Run-Test/Idle (R145, 41_dap.md R181). SAFE. -/
  | tapUnknown
  /-- NOT_BOUND, raised by the DAP and flash commands without a bound device (41_dap.md R181, 42_flash.md R230). SAFE. -/
  | notBound
  /-- NO_DRIVER, raised by the flash commands without a driver (42_flash.md R231). SAFE. -/
  | noDriver
  /-- LOCKED, raised by FLASH_ERASE and FLASH_PROGRAM before the unlock (42_flash.md R231). SAFE. -/
  | locked
  /-- ZERO_LEN, raised by SHIFT_IR and SHIFT_DR (40_tap.md R149, R151). SAFE. -/
  | zeroLen
  /-- RANGE, raised by the commands that take a range (20_memory.md R78), and by the host-side expansion of `flash` for a file whose length fits no u32 `len` (log entry 25). SAFE. -/
  | range
  /-- Raised by `configure` for parameters that violate 00_scope.md R8. SAFE. -/
  | config
  /-- Raised only by the host-side expansion of `flash` for a bound device without a region (30_encoding.md R133, log entry 12). SAFE. -/
  | noRegion
  deriving DecidableEq, Repr

/-- The state after power-on (R340) with the given parameters; the model's own fields as log entries 1, 2 and 4 say. -/
def State.powerOn (p : Params) : State where
  cfg := p
  isOpen := false
  busy := false
  tap := .unknown
  ir := none
  selValid := false
  selAp := 0
  selBank := 0
  device := none
  driver := none
  flashUnlocked := false
  catalog := p.catalog0
  pinTck := none
  pinTms := none
  pinTdi := none
  result := none
  cmds := []
  link := .free
  tdo := []
  ops := 0
  samples := 0
  trace := []

/-- The machine right after reset: power-on (R340) under any admitted configuration, in any environment. -/
def State.reset : State := State.powerOn Config.params

end Sys2Proof.Machine
end

