-- ==== Sys2Proof/Machine/Ops.lean ====
section
/-! DEFINITION. The shared operations: pin operations (00_scope.md R25), the TAP next-state function and one TCK cycle (40_tap.md R144, R146), raising and relabelling errors (60_exceptions.md R302), the state after an error (R306 to R308) and the command gate (40_tap.md R141). -/

namespace Sys2Proof.Machine

/-! ### Steps that may raise (00_scope.md R15). -/

/-- The outcome of one step of a command: a value, or a raised error; each with the state it leaves. -/
inductive Res (α : Type) where
  | ok (a : α) (s : State)
  | raise (e : ErrorRecord) (s : State)

/-- Sequencing: no step after a `raise` is performed (R15). -/
def Res.bind {α β : Type} (r : Res α) (k : α → State → Res β) : Res β :=
  match r with
  | .ok a s => k a s
  | .raise e s => .raise e s

/-- Relabelling of a raised error by an enclosing step (R302). -/
def Res.relabel {α : Type} (r : Res α) (f : ErrorRecord → ErrorRecord) : Res α :=
  match r with
  | .ok a s => .ok a s
  | .raise e s => .raise (f e) s

/-- The state a step leaves, whether it raised or not. -/
def Res.state {α : Type} : Res α → State
  | .ok _ s => s
  | .raise _ s => s

/-- R302 (a): an error raised inside a memory access carries its address. -/
def atAddr (a : Word) (e : ErrorRecord) : ErrorRecord := { e with addr := a }

/-- R302 (b): an error raised "here" carries the step and address of the command rule. -/
def atStep (k : StepKind) (a : Word) (e : ErrorRecord) : ErrorRecord := { e with step := k, addr := a }

/-- The record of a TransportError as the innermost raise writes it (40_tap.md R142, 60_exceptions.md R304). -/
def transportError : ErrorRecord := ⟨.transportError, .none, 0, 0⟩

/-! ### Pin operations (00_scope.md R25). -/

/-- Whether the next operation succeeds, and the answers after it; `n` is the operation's number. -/
def Link.next : Link → Nat → Bool × Link
  | .working, _ => (true, .working)
  | .failsAfter 0 rest, _ => (false, rest)
  | .failsAfter (n + 1) rest, _ => (true, .failsAfter n rest)
  | .free, n => (Config.linkAnswer n, .free)

/-- The level TDO answers in the `k`-th sample from now. -/
def State.tdoBit (s : State) (k : Nat) : Bool := (s.tdo[k]?).getD (Config.tdoAnswer (s.samples + k))

/-- The environment has answered one operation with success or failure. -/
def State.advance (s : State) : State := { s with link := (s.link.next s.ops).2, ops := s.ops + 1 }

/-- The operation is recorded with its answer. -/
def State.record (s : State) (op : PinOp) (a : PinAnswer) : State := { s with trace := ⟨op, a⟩ :: s.trace }

/-- An operation without a value: it is performed, or raises TransportError. -/
def pinOp (op : PinOp) (s : State) : Res Unit :=
  if (s.link.next s.ops).1 then .ok () (s.advance.record op .done)
  else .raise transportError (s.advance.record op .failed)

/-- The level last driven on a pin is written only when the operation succeeded (10_state.md R41, 60_exceptions.md R306). -/
def State.driven (s : State) (p : Pin) (level : Bool) : State :=
  match p with
  | .tck => { s with pinTck := some level }
  | .tms => { s with pinTms := some level }
  | .tdi => { s with pinTdi := some level }
  | .tdo | .trst | .srst => s

/-- `SetPin(p, level)` with the write of the pin's mirror (40_tap.md R146). -/
def setPin (p : Pin) (level : Bool) (s : State) : Res Unit :=
  (pinOp (.setPin p level) s).bind fun _ t => .ok () (t.driven p level)

/-- `Delay(us)`. -/
def delay (us : Nat) (s : State) : Res Unit := pinOp (.delay us) s

/-- `Open()`. -/
def openLink (s : State) : Res Unit := pinOp .openLink s

/-- `Close()`: it has no failure result (40_tap.md R143), so it asks the environment nothing. -/
def closeLink (s : State) : State := s.record .closeLink .done

/-- One level of TDO has been sampled. -/
def State.sampled (s : State) : State := { s with tdo := s.tdo.drop 1, samples := s.samples + 1 }

/-- `GetPin(TDO)`: the level the environment answers. A failing operation answers no level (log entry 9). -/
def getTdo (s : State) : Res Bool :=
  if (s.link.next s.ops).1 then
    .ok (s.tdoBit 0) (s.advance.record (.getPin .tdo) (.level (s.tdoBit 0))).sampled
  else .raise transportError (s.advance.record (.getPin .tdo) .failed)

/-! ### The TAP state machine. -/

/-- `next(s, tms)` (40_tap.md R144). -/
def TapState.next : TapState → Bool → TapState
  | .tlr, false => .rti | .tlr, true => .tlr
  | .rti, false => .rti | .rti, true => .selDr
  | .selDr, false => .capDr | .selDr, true => .selIr
  | .capDr, false => .shDr | .capDr, true => .ex1Dr
  | .shDr, false => .shDr | .shDr, true => .ex1Dr
  | .ex1Dr, false => .paDr | .ex1Dr, true => .upDr
  | .paDr, false => .paDr | .paDr, true => .ex2Dr
  | .ex2Dr, false => .shDr | .ex2Dr, true => .upDr
  | .upDr, false => .rti | .upDr, true => .selDr
  | .selIr, false => .capIr | .selIr, true => .tlr
  | .capIr, false => .shIr | .capIr, true => .ex1Ir
  | .shIr, false => .shIr | .shIr, true => .ex1Ir
  | .ex1Ir, false => .paIr | .ex1Ir, true => .upIr
  | .paIr, false => .paIr | .paIr, true => .ex2Ir
  | .ex2Ir, false => .shIr | .ex2Ir, true => .upIr
  | .upIr, false => .rti | .upIr, true => .selDr
  | .unknown, _ => .unknown

/-- The 4-bit codes of 10_state.md R34; UNKNOWN has none. No rule depends on them. -/
def TapState.code : TapState → Option (BitVec 4)
  | .tlr => some 0xF#4 | .rti => some 0xC#4
  | .selDr => some 0x7#4 | .capDr => some 0x6#4 | .shDr => some 0x2#4 | .ex1Dr => some 0x1#4
  | .paDr => some 0x3#4 | .ex2Dr => some 0x0#4 | .upDr => some 0x5#4
  | .selIr => some 0x4#4 | .capIr => some 0xE#4 | .shIr => some 0xA#4 | .ex1Ir => some 0x9#4
  | .paIr => some 0xB#4 | .ex2Ir => some 0x8#4 | .upIr => some 0xD#4
  | .unknown => none

/-- One TCK cycle to drive: the levels of TMS and TDI, and whether TDO is sampled. -/
structure Cycle where
  tms : Bool
  tdi : Bool
  sample : Bool
  deriving DecidableEq, Repr

/-- The target TAP moves at the rising edge (R146). -/
def State.clocked (s : State) (tms : Bool) : State := { s with tap := s.tap.next tms }

/-- The sample of a cycle, or 0 without one (R146). -/
def sampleTdo (sample : Bool) (s : State) : Res Bool := if sample then getTdo s else .ok false s

/-- `Clock(tms, tdi, sample)` (40_tap.md R146). -/
def clock (c : Cycle) (s : State) : Res Bool :=
  (setPin .tck false s).bind fun _ s =>
  (setPin .tms c.tms s).bind fun _ s =>
  (setPin .tdi c.tdi s).bind fun _ s =>
  (delay s.cfg.tckHalfPeriodUs s).bind fun _ s =>
  (sampleTdo c.sample s).bind fun b s =>
  (setPin .tck true s).bind fun _ s =>
  (delay s.cfg.tckHalfPeriodUs (s.clocked c.tms)).bind fun _ s =>
  .ok b s

/-- A sequence of TCK cycles, in order; it returns the sampled levels in order. -/
def runCycles : List Cycle → State → Res Bits
  | [], s => .ok [] s
  | c :: cs, s =>
    (clock c s).bind fun b s =>
    (runCycles cs s).bind fun out s =>
    .ok (if c.sample then b :: out else out) s

/-! ### Ending a command. -/

/-- The block state after a raised error: R306 for TransportError, R307 for ProtocolError, R308 for the others. -/
def State.afterError (s : State) (c : ErrorCode) : State :=
  match c with
  | .transportError => { s with tap := .unknown, ir := none, selValid := false }
  | .protocolError => { s with selValid := false }
  | .noDeviceError | .unsupportedDeviceError | .alignmentError | .flashTimeoutError
  | .verifyMismatchError | .flashStatusError => s

/-- ENTERING AN ERROR (60_exceptions.md R310): the updates of R306 to R308, then the error result with its record. -/
def State.enterError (s : State) (e : ErrorRecord) : State :=
  { s.afterError e.code with result := some (.error e) }

/-- The end of a command (40_tap.md R141): its result is written and the block is no longer busy. -/
def complete (r : Res Payload) : State :=
  match r with
  | .ok p s => { s with result := some (.ok p), busy := false }
  | .raise e s => { s.enterError e with busy := false }

/-- The outcome of a step of the machine. -/
abbrev Outcome := Host.Outcome State Fault Refusal

/-- What the gate refuses (R141): a command while busy, and one of the commands that need an open session (10_state.md R33). -/
def gateRefusal (needsOpen : Bool) (s : State) : Option Refusal :=
  if s.busy then some .busy
  else if needsOpen && !s.isOpen then some .closed
  else none

/-- The first refusal of two lists of checks, in the order of the rule. -/
def orElse (a b : Option Refusal) : Option Refusal :=
  match a with
  | some r => some r
  | none => b

/-- A command (R141): the gate, the command's own refusal checks, which all come before its first pin operation (60_exceptions.md R309), then its steps to the end or to the first error. -/
def command (needsOpen : Bool) (check : State → Option Refusal) (body : State → Res Payload) (s : State) : Outcome :=
  match orElse (gateRefusal needsOpen s) (check s) with
  | some r => .refused r
  | none => .next (complete (body { s with busy := true }))

/-- No refusal check of its own. -/
def noCheck (_ : State) : Option Refusal := none

/-- A scan starts in Run-Test/Idle (40_tap.md R145; log entry 6). -/
def tapCheck (s : State) : Option Refusal := if s.tap = .rti then none else some .tapUnknown

/-- One internal step of the block run on its own (log entry 8): it needs an open session and is no command, so `busy` is neither read nor written. -/
def internalStep (check : State → Option Refusal) (body : State → Res Payload) (s : State) : Outcome :=
  match orElse (if s.isOpen then none else some .closed) (check s) with
  | some r => .refused r
  | none =>
    match body s with
    | .ok p t => .next { t with result := some (.ok p) }
    | .raise e t => .next (t.enterError e)

end Sys2Proof.Machine
end

