-- ==== Sys2Proof/Machine/Operands.lean ====
section
/-! DEFINITION. The operand forms: fixed parameters (00_scope.md R7), TCK cycles of a scan (30_encoding.md R110), data words (R116 to R120), byte assembly (R123), and the alignment and range checks (20_memory.md R76 to R78). -/

namespace Sys2Proof.Machine

/-! ### The parameters with a source or decided value (R7). -/

/-- `IDCODE_LEN` -/
def idcodeLen : Nat := 32
/-- `ACC_LEN` -/
def accLen : Nat := 35
/-- `IR_LEN` -/
def irLen : Nat := 8
/-- `PART_ID_MASK` -/
def partIdMask : Word := 0x0FFFFFFF#32
/-- `default_ap` -/
def defaultAp : Byte := 0#8
/-- `DHCSR_ADDR` -/
def dhcsrAddr : Word := 0xE000EDF0#32
/-- `DHCSR_HALT` (R119) -/
def dhcsrHalt : Word := 0xA05F0003#32
/-- `DHCSR_RESUME` (R119) -/
def dhcsrResume : Word := 0xA05F0001#32
/-- `AIRCR_ADDR` -/
def aircrAddr : Word := 0xE000ED0C#32
/-- `AIRCR_SYSRESET` (R119) -/
def aircrSysreset : Word := 0x05FA0004#32
/-- `REF_PAGE_SIZE` -/
def refPageSize : Nat := 1024

/-! ### Register address codes A[3:2] (R115). -/

/-- DPACC SELECT -/
def regSelect : BitVec 2 := 0b10#2
/-- DPACC RDBUFF -/
def regRdbuff : BitVec 2 := 0b11#2
/-- APACC CSW -/
def regCsw : BitVec 2 := 0b00#2
/-- APACC TAR -/
def regTar : BitVec 2 := 0b01#2
/-- APACC DRW -/
def regDrw : BitVec 2 := 0b11#2

/-! ### Cycles of a scan (R110; 40_tap.md R148, R150). -/

/-- The cycles that drive the given symbols, with or without sampling TDO. -/
def cyclesOf (sample : Bool) (ys : List Symbol) : List Cycle := ys.map fun y => ⟨y.tms, y.tdi, sample⟩

/-- The symbols of an IR scan of `bits` (R148). -/
def irSymbols (bits : Bits) : List Symbol := lowSymbols tmsIrEntry ++ bodySymbols bits ++ lowSymbols tmsScanExit

/-- The symbols of a DR scan of `bits` (R150). -/
def drSymbols (bits : Bits) : List Symbol := lowSymbols tmsDrEntry ++ bodySymbols bits ++ lowSymbols tmsScanExit

/-- An IR scan samples nothing (R148). -/
def irCycles (bits : Bits) : List Cycle := cyclesOf false (irSymbols bits)

/-- A DR scan samples TDO in each clock that shifts a bit (R150). -/
def drCycles (bits : Bits) : List Cycle :=
  cyclesOf false (lowSymbols tmsDrEntry) ++ cyclesOf true (bodySymbols bits) ++ cyclesOf false (lowSymbols tmsScanExit)

/-- `tdi` of SHIFT_DR (R151): the bits, or zeros. -/
def shiftTdi : DrSource → Bits
  | .low len => zeros len
  | .bits bv => bv

/-- `len` of SHIFT_DR. -/
def shiftLen : DrSource → Nat
  | .low len => len
  | .bits bv => bv.length

/-! ### Data words. -/

/-- `sel(ap_index, register_addr)` (R116). -/
def selWord (ap : Byte) (reg : Word) : Word := (ap.zeroExtend 32 <<< 24) ||| (reg &&& 0x000000F0#32)

/-- The bank a select word names, `reg & 0xF0` (41_dap.md R186). -/
def bankOf (reg : Word) : Byte := (reg &&& 0x000000F0#32).setWidth 8

/-- The sizes of a target access (20_memory.md R75). -/
inductive AccessSize where
  | word | half
  deriving DecidableEq, Repr

/-- `csw(size)` (R117). -/
def cswWord (base : Word) : AccessSize → Word
  | .word => base ||| 0b010#32
  | .half => base ||| 0b001#32

/-- `lane16(addr, h)` (R118). -/
def lane16 (addr : Word) (h : BitVec 16) : Word := if addr.getLsbD 1 then h.zeroExtend 32 <<< 16 else h.zeroExtend 32

/-! ### Checks on addresses and lengths. -/

/-- `addr mod 4 != 0` (20_memory.md R76). -/
def misaligned (addr : Word) : Bool := addr.toNat % 4 != 0

/-- A range whose address or byte length is no multiple of 4 (R76, R77). -/
def misalignedRange (addr : Word) (len : Nat) : Bool := len % 4 != 0 || misaligned addr

/-- A range past the top of the address space is refused (R78). -/
def rangeCheck (addr : Word) (len : Nat) : Option Refusal := if 2 ^ 32 < addr.toNat + len then some .range else none

/-- The AlignmentError of a command (41_dap.md R195 to R197, 42_flash.md R241, R242). -/
def alignmentError (k : StepKind) (addr : Word) : ErrorRecord := ⟨.alignmentError, k, addr, 0⟩

end Sys2Proof.Machine
end

