-- ==== Sys2Proof/Machine/Flags.lean ====
section
/-! DEFINITION. The flag computations: the acknowledgment of a captured frame (30_encoding.md R113, R114; 41_dap.md R183), the flash status decode (R121), the IDCODE sentinels and fields (R122, 40_tap.md R152), and the driver name match (42_flash.md R239). -/

namespace Sys2Proof.Machine

/-- The captured frame of a 35-bit scan as a number (R113). -/
def captured (out : Bits) : BitVec 35 := BitVec.ofNat 35 (value out)

/-- `ack(out)` (R113). -/
def ackOf (f : BitVec 35) : BitVec 3 := f.extractLsb' 0 3

/-- `rdata(out)` (R113). -/
def rdataOf (f : BitVec 35) : Word := f.extractLsb' 3 32

/-- The classes of an acknowledgment (41_dap.md R183). -/
inductive AckClass where
  | ok | wait | invalid
  deriving DecidableEq, Repr

/-- R114: `0b010` is OK, `0b001` is WAIT, every other value is invalid. -/
def classify (k : BitVec 3) : AckClass := if k = 0b010#3 then .ok else if k = 0b001#3 then .wait else .invalid

/-- The ProtocolError of a scan whose last acknowledgment was `k` (41_dap.md R185). -/
def protocolError (k : BitVec 3) : ErrorRecord := ⟨.protocolError, .none, 0, k.zeroExtend 8⟩

/-- Bit 0 of a status word (R121). -/
def srBusy (sr : Word) : Bool := sr.getLsbD 0
/-- Bits 2 and 4 of a status word, OR'd (R121). -/
def srError (sr : Word) : Bool := sr.getLsbD 2 || sr.getLsbD 4
/-- Bit 5 of a status word (R121). -/
def srEop (sr : Word) : Bool := sr.getLsbD 5

/-- The status decode (R121). -/
def decodeStatus (sr : Word) : FlashStatus := ⟨srBusy sr, srError sr, srEop sr⟩

/-- The result byte of FLASH_STATUS (30_encoding.md R105). -/
def statusByte (st : FlashStatus) : Byte := BitVec.ofNat 8 (st.busy.toNat + 2 * st.error.toNat + 4 * st.eop.toNat)

/-- The IDCODEs that mean no device (40_tap.md R152). -/
def sentinel (v : Word) : Bool := v == 0#32 || v == 0xFFFFFFFF#32

/-- The part identifier of an IDCODE (R122). -/
def partIdOf (idcode : Word) : Word := idcode &&& partIdMask

/-- The manufacturer/version tag of an IDCODE (R122). -/
def tagOf (idcode : Word) : BitVec 4 := idcode.extractLsb' 28 4

/-- ASCII `A`-`Z` to `a`-`z`, other bytes as they are (42_flash.md R239). -/
def foldByte (b : Byte) : Byte := if 0x41 ≤ b.toNat ∧ b.toNat ≤ 0x5A then b + 0x20#8 else b

/-- `NameMatch(name, pattern)` (R239): the folded pattern is a prefix of the folded name. -/
def nameMatch (name pattern : List Byte) : Bool := (pattern.map foldByte).isPrefixOf (name.map foldByte)

end Sys2Proof.Machine
end

