-- ==== Sys2Proof/Machine/Catalog.lean ====
section
/-! DEFINITION. The device catalog: CatalogFind, CATALOG_FIND and CATALOG_ADD (43_catalog.md R280, R281). -/

namespace Sys2Proof.Machine

/-- The first entry, from index `i`, whose masked part id is the masked `idcode` (R280). -/
def findFrom (idcode : Word) : Nat → List DeviceDescriptor → Option (Nat × DeviceDescriptor)
  | _, [] => none
  | i, d :: ds =>
    if (d.partId.zeroExtend 32) &&& partIdMask = partIdOf idcode then some (i, d) else findFrom idcode (i + 1) ds

/-- `CatalogFind(idcode)` (R280). -/
def catalogLookup (s : State) (idcode : Word) : Option (Nat × DeviceDescriptor) := findFrom idcode 0 s.catalog

/-- CATALOG_FIND (R280): allowed with the session closed. -/
def execCatalogFind (idcode : Word) (s : State) : Outcome :=
  command false noCheck (fun s => .ok (.found ((catalogLookup s idcode).map Prod.fst)) s) s

/-- The entry CATALOG_ADD stores: the part id masked to 28 bits, the rest as given (R281). -/
def newDescriptor (partId flashSize ramSize : Word) (fpu dsp : Bool) (name vendor : List Byte)
    (regions : List FlashRegion) : DeviceDescriptor :=
  { partId := partId.setWidth 28, name, vendor, flashSize, ramSize, regions, fpu, dsp }

/-- CATALOG_ADD (R281): allowed with the session closed; the catalog is append-only. -/
def execCatalogAdd (partId flashSize ramSize : Word) (fpu dsp : Bool) (name vendor : List Byte)
    (regions : List FlashRegion) (s : State) : Outcome :=
  command false noCheck
    (fun s => .ok .empty
      { s with catalog := s.catalog ++ [newDescriptor partId flashSize ramSize fpu dsp name vendor regions] }) s

end Sys2Proof.Machine
end

