-- ==== Sys2Proof/Machine/Scan.lean ====
section
/-! DEFINITION. The shared scan and memory-access primitives: ScanIR, ScanDR (40_tap.md R148, R150), Scan35 and the register wrappers (41_dap.md R182, R185), the selection (R186, R190) and the target memory accesses (R192 to R194). -/

namespace Sys2Proof.Machine

/-- The TMS sequence of a TAP reset with the mirror set to TLR after the five high pulses (40_tap.md R147). -/
def resetCycles (s : State) : Res Unit :=
  (runCycles (cyclesOf false (lowSymbols (tmsTapReset.take 5))) s).bind fun _ s =>
  (runCycles (cyclesOf false (lowSymbols (tmsTapReset.drop 5))) { s with tap := .tlr }).bind fun _ s =>
  .ok () s

/-- `ScanIR(bits)` (R148). -/
def scanIr (bits : Bits) (s : State) : Res Unit :=
  (runCycles (irCycles bits) s).bind fun _ s => .ok () { s with ir := some bits }

/-- `ScanDR(tdi_bits, n)` (R150); `n` is the number of bits given. -/
def scanDr (tdi : Bits) (s : State) : Res Bits := runCycles (drCycles tdi) s

/-- The bounded WAIT retry of Scan35 (41_dap.md R185): the frame `f` is shifted, and again after a WAIT, at most `retries` more times. -/
def shiftFrame (f : Bits) : Nat → State → Res Word
  | 0, s =>
    (scanDr f s).bind fun out s =>
    match classify (ackOf (captured out)) with
    | .ok => .ok (rdataOf (captured out)) s
    | .wait | .invalid => .raise (protocolError (ackOf (captured out))) s
  | retries + 1, s =>
    (scanDr f s).bind fun out s =>
    match classify (ackOf (captured out)) with
    | .ok => .ok (rdataOf (captured out)) s
    | .wait => shiftFrame f retries s
    | .invalid => .raise (protocolError (ackOf (captured out))) s

/-- The BitVector of an access's frame (30_encoding.md R112). -/
def frameBits (a : BitVec 2) (rnw : Bool) (wdata : Word) : Bits := bitsOf accLen (frameOut a rnw wdata).toNat

/-- The BitVector of an IR code (R111). -/
def irBits (code : Byte) : Bits := bitsOf irLen code.toNat

/-- `Scan35(ir, a, rnw, wdata)` (R185): the IR is scanned once. -/
def scan35 (code : Byte) (a : BitVec 2) (rnw : Bool) (wdata : Word) (s : State) : Res Word :=
  (scanIr (irBits code) s).bind fun _ s => shiftFrame (frameBits a rnw wdata) s.cfg.waitRetryMax s

/-- `DPWrite(a, v)` (R182). -/
def dpWrite (a : BitVec 2) (v : Word) (s : State) : Res Word := scan35 s.cfg.irDpacc a false v s
/-- `DPRead(a)` (R182). -/
def dpRead (a : BitVec 2) (s : State) : Res Word := scan35 s.cfg.irDpacc a true 0 s
/-- `APWrite(a, v)` (R182). -/
def apWrite (a : BitVec 2) (v : Word) (s : State) : Res Word := scan35 s.cfg.irApacc a false v s
/-- `APRead(a)` (R182). -/
def apRead (a : BitVec 2) (s : State) : Res Word := scan35 s.cfg.irApacc a true 0 s

/-- `SelectBody(ap, reg)` (R186): the shadow is invalid until the write is acknowledged. -/
def selectBody (ap : Byte) (reg : Word) (s : State) : Res Unit :=
  (dpWrite regSelect (selWord ap reg) { s with selValid := false }).bind fun _ s =>
  .ok () { s with selValid := true, selAp := ap, selBank := bankOf reg }

/-- The AP of a memory access (R189). -/
def State.accessAp (s : State) : Byte := if s.selValid then s.selAp else defaultAp

/-- The shadow names bank 0 (R190). -/
def State.bank0 (s : State) : Bool := s.selValid && s.selBank == 0#8

/-- `EnsureBank0()` (R190). -/
def ensureBank0 (s : State) : Res Unit := if s.bank0 then .ok () s else selectBody s.accessAp 0 s

/-- `MemRead(addr, 4)` (R192); an error inside carries the address (60_exceptions.md R302). -/
def memRead (addr : Word) (s : State) : Res Word :=
  ((ensureBank0 s).bind fun _ s =>
   (apWrite regCsw (cswWord s.cfg.cswBase .word) s).bind fun _ s =>
   (apWrite regTar addr s).bind fun _ s =>
   (apRead regDrw s).bind fun _ s =>
   dpRead regRdbuff s).relabel (atAddr addr)

/-- The body of both writes (R193, R194): `data` is the word on the data bus. -/
def memWriteSized (size : AccessSize) (addr data : Word) (s : State) : Res Unit :=
  ((ensureBank0 s).bind fun _ s =>
   (apWrite regCsw (cswWord s.cfg.cswBase size) s).bind fun _ s =>
   (apWrite regTar addr s).bind fun _ s =>
   (apWrite regDrw data s).bind fun _ s =>
   (dpRead regRdbuff s).bind fun _ s =>
   .ok () s).relabel (atAddr addr)

/-- `MemWrite(addr, 4, v)` (R193). -/
def memWrite (addr v : Word) (s : State) : Res Unit := memWriteSized .word addr v s

/-- `MemWrite(addr, 2, h)` (R194). -/
def memWriteHalf (addr : Word) (h : BitVec 16) (s : State) : Res Unit := memWriteSized .half addr (lane16 addr h) s

/-- The words at `addr`, `addr + 4`, ..., as bytes (R196; 42_flash.md R237). -/
def readWords : Nat → Word → State → Res (List Byte)
  | 0, _, s => .ok [] s
  | n + 1, addr, s =>
    (memRead addr s).bind fun w s =>
    (readWords n (addr + 4) s).bind fun rest s =>
    .ok (bytesLe32 w ++ rest) s

/-- One 32-bit write per four bytes, from `addr` up (R197). -/
def writeWords : Word → List Byte → State → Res Unit
  | addr, b0 :: b1 :: b2 :: b3 :: rest, s =>
    (memWrite addr (le32 b0 b1 b2 b3) s).bind fun _ s => writeWords (addr + 4) rest s
  | _, _, s => .ok () s

end Sys2Proof.Machine
end

