-- ==== Sys2Proof/Machine/Dap.lean ====
section
/-! DEFINITION. The DAP commands: SELECT_AP, AP_TRANSFER, READ_MEMORY, WRITE_MEMORY, CORE_HALT, CORE_RESUME, CORE_RESET and DEVICE_BIND (41_dap.md R181 to R201). -/

namespace Sys2Proof.Machine

/-- The DAP precondition (R181). -/
def dapCheck (s : State) : Option Refusal := orElse (if s.device = none then some .notBound else none) (tapCheck s)

/-- SELECT_AP (R187). -/
def execSelectAp (ap : Byte) (reg : Word) (s : State) : Outcome :=
  command true dapCheck (fun s => (selectBody ap reg s).bind fun _ s => .ok .empty s) s

/-- AP_TRANSFER (R195): a write returns its data. -/
def execApTransfer (write : Bool) (addr data : Word) (s : State) : Outcome :=
  command true dapCheck
    (fun s =>
      if misaligned addr then .raise (alignmentError .none addr) s
      else if write then (memWrite addr data s).bind fun _ s => .ok (.word data) s
      else (memRead addr s).bind fun w s => .ok (.word w) s) s

/-- The DAP precondition and the range check (R196, R197). -/
def dapRangeCheck (addr : Word) (len : Nat) (s : State) : Option Refusal := orElse (dapCheck s) (rangeCheck addr len)

/-- READ_MEMORY (R196). -/
def execReadMemory (addr len : Word) (s : State) : Outcome :=
  command true (dapRangeCheck addr len.toNat)
    (fun s =>
      if misalignedRange addr len.toNat then .raise (alignmentError .none addr) s
      else (readWords (len.toNat / 4) addr s).bind fun bs s => .ok (.bytes bs) s) s

/-- WRITE_MEMORY (R197). -/
def execWriteMemory (addr : Word) (data : List Byte) (s : State) : Outcome :=
  command true (dapRangeCheck addr data.length)
    (fun s =>
      if misalignedRange addr data.length then .raise (alignmentError .none addr) s
      else (writeWords addr data s).bind fun _ s => .ok .empty s) s

/-- CORE_HALT (R198). -/
def execCoreHalt (s : State) : Outcome :=
  command true dapCheck (fun s => (memWrite dhcsrAddr dhcsrHalt s).bind fun _ s => .ok .empty s) s

/-- CORE_RESUME (R199). -/
def execCoreResume (s : State) : Outcome :=
  command true dapCheck (fun s => (memWrite dhcsrAddr dhcsrResume s).bind fun _ s => .ok .empty s) s

/-- CORE_RESET (R200): the block relocks before the write. -/
def execCoreReset (s : State) : Outcome :=
  command true dapCheck
    (fun s => (memWrite aircrAddr aircrSysreset { s with flashUnlocked := false }).bind fun _ s => .ok .empty s) s

/-- The UnsupportedDeviceError of DEVICE_BIND and FLASH_DETECT (R201, 42_flash.md R230). -/
def unsupportedDeviceError (addr : Word) : ErrorRecord := ⟨.unsupportedDeviceError, .none, addr, 0⟩

/-- DEVICE_BIND (R201): no pin operation; on an unknown id the previous binding is kept. -/
def execDeviceBind (idcode : Word) (s : State) : Outcome :=
  command true noCheck
    (fun s =>
      match catalogLookup s idcode with
      | none => .raise (unsupportedDeviceError idcode) s
      | some (_, d) => .ok .empty { s with device := some d, driver := none, flashUnlocked := false, selValid := false }) s

end Sys2Proof.Machine
end

