-- ==== Sys2Proof/Machine/Flash.lean ====
section
/-! DEFINITION. The flash unit (42_flash.md): the preconditions (R231), the reference driver's operations (R233 to R238) and the commands FLASH_DETECT, FLASH_INIT, FLASH_STATUS, FLASH_ERASE, FLASH_PROGRAM and FLASH_VERIFY. -/

namespace Sys2Proof.Machine

/-- The flash precondition (R231); `unlock` for FLASH_ERASE and FLASH_PROGRAM. -/
def flashCheck (unlock : Bool) (s : State) : Option Refusal :=
  orElse (dapCheck s) (orElse (if s.driver = some .ref then none else some .noDriver)
    (if unlock && !s.flashUnlocked then some .locked else none))

/-- The flash precondition and the range check (R240 to R242). -/
def flashRangeCheck (unlock : Bool) (addr : Word) (len : Nat) (s : State) : Option Refusal :=
  orElse (flashCheck unlock s) (rangeCheck addr len)

/-! ### Driver operations. -/

/-- `WaitReady()` with `polls` status reads left (R234). -/
def waitReady : Nat → State → Res Word
  | 0, s => .raise ⟨.flashTimeoutError, .none, s.cfg.flashSr, 0⟩ s
  | polls + 1, s =>
    (memRead s.cfg.flashSr s).bind fun sr s => if srBusy sr then waitReady polls s else .ok sr s

/-- `CheckReady()` (R234): a set error bit is FlashStatusError with the low status byte. -/
def checkReady (s : State) : Res Unit :=
  (waitReady s.cfg.waitReadyMax s).bind fun sr s =>
  if srError sr then .raise ⟨.flashStatusError, .none, s.cfg.flashSr, sr.setWidth 8⟩ s else .ok () s

/-- `EraseSector(a)` (R235). -/
def eraseSector (a : Word) (s : State) : Res Unit :=
  (checkReady s).bind fun _ s =>
  (memWrite s.cfg.flashAr a s).bind fun _ s =>
  (memWrite s.cfg.flashCr s.cfg.crPer s).bind fun _ s =>
  (memWrite s.cfg.flashCr (s.cfg.crPer ||| s.cfg.crStrt) s).bind fun _ s =>
  (checkReady s).bind fun _ s =>
  memWrite s.cfg.flashCr 0 s

/-- The half-words of a page, each written and waited for (R236). -/
def programHalves : Word → List Byte → State → Res Unit
  | addr, b0 :: b1 :: rest, s =>
    (memWriteHalf addr (le16 b0 b1) s).bind fun _ s =>
    (checkReady s).bind fun _ s => programHalves (addr + 2) rest s
  | _, _, s => .ok () s

/-- `ProgramPage(a, d)` (R236). -/
def programPage (a : Word) (d : List Byte) (s : State) : Res Unit :=
  (checkReady s).bind fun _ s =>
  (memWrite s.cfg.flashCr s.cfg.crPg s).bind fun _ s =>
  (programHalves a d s).bind fun _ s =>
  memWrite s.cfg.flashCr 0 s

/-- `Verify(a, d)` (R237): the read-back equals the data. -/
def verify (a : Word) (d : List Byte) (s : State) : Res Bool :=
  (readWords (d.length / 4) a s).bind fun r s => .ok (r == d) s

/-- `SectorSize(a)` (R238): the reference driver's size is the same at every address. DESIGN CHOICE, log entry 24: `sector_size` answers a u32 (10_state.md R47), but R7 and R8 put no upper bound on `REF_SECTOR_SIZE`, so it is any natural number R8 admits, 2^32 and above included. -/
def sectorSize (p : RawParams) (_ : Nat) : Nat := p.refSectorSize

/-! ### The walks. -/

/-- The erase walk (R240) from `cur` to `stop`; the fuel is the number of sectors it may still reach. -/
def eraseWalk : Nat → Nat → Nat → State → Res Unit
  | 0, _, _, s => .ok () s
  | fuel + 1, cur, stop, s =>
    if cur < stop then
      ((eraseSector (BitVec.ofNat 32 cur) s).relabel (atStep .erase (BitVec.ofNat 32 cur))).bind fun _ s =>
      eraseWalk fuel (cur + sectorSize s.cfg.toRawParams cur) stop s
    else .ok () s

/-- The first sector boundary at or below `addr` (R240). -/
def firstSector (p : RawParams) (addr : Nat) : Nat := addr - addr % sectorSize p addr

/-- A bound on the sectors a range touches (R240: at most `ceil(len / REF_SECTOR_SIZE) + 1`). -/
def sectorBound (p : RawParams) (len : Nat) : Nat := (len + p.refSectorSize - 1) / p.refSectorSize + 1

/-- The VerifyMismatchError of a range at `addr` (R241, R242). -/
def verifyMismatchError (addr : Word) : ErrorRecord := ⟨.verifyMismatchError, .verify, addr, 0⟩

/-- One chunk of a program walk (R241): program it, verify it. -/
def programChunk (addr : Word) (c : List Byte) (s : State) : Res Unit :=
  ((programPage addr c s).relabel (atStep .program addr)).bind fun _ s =>
  ((verify addr c s).relabel (atStep .verify addr)).bind fun same s =>
  if same then .ok () s else .raise (verifyMismatchError addr) s

/-- The program walk (R241) over the bytes left; the fuel is the number of chunks it may still reach. -/
def programWalk : Nat → Word → List Byte → State → Res Unit
  | 0, _, _, s => .ok () s
  | fuel + 1, addr, data, s =>
    if data = [] then .ok () s
    else
      (programChunk addr (data.take refPageSize) s).bind fun _ s =>
      programWalk fuel (addr + BitVec.ofNat 32 refPageSize) (data.drop refPageSize) s

/-- The number of chunks of `len` bytes (R241). -/
def chunkCount (len : Nat) : Nat := (len + refPageSize - 1) / refPageSize

/-! ### Commands. -/

/-- FLASH_DETECT (R230): the bound device's name against the driver pattern; it relocks. -/
def execFlashDetect (s : State) : Outcome :=
  command true (fun s => if s.device = none then some .notBound else none)
    (fun s =>
      if (s.device.map fun d => nameMatch d.name s.cfg.refNamePattern) = some true then
        .ok (.driver .ref) { s with flashUnlocked := false, driver := some .ref }
      else .raise (unsupportedDeviceError 0) { s with flashUnlocked := false, driver := none }) s

/-- FLASH_INIT (R232): the two keys; locked until both are written. -/
def execFlashInit (s : State) : Outcome :=
  command true (flashCheck false)
    (fun s =>
      (memWrite s.cfg.flashKeyr s.cfg.flashKey1 { s with flashUnlocked := false }).bind fun _ s =>
      (memWrite s.cfg.flashKeyr s.cfg.flashKey2 s).bind fun _ s =>
      .ok .empty { s with flashUnlocked := true }) s

/-- FLASH_STATUS (R233). -/
def execFlashStatus (s : State) : Outcome :=
  command true (flashCheck false)
    (fun s => (memRead s.cfg.flashSr s).bind fun sr s => .ok (.status (decodeStatus sr)) s) s

/-- FLASH_ERASE (R240). -/
def execFlashErase (addr len : Word) (s : State) : Outcome :=
  command true (flashRangeCheck true addr len.toNat)
    (fun s =>
      if len = 0 then .ok .empty s
      else
        (eraseWalk (sectorBound s.cfg.toRawParams len.toNat) (firstSector s.cfg.toRawParams addr.toNat)
          (addr.toNat + len.toNat) s).bind fun _ s => .ok .empty s) s

/-- FLASH_PROGRAM (R241). -/
def execFlashProgram (addr : Word) (data : List Byte) (s : State) : Outcome :=
  command true (flashRangeCheck true addr data.length)
    (fun s =>
      if misalignedRange addr data.length then .raise (alignmentError .program addr) s
      else (programWalk (chunkCount data.length) addr data s).bind fun _ s => .ok .empty s) s

/-- FLASH_VERIFY (R242): the unlock is not needed. -/
def execFlashVerify (addr : Word) (data : List Byte) (s : State) : Outcome :=
  command true (flashRangeCheck false addr data.length)
    (fun s =>
      if misalignedRange addr data.length then .raise (alignmentError .verify addr) s
      else
        ((verify addr data s).relabel (atStep .verify addr)).bind fun same s =>
        if same then .ok .empty s else .raise (verifyMismatchError addr) s) s

end Sys2Proof.Machine
end

