-- ==== Sys2Proof/Machine/Session.lean ====
section
/-! DEFINITION. The session commands SESSION_OPEN and SESSION_CLOSE (40_tap.md R142, R143). -/

namespace Sys2Proof.Machine

/-- The session state SESSION_OPEN writes (R142, 10_state.md R64). -/
def State.openSession (s : State) : State :=
  { s with
    isOpen := true, tap := .unknown, ir := none, selValid := false, selAp := 0, selBank := 0
    device := none, driver := none, flashUnlocked := false, pinTck := none, pinTms := none, pinTdi := none }

/-- The end of SESSION_OPEN: after a TransportError nothing changes but the result (60_exceptions.md R306). -/
def completeOpen : Res Unit → State
  | .ok _ s => { s.openSession with result := some (.ok .empty), busy := false }
  | .raise e s => { s with result := some (.error e), busy := false }

/-- SESSION_OPEN (R142). -/
def execSessionOpen (s : State) : Outcome :=
  match orElse (gateRefusal false s) (if s.isOpen then some .alreadyOpen else none) with
  | some r => .refused r
  | none => .next (completeOpen (openLink { s with busy := true }))

/-- SESSION_CLOSE (R143). -/
def execSessionClose (s : State) : Outcome :=
  command true noCheck (fun s => .ok .empty { closeLink s with isOpen := false }) s

end Sys2Proof.Machine
end

