-- ==== Sys2Proof/Machine/Tap.lean ====
section
/-! DEFINITION. The TAP commands TAP_RESET, SHIFT_IR, SHIFT_DR and READ_IDCODE (40_tap.md R147 to R152). -/

namespace Sys2Proof.Machine

/-- TAP_RESET (R147). -/
def execTapReset (s : State) : Outcome :=
  command true noCheck
    (fun s => (resetCycles s).bind fun _ s => .ok .empty { s with ir := none, selValid := false }) s

/-- The checks of a shift of `len` bits (R149, R151). -/
def shiftCheck (len : Nat) (s : State) : Option Refusal :=
  orElse (if len = 0 then some .zeroLen else none) (tapCheck s)

/-- SHIFT_IR (R149). -/
def execShiftIr (bits : Bits) (s : State) : Outcome :=
  command true (shiftCheck bits.length) (fun s => (scanIr bits s).bind fun _ s => .ok .empty s) s

/-- SHIFT_DR (R151). -/
def execShiftDr (src : DrSource) (s : State) : Outcome :=
  command true (shiftCheck (shiftLen src)) (fun s => (scanDr (shiftTdi src) s).bind fun out s => .ok (.bits out) s) s

/-- The NoDeviceError of READ_IDCODE (R152). -/
def noDeviceError (v : Word) : ErrorRecord := ⟨.noDeviceError, .none, v, 0⟩

/-- READ_IDCODE (R152): BYPASS, then 32 bits with TDI low; the first sampled bit is bit 0 (30_encoding.md R122). -/
def execReadIdcode (s : State) : Outcome :=
  command true tapCheck
    (fun s =>
      (scanIr (irBits irBypassCode) s).bind fun _ s =>
      (scanDr (zeros idcodeLen) s).bind fun out s =>
      if sentinel (BitVec.ofNat 32 (value out)) then .raise (noDeviceError (BitVec.ofNat 32 (value out))) s
      else .ok (.word (BitVec.ofNat 32 (value out))) s) s

end Sys2Proof.Machine
end

