-- ==== Sys2Proof/Machine/Wire.lean ====
section
/-! DEFINITION. The wire rows of spec/opcode_table.json: the internal steps the commands are made of (30_encoding.md R103, R110 to R115), each run on its own (log entries 7 and 8). -/

namespace Sys2Proof.Machine

/-- An 8-bit IR scan of a code the block uses (R111; 40_tap.md R148). -/
def irStep (code : Byte) (s : State) : Outcome :=
  internalStep tapCheck (fun s => (scanIr (irBits code) s).bind fun _ s => .ok .empty s) s

/-- IR_BYPASS (R111). -/
def execIrBypass (s : State) : Outcome := irStep irBypassCode s

/-- IR_DPACC (R111). -/
def execIrDpacc (s : State) : Outcome := irStep s.cfg.irDpacc s

/-- IR_APACC (R111). -/
def execIrApacc (s : State) : Outcome := irStep s.cfg.irApacc s

/-- A register write: its captured data is discarded (41_dap.md R182). -/
def writeStep (access : State → Res Word) (s : State) : Outcome :=
  internalStep tapCheck (fun s => (access s).bind fun _ s => .ok .empty s) s

/-- A register read: its captured data is the step's value (41_dap.md R182). -/
def readStep (access : State → Res Word) (s : State) : Outcome :=
  internalStep tapCheck (fun s => (access s).bind fun w s => .ok (.word w) s) s

/-- DP_SELECT_WRITE (R116; 41_dap.md R186): the select word's AP and bank, through the one operation that writes the shadow. -/
def execDpSelectWrite (data : Word) (s : State) : Outcome :=
  internalStep tapCheck (fun s => (selectBody (data.extractLsb' 24 8) data s).bind fun _ s => .ok .empty s) s

/-- DP_RDBUFF_READ (R115; 41_dap.md R192). -/
def execDpRdbuffRead (s : State) : Outcome := readStep (dpRead regRdbuff) s

/-- AP_CSW_WRITE (R115; 41_dap.md R192). DESIGN CHOICE, log entry 8: run alone, it shifts any data bits [31:6], where the block's own CSW writes carry `csw_base` (R117). -/
def execApCswWrite (data : Word) (s : State) : Outcome := writeStep (apWrite regCsw data) s

/-- AP_TAR_WRITE (R115; 41_dap.md R192). -/
def execApTarWrite (addr : Word) (s : State) : Outcome := writeStep (apWrite regTar addr) s

/-- AP_DRW_WRITE (R115; 41_dap.md R193). -/
def execApDrwWrite (data : Word) (s : State) : Outcome := writeStep (apWrite regDrw data) s

/-- AP_DRW_READ (R115; 41_dap.md R192). -/
def execApDrwRead (s : State) : Outcome := readStep (apRead regDrw) s

/-- A sequence of TCK cycles that samples nothing (R110). DESIGN CHOICE, log entry 8: run alone, the rows of an IR scan leave `S.ir` as it is, also the one that reaches Update-IR. -/
def cycleStep (ys : List Symbol) (s : State) : Outcome :=
  internalStep noCheck (fun s => (runCycles (cyclesOf false ys) s).bind fun _ s => .ok .empty s) s

/-- TMS_TAP_RESET (R110; 40_tap.md R147). -/
def execTmsTapReset (s : State) : Outcome :=
  internalStep noCheck (fun s => (resetCycles s).bind fun _ s => .ok .empty s) s

/-- TMS_IR_ENTRY (R110; 40_tap.md R148). -/
def execTmsIrEntry (s : State) : Outcome := cycleStep (lowSymbols tmsIrEntry) s

/-- TMS_DR_ENTRY (R110; 40_tap.md R150). -/
def execTmsDrEntry (s : State) : Outcome := cycleStep (lowSymbols tmsDrEntry) s

/-- TMS_SHIFT_BODY (R110): TDO is sampled in Shift-DR, not in Shift-IR (40_tap.md R148, R150). DESIGN CHOICE, log entry 8: run alone, it leaves `S.ir` as it is, also in Shift-IR. -/
def execTmsShiftBody (tdi : Bits) (s : State) : Outcome :=
  internalStep noCheck
    (fun s => (runCycles (cyclesOf (s.tap == .shDr) (bodySymbols tdi)) s).bind fun out s => .ok (.bits out) s) s

/-- TMS_SCAN_EXIT (R110; 40_tap.md R148, R150). -/
def execTmsScanExit (s : State) : Outcome := cycleStep (lowSymbols tmsScanExit) s

end Sys2Proof.Machine
end

