-- ==== Sys2Proof/Machine/Dispatch.lean ====
section
/-! DEFINITION. The dispatch: one arm per instruction, one direct call of its meaning. -/

namespace Sys2Proof.Machine

def exec (i : Instr) (s : State) : Host.Outcome State Fault Refusal :=
  match i with
  | .sessionOpen => Sys2Proof.Machine.execSessionOpen s
  | .sessionClose => Sys2Proof.Machine.execSessionClose s
  | .tapReset => Sys2Proof.Machine.execTapReset s
  | .shiftIr bits => Sys2Proof.Machine.execShiftIr bits s
  | .shiftDr src => Sys2Proof.Machine.execShiftDr src s
  | .readIdcode => Sys2Proof.Machine.execReadIdcode s
  | .selectAp ap reg => Sys2Proof.Machine.execSelectAp ap reg s
  | .apTransfer write addr data => Sys2Proof.Machine.execApTransfer write addr data s
  | .readMemory addr len => Sys2Proof.Machine.execReadMemory addr len s
  | .writeMemory addr data => Sys2Proof.Machine.execWriteMemory addr data s
  | .coreHalt => Sys2Proof.Machine.execCoreHalt s
  | .coreResume => Sys2Proof.Machine.execCoreResume s
  | .coreReset => Sys2Proof.Machine.execCoreReset s
  | .deviceBind idcode => Sys2Proof.Machine.execDeviceBind idcode s
  | .flashDetect => Sys2Proof.Machine.execFlashDetect s
  | .flashInit => Sys2Proof.Machine.execFlashInit s
  | .flashStatus => Sys2Proof.Machine.execFlashStatus s
  | .flashErase addr len => Sys2Proof.Machine.execFlashErase addr len s
  | .flashProgram addr data => Sys2Proof.Machine.execFlashProgram addr data s
  | .flashVerify addr data => Sys2Proof.Machine.execFlashVerify addr data s
  | .catalogFind idcode => Sys2Proof.Machine.execCatalogFind idcode s
  | .catalogAdd partId flashSize ramSize fpu dsp name vendor regions => Sys2Proof.Machine.execCatalogAdd partId flashSize ramSize fpu dsp name vendor regions s
  | .irBypass => Sys2Proof.Machine.execIrBypass s
  | .irDpacc => Sys2Proof.Machine.execIrDpacc s
  | .irApacc => Sys2Proof.Machine.execIrApacc s
  | .dpSelectWrite data => Sys2Proof.Machine.execDpSelectWrite data s
  | .dpRdbuffRead => Sys2Proof.Machine.execDpRdbuffRead s
  | .apCswWrite data => Sys2Proof.Machine.execApCswWrite data s
  | .apTarWrite addr => Sys2Proof.Machine.execApTarWrite addr s
  | .apDrwWrite data => Sys2Proof.Machine.execApDrwWrite data s
  | .apDrwRead => Sys2Proof.Machine.execApDrwRead s
  | .tmsTapReset => Sys2Proof.Machine.execTmsTapReset s
  | .tmsIrEntry => Sys2Proof.Machine.execTmsIrEntry s
  | .tmsDrEntry => Sys2Proof.Machine.execTmsDrEntry s
  | .tmsShiftBody tdi => Sys2Proof.Machine.execTmsShiftBody tdi s
  | .tmsScanExit => Sys2Proof.Machine.execTmsScanExit s

end Sys2Proof.Machine
end

