-- ==== Sys2Proof/Machine/Fetch.lean ====
section
/-! DEFINITION. The command port (00_scope.md R26): the next command word the host has written, and the decoding of it (30_encoding.md R104). -/

namespace Sys2Proof.Machine

/-- What the command port holds: no word, a word that is no command, or a command with the state in which it is performed (its word taken from the port). -/
inductive Fetched where
  | idle
  | reject (why : DecodeReject)
  | run (i : Instr) (s : State)

/-- The next command of the port, in the order the host wrote them (20_memory.md R83). -/
def State.fetch (s : State) : Fetched :=
  match s.cmds with
  | [] => .idle
  | w :: rest =>
    match decodeCommand w with
    | .ok i => .run i { s with cmds := rest }
    | .error r => .reject r

/-- The host writes `w` as the next command. -/
def State.hostWrites (s : State) (w : List Byte) : State := { s with cmds := w :: s.cmds }

end Sys2Proof.Machine
end

