-- ==== Sys2Proof/Machine/Step.lean ====
section
/-! DEFINITION. One step of the machine: the next host command, performed to its end or its first error (00_scope.md R26; 10_state.md R31). -/

namespace Sys2Proof.Machine

/-- One step: with no command in the port the block waits (70_reset_and_hazards.md R340); a word that is no command is refused DECODE (30_encoding.md R104). -/
def step (s : State) : Host.Outcome State Fault Refusal :=
  match s.fetch with
  | .idle => .next s
  | .reject why => .refused (.decode why)
  | .run i t => exec i t

/-- The host writes the word whose bits are `w` as the next command (log entry 2). -/
def State.withFetchWord (s : State) (nbits w : Nat) : State := s.hostWrites (tableWord nbits w)

end Sys2Proof.Machine
end

