-- ==== Sys2Proof/Machine/Assembly.lean ====
section
/-! DEFINITION. The assembly syntax of command programs (30_encoding.md R130), as lines already split into a mnemonic and operands (log entry 13). -/

namespace Sys2Proof.Machine

/-- An operand of R130. -/
inductive AsmOperand where
  /-- A number, decimal or hexadecimal. -/
  | num (n : Nat)
  /-- A byte string `[b0, b1, ...]`. -/
  | bytes (bs : List Byte)
  /-- The letter R of AP_TRANSFER. -/
  | read
  /-- The letter W of AP_TRANSFER. -/
  | write
  /-- The descriptor of CATALOG_ADD. -/
  | descriptor (partId flashSize ramSize : Word) (fpu dsp : Bool) (name vendor : List Byte) (regions : List FlashRegion)
  deriving DecidableEq, Repr

/-- One line of a command program. -/
structure AsmLine where
  mnemonic : String
  operands : List AsmOperand
  deriving DecidableEq, Repr

/-- The line of a command; an internal step has none (R103). -/
def assemblyOf : Instr → Option AsmLine
  | .sessionOpen => some ⟨"SESSION_OPEN", []⟩
  | .sessionClose => some ⟨"SESSION_CLOSE", []⟩
  | .tapReset => some ⟨"TAP_RESET", []⟩
  | .shiftIr bits => some ⟨"SHIFT_IR", [.num bits.length, .num (value bits)]⟩
  | .shiftDr (.low len) => some ⟨"SHIFT_DR", [.num len]⟩
  | .shiftDr (.bits bv) => some ⟨"SHIFT_DR", [.num bv.length, .num (value bv)]⟩
  | .readIdcode => some ⟨"READ_IDCODE", []⟩
  | .selectAp ap reg => some ⟨"SELECT_AP", [.num ap.toNat, .num reg.toNat]⟩
  | .apTransfer false addr _ => some ⟨"AP_TRANSFER", [.read, .num addr.toNat]⟩
  | .apTransfer true addr data => some ⟨"AP_TRANSFER", [.write, .num addr.toNat, .num data.toNat]⟩
  | .readMemory addr len => some ⟨"READ_MEMORY", [.num addr.toNat, .num len.toNat]⟩
  | .writeMemory addr data => some ⟨"WRITE_MEMORY", [.num addr.toNat, .bytes data]⟩
  | .coreHalt => some ⟨"CORE_HALT", []⟩
  | .coreResume => some ⟨"CORE_RESUME", []⟩
  | .coreReset => some ⟨"CORE_RESET", []⟩
  | .deviceBind idcode => some ⟨"DEVICE_BIND", [.num idcode.toNat]⟩
  | .flashDetect => some ⟨"FLASH_DETECT", []⟩
  | .flashInit => some ⟨"FLASH_INIT", []⟩
  | .flashStatus => some ⟨"FLASH_STATUS", []⟩
  | .flashErase addr len => some ⟨"FLASH_ERASE", [.num addr.toNat, .num len.toNat]⟩
  | .flashProgram addr data => some ⟨"FLASH_PROGRAM", [.num addr.toNat, .bytes data]⟩
  | .flashVerify addr data => some ⟨"FLASH_VERIFY", [.num addr.toNat, .bytes data]⟩
  | .catalogFind idcode => some ⟨"CATALOG_FIND", [.num idcode.toNat]⟩
  | .catalogAdd partId flashSize ramSize fpu dsp name vendor regions =>
    some ⟨"CATALOG_ADD", [.descriptor partId flashSize ramSize fpu dsp name vendor regions]⟩
  | .irBypass | .irDpacc | .irApacc | .dpSelectWrite _ | .dpRdbuffRead | .apCswWrite _ | .apTarWrite _ | .apDrwWrite _
  | .apDrwRead | .tmsTapReset | .tmsIrEntry | .tmsDrEntry | .tmsShiftBody _ | .tmsScanExit => none

/-- A BitVector operand `len, value` means `bits_len(value)`, with `value < 2^len` (R130). -/
def asmBits (len v : Nat) : Option Bits := if v < 2 ^ len then some (bitsOf len v) else none

/-- A number that fits a field of `n` bits. -/
def asmField (n v : Nat) : Option (BitVec n) := if v < 2 ^ n then some (BitVec.ofNat n v) else none

/-- The command of a line (R130), or none for a line that is no command or whose operands fit no encoding. -/
def assemble (l : AsmLine) : Option Instr :=
  (match l.mnemonic, l.operands with
  | "SESSION_OPEN", [] => some Instr.sessionOpen
  | "SESSION_CLOSE", [] => some .sessionClose
  | "TAP_RESET", [] => some .tapReset
  | "SHIFT_IR", [.num len, .num v] => (asmBits len v).map .shiftIr
  | "SHIFT_DR", [.num len] => some (.shiftDr (.low len))
  | "SHIFT_DR", [.num len, .num v] => (asmBits len v).map fun b => .shiftDr (.bits b)
  | "READ_IDCODE", [] => some .readIdcode
  | "SELECT_AP", [.num ap, .num reg] => (asmField 8 ap).bind fun a => (asmField 32 reg).map (.selectAp a)
  | "AP_TRANSFER", [.read, .num addr] => (asmField 32 addr).map fun a => .apTransfer false a 0
  | "AP_TRANSFER", [.write, .num addr, .num data] =>
    (asmField 32 addr).bind fun a => (asmField 32 data).map (.apTransfer true a)
  | "READ_MEMORY", [.num addr, .num len] => (asmField 32 addr).bind fun a => (asmField 32 len).map (.readMemory a)
  | "WRITE_MEMORY", [.num addr, .bytes bs] => (asmField 32 addr).map fun a => .writeMemory a bs
  | "CORE_HALT", [] => some .coreHalt
  | "CORE_RESUME", [] => some .coreResume
  | "CORE_RESET", [] => some .coreReset
  | "DEVICE_BIND", [.num v] => (asmField 32 v).map .deviceBind
  | "FLASH_DETECT", [] => some .flashDetect
  | "FLASH_INIT", [] => some .flashInit
  | "FLASH_STATUS", [] => some .flashStatus
  | "FLASH_ERASE", [.num addr, .num len] => (asmField 32 addr).bind fun a => (asmField 32 len).map (.flashErase a)
  | "FLASH_PROGRAM", [.num addr, .bytes bs] => (asmField 32 addr).map fun a => .flashProgram a bs
  | "FLASH_VERIFY", [.num addr, .bytes bs] => (asmField 32 addr).map fun a => .flashVerify a bs
  | "CATALOG_FIND", [.num v] => (asmField 32 v).map .catalogFind
  | "CATALOG_ADD", [.descriptor partId flashSize ramSize fpu dsp name vendor regions] =>
    some (.catalogAdd partId flashSize ramSize fpu dsp name vendor regions)
  | _, _ => none).filter Instr.WellFormed

end Sys2Proof.Machine
end

