-- ==== Sys2Proof/Machine/Pseudo.lean ====
section
/-! DEFINITION. The pseudo-instructions (30_encoding.md R133): the tool's command-level surface as a host that issues block commands one after another and stops at the first error result. -/

namespace Sys2Proof.Machine

/-- The pseudo-instructions of R133. -/
inductive Pseudo where
  | scan
  | info
  | halt
  | resume
  | reset
  /-- `flash <file>`: the file's bytes. -/
  | flash (file : List Byte)
  | erase
  | dump (addr len : Word)
  deriving DecidableEq, Repr

/-- The command ended with an error (R133: the expansion stops there). -/
def State.failed (s : State) : Bool :=
  match s.result with
  | some (.error _) => true
  | some (.ok _) | none => false

/-- The host issues a command and goes on with `k` unless it was refused or ended with an error. -/
def issue (i : Instr) (k : State → Outcome) (s : State) : Outcome :=
  match exec i s with
  | .next t => if t.failed then .next t else k t
  | .fault f => .fault f
  | .refused r => .refused r

/-- The last command of an expansion. -/
def done (s : State) : Outcome := .next s

/-- `scan` (R133), then `k` with the id READ_IDCODE returned. -/
def identify (k : Word → State → Outcome) : State → Outcome :=
  issue .sessionOpen <| issue .tapReset <| issue .readIdcode fun s =>
    match s.result with
    | some (.ok (.word id)) => issue (.catalogFind id) (k id) s
    | _ => .next s

/-- `scan`, then DEVICE_BIND, then `k`. -/
def identifyAndBind (k : State → Outcome) : State → Outcome := identify fun id => issue (.deviceBind id) k

/-- The `base` of the bound descriptor's first region (R133, `flash`). -/
def State.firstBase (s : State) : Option Word := (s.device.bind fun d => d.regions.head?).map FlashRegion.base

/-- The end of `flash`: FLASH_ERASE of the file's length, then FLASH_PROGRAM (R133). DESIGN CHOICE, log entry 25: a file of 2^32 bytes or more, whose length fits no u32 `len`, is refused RANGE before FLASH_ERASE, never wrapped (00_scope.md R10). -/
def eraseAndProgram (base : Word) (file : List Byte) (s : State) : Outcome :=
  if file.length < 2 ^ 32 then
    issue (.flashErase base (BitVec.ofNat 32 file.length)) (issue (.flashProgram base file) done) s
  else .refused .range

/-- The expansions of R133. -/
def runPseudo : Pseudo → State → Outcome
  | .scan => identify fun _ => done
  | .info => identify fun _ => done
  | .halt => identifyAndBind (issue .coreHalt done)
  | .resume => identifyAndBind (issue .coreResume done)
  | .reset => identifyAndBind (issue .coreReset done)
  | .flash file =>
    identifyAndBind <| issue .flashDetect <| issue .flashInit fun s =>
      match s.firstBase with
      | some base => eraseAndProgram base file s
      | none => .refused .noRegion
  | .erase =>
    identifyAndBind <| issue .flashDetect <| issue .flashInit fun s =>
      issue (.flashErase s.cfg.defaultEraseRange.1 s.cfg.defaultEraseRange.2) done s
  | .dump addr len => identifyAndBind (issue (.readMemory addr len) done)

end Sys2Proof.Machine
end

