-- ==== Sys2Proof/Machine/Reset.lean ====
section
/-! DEFINITION. The configuration of the block (00_scope.md R7, R8) before its power-on state. -/

namespace Sys2Proof.Machine

/-- Power-on with the given parameters: a configuration that violates a constraint of R8 is refused. -/
def configure (p : RawParams) : Outcome :=
  if h : p.valid = true then .next (State.powerOn { p with ok := h }) else .refused .config

end Sys2Proof.Machine
end

