-- ==== Sys2Proof/Machine/Result.lean ====
section
/-! DEFINITION. The result word the host reads (30_encoding.md R105; 60_exceptions.md R300, R301). -/

namespace Sys2Proof.Machine

/-- The result codes 1 to 8 (R300). -/
def errorByte : ErrorCode → Byte
  | .transportError => 1#8
  | .protocolError => 2#8
  | .noDeviceError => 3#8
  | .unsupportedDeviceError => 4#8
  | .alignmentError => 5#8
  | .flashTimeoutError => 6#8
  | .verifyMismatchError => 7#8
  | .flashStatusError => 8#8

/-- The step codes (R301). -/
def stepByte : StepKind → Byte
  | .none => 0#8
  | .erase => 1#8
  | .program => 2#8
  | .verify => 3#8

/-- The driver ids (R105). -/
def driverByte : Driver → Byte
  | .ref => 1#8

/-- The u32 index field of CATALOG_FIND (R105). DESIGN CHOICE, log entry 26: the catalog is unbounded, and an index that no u32 holds answers a free value. -/
def indexField (i : Nat) : Word := if i < 2 ^ 32 then BitVec.ofNat 32 i else Config.wideIndex i

/-- The payload bytes of an OK result (R105). A length that no length field holds comes only from an instruction no encoding holds (log entry 17). -/
def payloadBytes : Payload → List Byte
  | .empty => []
  | .bits bv => bytesLe16 (BitVec.ofNat 16 bv.length) ++ pack bv
  | .word w => bytesLe32 w
  | .bytes bs => bytesLe32 (BitVec.ofNat 32 bs.length) ++ bs
  | .driver d => [driverByte d]
  | .status st => [statusByte st]
  | .found none => [0#8]
  | .found (some i) => 1#8 :: bytesLe32 (indexField i)

/-- The result word: the code, then the payload or the error record (R105, R301). -/
def resultWord : CommandResult → List Byte
  | .ok p => 0#8 :: payloadBytes p
  | .error e => errorByte e.code :: stepByte e.step :: (bytesLe32 e.addr ++ [e.detail])

end Sys2Proof.Machine
end

