-- ==== Sys2Proof/Safety.lean ====
section
/-! DEFINITION. The terms claims use: which pin operations the block may issue (00_scope.md R25), what a target sees on the pins (40_tap.md R144, R146), the scans it receives (30_encoding.md R110 to R112), and the invariants of the block's state (40_tap.md R154, 10_state.md R32, R35). -/

namespace Sys2Proof.Machine

/-! ### The pins. -/

/-- "The block drives TCK, TMS and TDI, reads TDO, and never drives TRST or SRST" (R25). -/
def PinOp.allowed : PinOp → Bool
  | .setPin .tck _ | .setPin .tms _ | .setPin .tdi _ | .getPin .tdo | .openLink | .closeLink | .delay _ => true
  | .setPin .tdo _ | .setPin .trst _ | .setPin .srst _ => false
  | .getPin .tck | .getPin .tms | .getPin .tdi | .getPin .trst | .getPin .srst => false

/-- Every operation issued so far is one the block may issue. -/
def State.pinsDisciplined (s : State) : Bool := s.trace.all fun e => e.op.allowed

/-- The level a pin holds after the operations of a trace (newest first): the last one driven successfully. -/
def lastLevel (p : Pin) : List PinEvent → Option Bool
  | [] => none
  | ⟨.setPin q level, .done⟩ :: rest => if q = p then some level else lastLevel p rest
  | _ :: rest => lastLevel p rest

/-- The symbol at a rising edge of TCK that follows the operations `rest`: nothing when TCK was not low. -/
def risingEdge (rest : List PinEvent) : List Symbol :=
  if lastLevel .tck rest = some false then
    [⟨(lastLevel .tms rest).getD false, (lastLevel .tdi rest).getD false⟩]
  else []

/-- What the target sees of a trace: TMS and TDI at each rising edge of TCK, oldest first (R146). -/
def symbols : List PinEvent → List Symbol
  | [] => []
  | ⟨.setPin .tck true, .done⟩ :: rest => symbols rest ++ risingEdge rest
  | _ :: rest => symbols rest

/-- The TAP position of a target that was at `q` and saw the symbols (R144). -/
def tapAfter (q : TapState) (ys : List Symbol) : TapState := ys.foldl (fun q y => q.next y.tms) q

/-- A scan as the target receives it: the bits shifted into IR or DR, first bit first. -/
inductive Scan where
  | ir (bits : Bits)
  | dr (bits : Bits)
  deriving DecidableEq, Repr

/-- A target TAP as an observer of the pins: its position and the bits shifted in since the last Capture. -/
structure Observer where
  tap : TapState
  shifted : Bits
  deriving DecidableEq, Repr

/-- One rising edge: a bit is shifted in a Shift state, a Capture state starts a new scan. -/
def Observer.clock (o : Observer) (y : Symbol) : Observer where
  tap := o.tap.next y.tms
  shifted :=
    match o.tap with
    | .shDr | .shIr => o.shifted ++ [y.tdi]
    | .capDr | .capIr => []
    | .tlr | .rti | .selDr | .ex1Dr | .paDr | .ex2Dr | .upDr | .selIr | .ex1Ir | .paIr | .ex2Ir | .upIr | .unknown => o.shifted

/-- The scan that takes effect when the observer has come to an Update state. -/
def Observer.update (o : Observer) : List Scan :=
  match o.tap with
  | .upIr => [.ir o.shifted]
  | .upDr => [.dr o.shifted]
  | .tlr | .rti | .selDr | .capDr | .shDr | .ex1Dr | .paDr | .ex2Dr | .selIr | .capIr | .shIr | .ex1Ir | .paIr | .ex2Ir
  | .unknown => []

/-- The scans an observer receives from a sequence of symbols. -/
def Observer.scans : Observer → List Symbol → List Scan
  | _, [] => []
  | o, y :: ys => (o.clock y).update ++ Observer.scans (o.clock y) ys

/-- The scans a target in Run-Test/Idle receives. -/
def scansOf (ys : List Symbol) : List Scan := Observer.scans ⟨.rti, []⟩ ys

/-- Between `s` and `t` the target saw exactly the symbols `ys`. -/
def Sent (s t : State) (ys : List Symbol) : Prop := symbols t.trace = symbols s.trace ++ ys

/-- Between `s` and `t` a target in Run-Test/Idle received exactly the scans `xs`. -/
def SentScans (s t : State) (xs : List Scan) : Prop := ∃ ys, Sent s t ys ∧ scansOf ys = xs

/-! ### The scans of the accesses (41_dap.md R185 to R194). -/

/-- One access acknowledged at once: the IR scan and one frame (R185). -/
def accessScans (code : Byte) (a : BitVec 2) (rnw : Bool) (wdata : Word) : List Scan :=
  [.ir (irBits code), .dr (frameBits a rnw wdata)]

/-- The selection a memory access makes first, if any (R190). -/
def selectScans (s : State) : List Scan :=
  if s.bank0 then [] else accessScans s.cfg.irDpacc regSelect false (selWord s.accessAp 0)

/-- MemRead's scans after the selection (R192). -/
def readScans (p : RawParams) (addr : Word) : List Scan :=
  accessScans p.irApacc regCsw false (cswWord p.cswBase .word) ++ accessScans p.irApacc regTar false addr
    ++ accessScans p.irApacc regDrw true 0 ++ accessScans p.irDpacc regRdbuff true 0

/-- MemWrite's scans after the selection (R193, R194). -/
def writeScans (p : RawParams) (size : AccessSize) (addr data : Word) : List Scan :=
  accessScans p.irApacc regCsw false (cswWord p.cswBase size) ++ accessScans p.irApacc regTar false addr
    ++ accessScans p.irApacc regDrw false data ++ accessScans p.irDpacc regRdbuff true 0

/-- EraseSector's scans with the first status read of each wait ready (42_flash.md R235). -/
def eraseSectorScans (p : RawParams) (a : Word) : List Scan :=
  readScans p p.flashSr ++ writeScans p .word p.flashAr a ++ writeScans p .word p.flashCr p.crPer
    ++ writeScans p .word p.flashCr (p.crPer ||| p.crStrt) ++ readScans p p.flashSr ++ writeScans p .word p.flashCr 0

/-- The half-word writes of a page, each with one status read (42_flash.md R236). -/
def halfScans (p : RawParams) : Word → List Byte → List Scan
  | addr, b0 :: b1 :: rest =>
    writeScans p .half addr (lane16 addr (le16 b0 b1)) ++ readScans p p.flashSr ++ halfScans p (addr + 2) rest
  | _, _ => []

/-- ProgramPage's scans with the first status read of each wait ready (42_flash.md R236). -/
def programPageScans (p : RawParams) (a : Word) (d : List Byte) : List Scan :=
  readScans p p.flashSr ++ writeScans p .word p.flashCr p.crPg ++ halfScans p a d ++ writeScans p .word p.flashCr 0

/-- The scans of reading `n` words from `addr` up (41_dap.md R196). -/
def readWordsScans (p : RawParams) (addr : Word) (n : Nat) : List Scan :=
  (List.range n).flatMap fun i => readScans p (addr + BitVec.ofNat 32 (4 * i))

/-- The scans of writing the words of `data` from `addr` up (41_dap.md R197). -/
def writeWordsScans (p : RawParams) : Word → List Byte → List Scan
  | addr, b0 :: b1 :: b2 :: b3 :: rest =>
    writeScans p .word addr (le32 b0 b1 b2 b3) ++ writeWordsScans p (addr + 4) rest
  | _, _ => []

/-- A chunk's scans: the page program, then the verify (42_flash.md R241). -/
def chunkScans (p : RawParams) (a : Word) (c : List Byte) : List Scan :=
  programPageScans p a c ++ readWordsScans p a (c.length / 4)

/-- Chunk `k` of `data` (42_flash.md R241). -/
def chunkOf (data : List Byte) (k : Nat) : List Byte := (data.drop (refPageSize * k)).take refPageSize

/-- The address of chunk `k` (42_flash.md R241). -/
def chunkAddr (addr : Word) (k : Nat) : Word := addr + BitVec.ofNat 32 (refPageSize * k)

/-- The sectors FLASH_ERASE erases, in order: from the boundary at or below `addr`, one sector after another below `addr + len` (42_flash.md R240). -/
def sectorStarts (p : RawParams) (addr len : Nat) : List Nat :=
  (List.range ((addr + len - firstSector p addr + p.refSectorSize - 1) / p.refSectorSize)).map fun i =>
    firstSector p addr + p.refSectorSize * i

/-! ### The environment's answers. -/

/-- The next `n` levels TDO answers. -/
def State.tdoBits (s : State) (n : Nat) : Bits := (List.range n).map s.tdoBit

/-- The `j`-th 35-bit frame the environment answers from now, when only frames are sampled. -/
def State.frameAt (s : State) (j : Nat) : BitVec 35 :=
  captured ((List.range accLen).map fun k => s.tdoBit (accLen * j + k))

/-- The next `n` frames are acknowledged OK (30_encoding.md R114). -/
def State.acksOk (s : State) (n : Nat) : Bool := (List.range n).all fun j => ackOf (s.frameAt j) == 0b010#3

/-- How many accesses the selection of the next memory access takes (41_dap.md R190). -/
def State.selectCount (s : State) : Nat := if s.bank0 then 0 else 1

/-- The `j`-th frame carries a flash status word that is neither busy nor in error (42_flash.md R234). -/
def State.readyAt (s : State) (j : Nat) : Bool :=
  !srBusy (rdataOf (s.frameAt j)) && !srError (rdataOf (s.frameAt j))

/-- The bytes of `n` words read by MemReads whose first frame is the `j`-th: each word is in its access's last frame (41_dap.md R192). -/
def State.readBack (s : State) (j n : Nat) : List Byte :=
  (List.range n).flatMap fun i => bytesLe32 (rdataOf (s.frameAt (j + 4 * i + 3)))

/-- The frames of a page program of `n` bytes and its verify: 3 + n/2 + n/2 accesses and n/4 reads of four frames (42_flash.md R246). -/
def chunkFrames (n : Nat) : Nat := 12 + 5 * n

/-- From the `j`-th frame on, the environment answers a page program of `n` bytes: acknowledged, and ready at every wait. -/
def State.pageAnswered (s : State) (j n : Nat) : Prop :=
  (∀ k < chunkFrames n, ackOf (s.frameAt (j + k)) = 0b010#3) ∧ s.readyAt (j + 3) = true
    ∧ ∀ h < n / 2, s.readyAt (j + 15 + 8 * h) = true

/-- What the verify of a chunk of `n` bytes reads back, when its page program starts at the `j`-th frame. -/
def State.chunkReadBack (s : State) (j n : Nat) : List Byte := s.readBack (j + 12 + 4 * n) (n / 4)

/-! ### What a command may leave alone. -/

/-- The session, the binding, the driver, the lock, the catalog and the command port are the same (10_state.md R32). -/
structure SameBinding (s t : State) : Prop where
  cfg : t.cfg = s.cfg
  isOpen : t.isOpen = s.isOpen
  busy : t.busy = s.busy
  device : t.device = s.device
  driver : t.driver = s.driver
  flashUnlocked : t.flashUnlocked = s.flashUnlocked
  catalog : t.catalog = s.catalog
  cmds : t.cmds = s.cmds

/-- The SELECT shadow is the same (10_state.md R35). -/
structure SameShadow (s t : State) : Prop where
  selValid : t.selValid = s.selValid
  selAp : t.selAp = s.selAp
  selBank : t.selBank = s.selBank

/-- No pin operation was issued: the TAP mirror, the IR, the pins, the environment's answers to come and the trace are the same. -/
structure SameWire (s t : State) : Prop where
  tap : t.tap = s.tap
  ir : t.ir = s.ir
  pinTck : t.pinTck = s.pinTck
  pinTms : t.pinTms = s.pinTms
  pinTdi : t.pinTdi = s.pinTdi
  link : t.link = s.link
  tdo : t.tdo = s.tdo
  ops : t.ops = s.ops
  samples : t.samples = s.samples
  trace : t.trace = s.trace

/-! ### Commands that can run. -/

/-- A command that needs a session, in an environment that performs its pin operations. -/
structure SessionReady (s : State) : Prop where
  busy : s.busy = false
  isOpen : s.isOpen = true
  link : s.link = .working

/-- A command that scans (40_tap.md R145). -/
structure ScanReady (s : State) : Prop extends SessionReady s where
  tap : s.tap = .rti

/-- A DAP command (41_dap.md R181). -/
structure DapReady (s : State) : Prop extends ScanReady s where
  device : s.device.isSome = true

/-- A flash command (42_flash.md R231). -/
structure FlashReady (s : State) : Prop extends DapReady s where
  driver : s.driver = some .ref

/-- What a command leaves that reached the target through memory accesses: the scans, bank 0 of the access's AP selected, IR holding DPACC, and the rest of the block's state as it was (41_dap.md R186, R190 to R194). -/
structure AccessDone (s t : State) (xs : List Scan) : Prop where
  scans : SentScans s t (selectScans s ++ xs)
  tap : t.tap = .rti
  ir : t.ir = some (irBits s.cfg.irDpacc)
  selValid : t.selValid = true
  selAp : t.selAp = s.accessAp
  selBank : t.selBank = 0
  binding : SameBinding s t

/-! ### The invariant between commands. -/

/-- Between commands the mirror is in Run-Test/Idle or UNKNOWN (40_tap.md R154). -/
def State.tapAtRest (s : State) : Prop := s.tap = .rti ∨ s.tap = .unknown

/-- The mirror is right: whatever position the target started in, the operations issued took it to the mirror's position. -/
def State.mirrorRight (s : State) : Prop :=
  s.tap ≠ .unknown → ∀ q, q ≠ .unknown → tapAfter q (symbols s.trace) = s.tap

/-- The SELECT shadow names a bank by bits [7:4] only (10_state.md R32), and is valid only in a known position with a bound device (R35, 41_dap.md R181). -/
def State.shadowSound (s : State) : Prop :=
  s.selBank &&& 0x0F#8 = 0 ∧ (s.selValid = true → s.tap = .rti ∧ s.device.isSome = true)

/-- A driver is bound only to a device whose name matches, and the flash is unlocked only under a driver (42_flash.md R230, R231). -/
def State.driverSound (s : State) : Prop :=
  (s.driver = some .ref → ∃ d, s.device = some d ∧ nameMatch d.name s.cfg.refNamePattern = true)
    ∧ (s.flashUnlocked = true → s.driver = some .ref)

/-- The invariant of the machine between commands. -/
def State.Inv (s : State) : Prop :=
  s.busy = false ∧ s.tapAtRest ∧ s.shadowSound ∧ s.driverSound ∧ s.pinsDisciplined = true
    ∧ (s.ir.isSome = true → s.tap = .rti)

end Sys2Proof.Machine
end

