-- ==== Sys2Proof/Certificates/Slice0/Obligations.lean ====
section
/-! DEFINITION. The statements for the provers, from the numbered rules of spec/. -/

namespace Sys2Proof.Machine

/-- The operands of the six DP/AP frame rows as one access: IR code, A[3:2], RnW and data (30_encoding.md R112, R115); DP_SELECT_WRITE carries its select word (R116). -/
def frameAccess (p : RawParams) : Instr → Option (Byte × BitVec 2 × Bool × Word)
  | .dpSelectWrite data => some (p.irDpacc, 0b10#2, false, selWord (data.extractLsb' 24 8) data)
  | .dpRdbuffRead => some (p.irDpacc, 0b11#2, true, 0)
  | .apCswWrite data => some (p.irApacc, 0b00#2, false, data)
  | .apTarWrite addr => some (p.irApacc, 0b01#2, false, addr)
  | .apDrwWrite data => some (p.irApacc, 0b11#2, false, data)
  | .apDrwRead => some (p.irApacc, 0b11#2, true, 0)
  | .sessionOpen | .sessionClose | .tapReset | .shiftIr _ | .shiftDr _ | .readIdcode | .selectAp _ _ | .apTransfer _ _ _
  | .readMemory _ _ | .writeMemory _ _ | .coreHalt | .coreResume | .coreReset | .deviceBind _ | .flashDetect | .flashInit
  | .flashStatus | .flashErase _ _ | .flashProgram _ _ | .flashVerify _ _ | .catalogFind _
  | .catalogAdd _ _ _ _ _ _ _ _ | .irBypass | .irDpacc | .irApacc | .tmsTapReset | .tmsIrEntry | .tmsDrEntry
  | .tmsShiftBody _ | .tmsScanExit => none

/-- The codes of the IR rows (30_encoding.md R111). -/
def irCode (p : RawParams) : Instr → Option Byte
  | .irBypass => some 0xFF#8
  | .irDpacc => some p.irDpacc
  | .irApacc => some p.irApacc
  | _ => none

/-- The symbols of the TMS rows (30_encoding.md R110). -/
def tmsRow : Instr → Option (List Symbol)
  | .tmsIrEntry => some (lowSymbols [true, true, false, false])
  | .tmsDrEntry => some (lowSymbols [true, false, false])
  | .tmsShiftBody tdi => some (bodySymbols tdi)
  | .tmsScanExit => some (lowSymbols [true, false])
  | _ => none

/-- The commands that need a bound device and a known TAP position (41_dap.md R181, 42_flash.md R231). -/
def needsDevice : Instr → Bool
  | .selectAp _ _ | .apTransfer _ _ _ | .readMemory _ _ | .writeMemory _ _ | .coreHalt | .coreResume | .coreReset
  | .flashInit | .flashStatus | .flashErase _ _ | .flashProgram _ _ | .flashVerify _ _ => true
  | .sessionOpen | .sessionClose | .tapReset | .shiftIr _ | .shiftDr _ | .readIdcode | .deviceBind _ | .flashDetect
  | .catalogFind _ | .catalogAdd _ _ _ _ _ _ _ _
  | .irBypass | .irDpacc | .irApacc | .dpSelectWrite _ | .dpRdbuffRead | .apCswWrite _ | .apTarWrite _ | .apDrwWrite _
  | .apDrwRead | .tmsTapReset | .tmsIrEntry | .tmsDrEntry | .tmsShiftBody _ | .tmsScanExit => false

/-- The commands that need a driver (42_flash.md R231). -/
def needsDriver : Instr → Bool
  | .flashInit | .flashStatus | .flashErase _ _ | .flashProgram _ _ | .flashVerify _ _ => true
  | _ => false

/-- The commands that need the unlock (42_flash.md R231). -/
def needsUnlock : Instr → Bool
  | .flashErase _ _ | .flashProgram _ _ => true
  | _ => false

/-- The address and byte length of a command that takes a range (20_memory.md R78). -/
def rangeOf : Instr → Option (Word × Nat)
  | .readMemory addr len => some (addr, len.toNat)
  | .writeMemory addr data => some (addr, data.length)
  | .flashErase addr len => some (addr, len.toNat)
  | .flashProgram addr data => some (addr, data.length)
  | .flashVerify addr data => some (addr, data.length)
  | _ => none

/-- The address, byte length and error step of a command that checks alignment (20_memory.md R76, R77; 60_exceptions.md R304). -/
def alignedOperand : Instr → Option (Word × Nat × StepKind)
  | .apTransfer _ addr _ => some (addr, 4, .none)
  | .readMemory addr len => some (addr, len.toNat, .none)
  | .writeMemory addr data => some (addr, data.length, .none)
  | .flashProgram addr data => some (addr, data.length, .program)
  | .flashVerify addr data => some (addr, data.length, .verify)
  | _ => none

/-- The commands that scan, so start in Run-Test/Idle (40_tap.md R145). -/
def scans : Instr → Bool
  | .shiftIr _ | .shiftDr _ | .readIdcode => true
  | i => needsDevice i

/-- The commands that need an open session (10_state.md R33). -/
def needsSession : Instr → Bool
  | .sessionOpen | .catalogFind _ | .catalogAdd _ _ _ _ _ _ _ _ => false
  | i => i.isCommand

/-- The memory access that is all of a command's work on the wire, by its address (41_dap.md R195, R198 to R200; 42_flash.md R233). -/
def soleAccess (p : RawParams) : Instr → Option Word
  | .apTransfer _ addr _ => if misaligned addr then none else some addr
  | .coreHalt | .coreResume => some dhcsrAddr
  | .coreReset => some aircrAddr
  | .flashStatus => some p.flashSr
  | .sessionOpen | .sessionClose | .tapReset | .shiftIr _ | .shiftDr _ | .readIdcode | .selectAp _ _ | .readMemory _ _
  | .writeMemory _ _ | .deviceBind _ | .flashDetect | .flashInit | .flashErase _ _ | .flashProgram _ _
  | .flashVerify _ _ | .catalogFind _ | .catalogAdd _ _ _ _ _ _ _ _ | .irBypass | .irDpacc | .irApacc
  | .dpSelectWrite _ | .dpRdbuffRead | .apCswWrite _ | .apTarWrite _ | .apDrwWrite _ | .apDrwRead | .tmsTapReset
  | .tmsIrEntry | .tmsDrEntry | .tmsShiftBody _ | .tmsScanExit => none

/-- A command whose first work on the wire is to poll the flash status: the step and address its error carries (42_flash.md R240, R241). -/
def pollsFirst (s : State) : Instr → Option (StepKind × Word)
  | .flashErase addr len =>
    if len = 0 ∨ 2 ^ 32 < addr.toNat + len.toNat then none
    else some (.erase, BitVec.ofNat 32 (addr.toNat - addr.toNat % s.cfg.refSectorSize))
  | .flashProgram addr data =>
    if data = [] ∨ 2 ^ 32 < addr.toNat + data.length ∨ addr.toNat % 4 ≠ 0 ∨ data.length % 4 ≠ 0 then none
    else some (.program, addr)
  | _ => none

end Sys2Proof.Machine

open Sys2Proof Sys2Proof.Machine

/-! ### Encoding (30_encoding.md) -/

/-- Every well-formed host command decodes back from its command word (R100, R102, R104). -/
def Obligations.CommandWordsDecodeEncode : Prop :=
  ∀ (p : RawParams) (i : Instr), i.WellFormed = true → i.isCommand = true →
    ∃ bytes, encode p i = .command bytes ∧ decodeCommand bytes = .ok i

/-- A byte string that decodes is the one encoding of a well-formed command (R100, R104). -/
def Obligations.DecodedWordsReencode : Prop :=
  ∀ (p : RawParams) (bytes : List Byte) (i : Instr), decodeCommand bytes = .ok i →
    encode p i = .command bytes ∧ i.WellFormed = true ∧ i.isCommand = true

/-- Every well-formed wire word decodes back, when the three IR codes differ (R110 to R115). That IR_DPACC and IR_APACC differ from BYPASS is a premise: R8 does not ask it (log entry 10). -/
def Obligations.WireWordsDecodeEncode : Prop :=
  ∀ (p : RawParams) (i : Instr), p.irDpacc ≠ p.irApacc → p.irDpacc ≠ irBypassCode → p.irApacc ≠ irBypassCode →
    i.WellFormed = true → i.isCommand = false → decode p (encode p i) = .ok i

/-- Words written out from R100 and R102 decode to the commands they stand for (the words of 95_test_vectors.md V3). -/
def Obligations.SampleWordsDecode : Prop :=
  decodeCommand [0x01#8] = .ok .sessionOpen
    ∧ decodeCommand [0x11#8, 0x08#8, 0x00#8, 0xFF#8] = .ok (.shiftIr (List.replicate 8 true))
    ∧ decodeCommand [0x12#8, 0x01#8, 0x03#8, 0x00#8, 0x05#8] = .ok (.shiftDr (.bits [true, false, true]))
    ∧ decodeCommand [0x20#8, 0x01#8, 0xF4#8, 0x00#8, 0x00#8, 0x00#8] = .ok (.selectAp 1#8 0xF4#32)
    ∧ decodeCommand [0x22#8, 0x00#8, 0x00#8, 0x00#8, 0x20#8, 0x08#8, 0x00#8, 0x00#8, 0x00#8]
        = .ok (.readMemory 0x20000000#32 8#32)
    ∧ decodeCommand [0x40#8, 0x77#8, 0x14#8, 0xA0#8, 0x1B#8] = .ok (.catalogFind 0x1BA01477#32)

/-- R125: a command word with an opcode not in R102 is refused DECODE. -/
def Obligations.IllegalOpcodesRefused : Prop :=
  ∀ (s : State) (op : Byte) (rest : List Byte) (later : List (List Byte)),
    (op.toNat = 0x00 ∨ (0x03 ≤ op.toNat ∧ op.toNat ≤ 0x0F) ∨ (0x14 ≤ op.toNat ∧ op.toNat ≤ 0x1F)
      ∨ (0x28 ≤ op.toNat ∧ op.toNat ≤ 0x2F) ∨ (0x36 ≤ op.toNat ∧ op.toNat ≤ 0x3F) ∨ 0x42 ≤ op.toNat) →
    s.cmds = (op :: rest) :: later → step s = .refused (.decode .illegalOpcode)

/-- A step runs the decoded command: the next word is taken from the port and performed; a word that is no command is refused; an empty port waits. How the port holds the host's words is the model's choice (log entry 2). -/
def Obligations.StepRunsDecodedCommand : Prop :=
  ∀ s : State,
    (∀ w later i, s.cmds = w :: later → decodeCommand w = .ok i → step s = exec i { s with cmds := later })
      ∧ (∀ w later r, s.cmds = w :: later → decodeCommand w = .error r → step s = .refused (.decode r))
      ∧ (s.cmds = [] → step s = .next s)

/-- Every well-formed command has a line of R130 that assembles back to it. A read AP_TRANSFER has no data operand, so its unused data word is 0 (log entry 13). -/
def Obligations.AssemblyRoundTrip : Prop :=
  ∀ i : Instr, i.WellFormed = true → i.isCommand = true → (∀ addr data, i = .apTransfer false addr data → data = 0) →
    ∃ line, assemblyOf i = some line ∧ assemble line = some i

/-- R112, R113: the frame shifted in is `DATAIN`, `A[3:2]`, `RnW` from the top, 35 bits, least significant first; of a captured frame the low 3 bits are the acknowledgment and the other 32 the read result. -/
def Obligations.FrameLayout : Prop :=
  ∀ (a : BitVec 2) (rnw : Bool) (w : Word) (out : Bits),
    (frameBits a rnw w).length = 35 ∧ value (frameBits a rnw w) = w.toNat * 8 + a.toNat * 2 + rnw.toNat
      ∧ (out.length = 35 →
          (ackOf (captured out)).toNat = value out % 8 ∧ (rdataOf (captured out)).toNat = value out / 8)

/-- R116, R117, R118: the select word, the CSW words of a base whose low six bits are zero (R8), and the half-word lanes, as numbers. -/
def Obligations.DataWordsAssemble : Prop :=
  ∀ (ap : Byte) (reg base addr : Word) (h : BitVec 16),
    (selWord ap reg).toNat = ap.toNat * 2 ^ 24 + reg.toNat / 16 % 16 * 16
      ∧ (base.toNat % 64 = 0 →
          (cswWord base .word).toNat = base.toNat + 2 ∧ (cswWord base .half).toNat = base.toNat + 1)
      ∧ (lane16 addr h).toNat = h.toNat * 2 ^ (16 * (addr.toNat / 2 % 2))

/-- An error's result word is 7 bytes: the code of its name (R300), its step, its address with the low byte first, and its detail (R301; 30_encoding.md R105); no two error records share one. -/
def Obligations.ErrorWordsAreFaithful : Prop :=
  ∀ e : ErrorRecord,
    (∃ code step b0 b1 b2 b3 : Byte, resultWord (.error e) = [code, step, b0, b1, b2, b3, e.detail]
      ∧ (e.code, code.toNat) ∈
          [(.transportError, 1), (.protocolError, 2), (.noDeviceError, 3), (.unsupportedDeviceError, 4), (.alignmentError, 5),
            (.flashTimeoutError, 6), (.verifyMismatchError, 7), (.flashStatusError, 8)]
      ∧ (e.step, step.toNat) ∈ [(StepKind.none, 0), (.erase, 1), (.program, 2), (.verify, 3)]
      ∧ e.addr.toNat = b0.toNat + 2 ^ 8 * b1.toNat + 2 ^ 16 * b2.toNat + 2 ^ 24 * b3.toNat)
    ∧ ∀ e' : ErrorRecord, resultWord (.error e) = resultWord (.error e') → e = e'

/-! ### The whole machine -/

/-- Every step keeps the invariant between commands: not busy, the TAP mirror in Run-Test/Idle or UNKNOWN, the SELECT shadow and the driver binding sound, only the block's own pins driven. -/
def Obligations.StepKeepsInvariant : Prop := ∀ s t : State, s.Inv → step s = .next t → t.Inv

/-- R340: the power-on state, field by field, under any admitted configuration, and that it waits for the first host command. -/
def Obligations.PowerOnState : Prop :=
  ∀ p : Params,
    let s := State.powerOn p
    s.isOpen = false ∧ s.busy = false ∧ s.tap = .unknown ∧ s.ir = none ∧ s.selValid = false ∧ s.selAp = 0
      ∧ s.selBank = 0 ∧ s.device = none ∧ s.driver = none ∧ s.flashUnlocked = false ∧ s.catalog = p.catalog0
      ∧ s.pinTck = none ∧ s.pinTms = none ∧ s.pinTdi = none ∧ s.result = none ∧ step s = .next s

/-- The reset state is the power-on state of the one configuration the model leaves free (log entry 5), and the power-on state of every configuration meets the invariant, with a mirror that claims nothing. -/
def Obligations.ResetMeetsInvariant : Prop :=
  State.reset = State.powerOn Config.params
    ∧ ∀ p : Params, (State.powerOn p).Inv ∧ (State.powerOn p).tapAtRest ∧ (State.powerOn p).mirrorRight

/-- The TAP mirror is right: if the target's position is the mirror's whatever position the target started in, it still is after every step, as long as the mirror claims a position (40_tap.md R144 to R147; 60_exceptions.md R306). -/
def Obligations.StepKeepsMirrorRight : Prop :=
  ∀ s t : State, s.tapAtRest → s.mirrorRight → step s = .next t → t.tapAtRest ∧ t.mirrorRight

/-- R40, R283: whatever a step does, the catalog keeps its entries in order and may only gain entries at its end. -/
def Obligations.CatalogIsAppendOnly : Prop :=
  ∀ s t : State, step s = .next t → ∃ new, t.catalog = s.catalog ++ new

/-- R25: no instruction and no internal step drives TRST, SRST or TDO, or reads a pin but TDO; and the history of pin operations only grows. -/
def Obligations.PinDisciplineOfEveryInstruction : Prop :=
  ∀ (i : Instr) (s t : State), exec i s = .next t →
    ∃ new, t.trace = new ++ s.trace ∧ (new.all fun e => e.op.allowed) = true

/-- Only the commands that 10_state.md R32 names write the session, the binding, the driver, the unlock and the catalog; none writes the configuration or the host's coming commands; a command ends not busy. -/
def Obligations.FieldsHaveTheirWriters : Prop :=
  ∀ (i : Instr) (s t : State), exec i s = .next t →
    t.cfg = s.cfg ∧ t.cmds = s.cmds ∧ t.busy = s.busy
      ∧ (t.isOpen ≠ s.isOpen → i = .sessionOpen ∨ i = .sessionClose)
      ∧ (t.device ≠ s.device → i = .sessionOpen ∨ ∃ id, i = .deviceBind id)
      ∧ (t.driver ≠ s.driver → i = .sessionOpen ∨ i = .flashDetect ∨ ∃ id, i = .deviceBind id)
      ∧ (t.flashUnlocked ≠ s.flashUnlocked →
          i = .sessionOpen ∨ i = .flashInit ∨ i = .coreReset ∨ i = .flashDetect ∨ ∃ id, i = .deviceBind id)
      ∧ (t.catalog ≠ s.catalog → ∃ a b c d e f g h, i = .catalogAdd a b c d e f g h)

/-- The SELECT shadow is written only by the selection and by SESSION_OPEN: of the other instructions, whatever their outcome, none changes its AP or bank, and none makes it valid (R35). -/
def Obligations.SelectShadowHasItsWriters : Prop :=
  ∀ (i : Instr) (s t : State), exec i s = .next t → needsDevice i = false → i ≠ .sessionOpen →
    (∀ data, i ≠ .dpSelectWrite data) →
    t.selAp = s.selAp ∧ t.selBank = s.selBank ∧ (t.selValid = true → s.selValid = true)

/-! ### The gate and the session (40_tap.md §1) -/

/-- R33, R42: a command while busy is refused BUSY; a command that needs a session is refused CLOSED without one. -/
def Obligations.GateRefusals : Prop :=
  ∀ (i : Instr) (s : State), i.isCommand = true →
    (s.busy = true → exec i s = .refused .busy)
      ∧ (s.busy = false → needsSession i = true → s.isOpen = false → exec i s = .refused .closed)

/-- R142: SESSION_OPEN resets the session state when the transport opens; when it fails only the result is written; an open session is refused ALREADY_OPEN. The counters, the answers to come and the trace are the model's own (log entries 1, 4). -/
def Obligations.SessionOpenCompletes : Prop :=
  ∀ s : State, s.busy = false →
    (s.isOpen = true → exec .sessionOpen s = .refused .alreadyOpen)
      ∧ (s.isOpen = false → ∃ t, exec .sessionOpen s = .next t ∧ t.cfg = s.cfg ∧ t.catalog = s.catalog
        ∧ t.cmds = s.cmds ∧ t.busy = false ∧ t.tdo = s.tdo ∧ t.samples = s.samples
        ∧ ((s.link.next s.ops).1 = true →
            t.result = some (.ok .empty) ∧ t.isOpen = true ∧ t.tap = .unknown ∧ t.ir = none ∧ t.selValid = false
              ∧ t.selAp = 0 ∧ t.selBank = 0 ∧ t.device = none ∧ t.driver = none ∧ t.flashUnlocked = false
              ∧ t.pinTck = none ∧ t.pinTms = none ∧ t.pinTdi = none
              ∧ t.trace = ⟨.openLink, .done⟩ :: s.trace)
        ∧ ((s.link.next s.ops).1 = false →
            t.result = some (.error ⟨.transportError, .none, 0, 0⟩) ∧ t.isOpen = false ∧ t.tap = s.tap ∧ t.ir = s.ir
              ∧ SameShadow s t ∧ t.device = s.device ∧ t.driver = s.driver ∧ t.flashUnlocked = s.flashUnlocked
              ∧ t.pinTck = s.pinTck ∧ t.pinTms = s.pinTms ∧ t.pinTdi = s.pinTdi
              ∧ t.trace = ⟨.openLink, .failed⟩ :: s.trace))

/-- R143: SESSION_CLOSE closes the transport and the session, leaves every other field, and cannot fail; after it every command but SESSION_OPEN, CATALOG_FIND and CATALOG_ADD is refused CLOSED. -/
def Obligations.SessionCloseCompletes : Prop :=
  ∀ s : State, s.busy = false → s.isOpen = true →
    let t := { s with isOpen := false, result := some (.ok .empty), trace := ⟨.closeLink, .done⟩ :: s.trace }
    exec .sessionClose s = .next t ∧ ∀ i, needsSession i = true → exec i t = .refused .closed

/-! ### The TAP unit (40_tap.md) -/

/-- R147: five TMS-high pulses reach Test-Logic-Reset from every position, and one low pulse then Run-Test/Idle. -/
def Obligations.FiveHighPulsesReachReset : Prop :=
  ∀ q : TapState, q ≠ .unknown →
    tapAfter q (lowSymbols (List.replicate 5 true)) = .tlr ∧ tapAfter q (lowSymbols tmsTapReset) = .rti

/-- R146: one TCK cycle issues its pin operations in the order of the rule, and samples TDO before the rising edge. -/
def Obligations.ClockPinOrder : Prop :=
  ∀ (s : State) (c : Cycle), s.link = .working →
    ∃ t, clock c s = .ok (c.sample && s.tdoBit 0) t ∧ t.tap = s.tap.next c.tms
      ∧ t.trace =
          [⟨.delay s.cfg.tckHalfPeriodUs, .done⟩, ⟨.setPin .tck true, .done⟩]
            ++ (if c.sample then [⟨.getPin .tdo, .level (s.tdoBit 0)⟩] else [])
            ++ [⟨.delay s.cfg.tckHalfPeriodUs, .done⟩, ⟨.setPin .tdi c.tdi, .done⟩, ⟨.setPin .tms c.tms, .done⟩,
              ⟨.setPin .tck false, .done⟩] ++ s.trace
      ∧ t.pinTck = some true ∧ t.pinTms = some c.tms ∧ t.pinTdi = some c.tdi

/-- R147: TAP_RESET from every TAP position, UNKNOWN included. -/
def Obligations.TapResetCompletes : Prop :=
  ∀ s : State, SessionReady s →
    ∃ t, exec .tapReset s = .next t ∧ t.result = some (.ok .empty) ∧ t.tap = .rti ∧ t.ir = none ∧ t.selValid = false
      ∧ Sent s t (lowSymbols [true, true, true, true, true, false]) ∧ t.pinTck = some true ∧ t.pinTms = some false
      ∧ t.pinTdi = some false ∧ t.tdo = s.tdo ∧ t.selAp = s.selAp ∧ t.selBank = s.selBank ∧ SameBinding s t

/-- R149: SHIFT_IR of any length from 1 up drives the IR path of R110 and leaves its bits in `S.ir`. -/
def Obligations.ShiftIrCompletes : Prop :=
  ∀ (s : State) (bits : Bits), ScanReady s → bits ≠ [] →
    ∃ t, exec (.shiftIr bits) s = .next t ∧ t.result = some (.ok .empty) ∧ t.ir = some bits ∧ t.tap = .rti
      ∧ Sent s t (lowSymbols [true, true, false, false] ++ bodySymbols bits ++ lowSymbols [true, false])
      ∧ SentScans s t [.ir bits] ∧ t.tdo = s.tdo ∧ SameShadow s t ∧ SameBinding s t

/-- R151: SHIFT_DR returns exactly the `len` levels TDO answered, shifting its bits or, without them, zeros. -/
def Obligations.ShiftDrCompletes : Prop :=
  ∀ (s : State) (src : DrSource), ScanReady s → 1 ≤ shiftLen src →
    ∃ t, exec (.shiftDr src) s = .next t ∧ t.result = some (.ok (.bits (s.tdoBits (shiftLen src))))
      ∧ (s.tdoBits (shiftLen src)).length = shiftLen src ∧ t.tap = .rti ∧ t.ir = s.ir
      ∧ Sent s t (lowSymbols [true, false, false]
          ++ bodySymbols (match src with | .low n => List.replicate n false | .bits bv => bv) ++ lowSymbols [true, false])
      ∧ (∀ k, t.tdoBit k = s.tdoBit (shiftLen src + k)) ∧ SameShadow s t ∧ SameBinding s t

/-- R152: READ_IDCODE scans BYPASS, then 32 low bits, and returns the sampled word, or NoDeviceError on either sentinel. -/
def Obligations.ReadIdcodeCompletes : Prop :=
  ∀ s : State, ScanReady s →
    let v := BitVec.ofNat 32 (value (s.tdoBits 32))
    ∃ t, exec .readIdcode s = .next t
      ∧ t.result = some (if v = 0#32 ∨ v = 0xFFFFFFFF#32 then .error ⟨.noDeviceError, .none, v, 0⟩ else .ok (.word v))
      ∧ t.ir = some (List.replicate 8 true) ∧ t.tap = .rti
      ∧ SentScans s t [.ir (List.replicate 8 true), .dr (List.replicate 32 false)]
      ∧ SameShadow s t ∧ SameBinding s t

/-- R156: the pin operations of the TAP commands: 36, 6(n + 6), 6(n + 5) + n and 338. -/
def Obligations.ScanPinOperationCounts : Prop :=
  ∀ (s : State) (bits : Bits), ScanReady s → bits ≠ [] →
    (∃ t, exec .tapReset s = .next t ∧ t.trace.length = s.trace.length + 36)
      ∧ (∃ t, exec (.shiftIr bits) s = .next t ∧ t.trace.length = s.trace.length + 6 * (bits.length + 6))
      ∧ (∃ t, exec (.shiftDr (.bits bits)) s = .next t
          ∧ t.trace.length = s.trace.length + (6 * (bits.length + 5) + bits.length))
      ∧ ∃ t, exec .readIdcode s = .next t ∧ t.trace.length = s.trace.length + 338

/-- R145, R149, R151: a shift of length 0 is refused ZERO_LEN; a command that scans is refused TAP_UNKNOWN in an unknown position. -/
def Obligations.ScanRefusals : Prop :=
  ∀ s : State, s.busy = false → s.isOpen = true →
    exec (.shiftIr []) s = .refused .zeroLen
      ∧ (∀ src, shiftLen src = 0 → exec (.shiftDr src) s = .refused .zeroLen)
      ∧ (s.tap = .unknown →
          (∀ bits, bits ≠ [] → exec (.shiftIr bits) s = .refused .tapUnknown)
            ∧ (∀ src, shiftLen src ≠ 0 → exec (.shiftDr src) s = .refused .tapUnknown)
            ∧ exec .readIdcode s = .refused .tapUnknown
            ∧ ∀ i, needsDevice i = true → s.device.isSome = true → exec i s = .refused .tapUnknown)

/-! ### Errors (60_exceptions.md) -/

/-- R310: an error is precise. When the transport performs `n` operations and fails the next, SHIFT_IR issues exactly those `n` and the failing one, the last; and the environment's later answers are still to come. -/
def Obligations.TransportFailureIsPrecise : Prop :=
  ∀ (s : State) (bits : Bits) (n : Nat) (rest : Link), s.busy = false → s.isOpen = true → s.tap = .rti → bits ≠ [] →
    s.link = .failsAfter n rest → n < 6 * (bits.length + 6) →
    ∃ t, exec (.shiftIr bits) s = .next t ∧ t.result = some (.error ⟨.transportError, .none, 0, 0⟩) ∧ t.link = rest
      ∧ t.tap = .unknown ∧ t.ir = none ∧ t.selValid = false ∧ SameBinding s t
      ∧ ∃ op earlier, t.trace = ⟨op, .failed⟩ :: (earlier ++ s.trace) ∧ earlier.length = n
        ∧ ∀ e ∈ earlier, e.answer ≠ .failed

/-- After a TransportError of any command but SESSION_OPEN the position, the IR and the SELECT shadow are lost, the session and the binding are not (R306; what CORE_RESET, FLASH_INIT wrote to the unlock before the error stays, R308). -/
def Obligations.TransportErrorState : Prop :=
  ∀ (i : Instr) (s t : State) (e : ErrorRecord), i ≠ .sessionOpen → exec i s = .next t → t.result = some (.error e) →
    e.code = .transportError →
    t.tap = .unknown ∧ t.ir = none ∧ t.selValid = false ∧ t.isOpen = true
      ∧ t.device = s.device ∧ t.driver = s.driver ∧ t.catalog = s.catalog

/-- After a ProtocolError of any instruction the SELECT shadow is invalid and the TAP is in Run-Test/Idle; the session, the binding, the driver and the catalog are unchanged (R307). -/
def Obligations.ProtocolErrorState : Prop :=
  ∀ (i : Instr) (s t : State) (e : ErrorRecord), exec i s = .next t → t.result = some (.error e) →
    e.code = .protocolError →
    t.selValid = false ∧ t.tap = .rti ∧ t.isOpen = true ∧ t.device = s.device ∧ t.driver = s.driver
      ∧ t.catalog = s.catalog

/-! ### The DAP unit (41_dap.md) -/

/-- R185: every DP/AP frame row scans its IR code once, shifts its frame, shifts it again after each WAIT up to the retry bound, and ends with the first OK frame's data; DP_SELECT_WRITE then holds the selection. That a frame row run alone leaves an OK result, and that AP_CSW_WRITE shifts any data word, is the model's choice (log entry 8). -/
def Obligations.FrameRowsRetryWait : Prop :=
  ∀ (s : State) (i : Instr) (code : Byte) (a : BitVec 2) (rnw : Bool) (w : Word) (r : Nat),
    s.isOpen = true → s.link = .working → s.tap = .rti → frameAccess s.cfg.toRawParams i = some (code, a, rnw, w) →
    r ≤ s.cfg.waitRetryMax → (∀ j < r, ackOf (s.frameAt j) = 0b001#3) → ackOf (s.frameAt r) = 0b010#3 →
    ∃ t, exec i s = .next t
      ∧ t.result = some (.ok (if rnw then .word (rdataOf (s.frameAt r)) else .empty))
      ∧ SentScans s t (.ir (irBits code) :: List.replicate (r + 1) (.dr (frameBits a rnw w)))
      ∧ t.tap = .rti ∧ t.ir = some (irBits code) ∧ SameBinding s t
      ∧ (∀ data, i = .dpSelectWrite data →
          t.selValid = true ∧ t.selAp = data.extractLsb' 24 8 ∧ t.selBank = bankOf data)
      ∧ ((∀ data, i ≠ .dpSelectWrite data) → SameShadow s t)

/-- R185: a frame row ends in ProtocolError carrying the last acknowledgment: at once on an invalid one, without a further retry, or on a WAIT when the retries are used up. -/
def Obligations.FrameRowsFail : Prop :=
  ∀ (s : State) (i : Instr) (code : Byte) (a : BitVec 2) (rnw : Bool) (w : Word) (r : Nat),
    s.isOpen = true → s.link = .working → s.tap = .rti → frameAccess s.cfg.toRawParams i = some (code, a, rnw, w) →
    r ≤ s.cfg.waitRetryMax → (∀ j < r, ackOf (s.frameAt j) = 0b001#3) → ackOf (s.frameAt r) ≠ 0b010#3 →
    (ackOf (s.frameAt r) = 0b001#3 → r = s.cfg.waitRetryMax) →
    ∃ t, exec i s = .next t
      ∧ t.result = some (.error ⟨.protocolError, .none, 0, (ackOf (s.frameAt r)).zeroExtend 8⟩)
      ∧ SentScans s t (.ir (irBits code) :: List.replicate (r + 1) (.dr (frameBits a rnw w)))
      ∧ t.tap = .rti ∧ t.ir = some (irBits code) ∧ t.selValid = false ∧ SameBinding s t

/-- R187: SELECT_AP writes the select word of R116 to DP SELECT and then holds the selection. -/
def Obligations.SelectApCompletes : Prop :=
  ∀ (s : State) (ap : Byte) (reg : Word), DapReady s → s.acksOk 1 = true →
    ∃ t, exec (.selectAp ap reg) s = .next t ∧ t.result = some (.ok .empty)
      ∧ SentScans s t (accessScans s.cfg.irDpacc 0b10#2 false ((ap.zeroExtend 32 <<< 24) ||| (reg &&& 0xF0#32)))
      ∧ t.selValid = true ∧ t.selAp = ap ∧ t.selBank = (reg &&& 0xF0#32).setWidth 8 ∧ t.tap = .rti
      ∧ t.ir = some (irBits s.cfg.irDpacc) ∧ SameBinding s t

/-- R195: AP_TRANSFER at an aligned address: a read returns the word of the RDBUFF frame, a write returns its data; the scans are those of R192 and R193. -/
def Obligations.ApTransferCompletes : Prop :=
  ∀ (s : State) (addr data : Word), DapReady s → addr.toNat % 4 = 0 → s.acksOk (s.selectCount + 4) = true →
    (∃ t, exec (.apTransfer false addr data) s = .next t
        ∧ t.result = some (.ok (.word (rdataOf (s.frameAt (s.selectCount + 3)))))
        ∧ AccessDone s t (readScans s.cfg.toRawParams addr))
      ∧ ∃ t, exec (.apTransfer true addr data) s = .next t ∧ t.result = some (.ok (.word data))
        ∧ AccessDone s t (writeScans s.cfg.toRawParams .word addr data)

/-- R196: READ_MEMORY of a positive number of words returns the bytes of the words read, each access acknowledged; of none, the empty string with no pin operation. -/
def Obligations.ReadMemoryCompletes : Prop :=
  ∀ (s : State) (addr len : Word), DapReady s → addr.toNat + len.toNat ≤ 2 ^ 32 → addr.toNat % 4 = 0 →
    len.toNat % 4 = 0 → s.acksOk (s.selectCount + len.toNat) = true →
    ∃ t, exec (.readMemory addr len) s = .next t
      ∧ t.result = some (.ok (.bytes (s.readBack s.selectCount (len.toNat / 4))))
      ∧ (len ≠ 0 → AccessDone s t (readWordsScans s.cfg.toRawParams addr (len.toNat / 4)))
      ∧ (len = 0 → SameWire s t ∧ SameShadow s t ∧ SameBinding s t)

/-- R197: WRITE_MEMORY writes the little-endian words of its data from `addr` up, each access acknowledged; of none, nothing with no pin operation. -/
def Obligations.WriteMemoryCompletes : Prop :=
  ∀ (s : State) (addr : Word) (data : List Byte), DapReady s → addr.toNat + data.length ≤ 2 ^ 32 →
    addr.toNat % 4 = 0 → data.length % 4 = 0 → s.acksOk (s.selectCount + data.length) = true →
    ∃ t, exec (.writeMemory addr data) s = .next t ∧ t.result = some (.ok .empty)
      ∧ (data ≠ [] → AccessDone s t (writeWordsScans s.cfg.toRawParams addr data))
      ∧ (data = [] → SameWire s t ∧ SameShadow s t ∧ SameBinding s t)

/-- R198 to R200: CORE_HALT, CORE_RESUME and CORE_RESET each make the one fixed write; CORE_RESET also relocks. -/
def Obligations.CoreControlCompletes : Prop :=
  ∀ s : State, DapReady s → s.acksOk (s.selectCount + 4) = true →
    (∃ t, exec .coreHalt s = .next t ∧ t.result = some (.ok .empty)
        ∧ AccessDone s t (writeScans s.cfg.toRawParams .word 0xE000EDF0#32 0xA05F0003#32))
      ∧ (∃ t, exec .coreResume s = .next t ∧ t.result = some (.ok .empty)
        ∧ AccessDone s t (writeScans s.cfg.toRawParams .word 0xE000EDF0#32 0xA05F0001#32))
      ∧ ∃ t, exec .coreReset s = .next t ∧ t.result = some (.ok .empty) ∧ t.flashUnlocked = false
        ∧ AccessDone { s with flashUnlocked := false } t
            (writeScans s.cfg.toRawParams .word 0xE000ED0C#32 0x05FA0004#32)

/-- R201: DEVICE_BIND binds the first catalog entry of the masked id and drops driver, unlock and selection; an unknown id is UnsupportedDeviceError and the old binding is kept. No pin operation either way. -/
def Obligations.DeviceBindCompletes : Prop :=
  ∀ (s : State) (idcode : Word), s.busy = false → s.isOpen = true →
    (∀ k d, catalogLookup s idcode = some (k, d) →
        exec (.deviceBind idcode) s
          = .next { s with
              device := some d, driver := none, flashUnlocked := false, selValid := false
              result := some (.ok .empty) })
      ∧ (catalogLookup s idcode = none →
        exec (.deviceBind idcode) s
          = .next { s with result := some (.error ⟨.unsupportedDeviceError, .none, idcode, 0⟩) })

/-- R181, R230, R231: the DAP and flash commands are refused NOT_BOUND without a device, the flash commands NO_DRIVER without a driver, and FLASH_ERASE and FLASH_PROGRAM LOCKED before the unlock. -/
def Obligations.BindingRefusals : Prop :=
  ∀ (s : State) (i : Instr), s.busy = false → s.isOpen = true →
    (needsDevice i = true ∨ i = .flashDetect → s.device = none → exec i s = .refused .notBound)
      ∧ (needsDriver i = true → s.device.isSome = true → s.tap = .rti → s.driver = none → exec i s = .refused .noDriver)
      ∧ (needsUnlock i = true → s.device.isSome = true → s.tap = .rti → s.driver = some .ref → s.flashUnlocked = false →
          exec i s = .refused .locked)

/-- R76, R77, R309: a misaligned address or byte length ends the command in AlignmentError before any pin operation, with the command's step and address; nothing else of the block's state changes. -/
def Obligations.MisalignedOperandsRejected : Prop :=
  ∀ (s : State) (i : Instr) (addr : Word) (len : Nat) (k : StepKind), alignedOperand i = some (addr, len, k) →
    s.busy = false → s.isOpen = true → s.device.isSome = true → s.tap = .rti →
    (needsDriver i = true → s.driver = some .ref) → (needsUnlock i = true → s.flashUnlocked = true) →
    (rangeOf i ≠ none → addr.toNat + len ≤ 2 ^ 32) → addr.toNat % 4 ≠ 0 ∨ len % 4 ≠ 0 →
    exec i s = .next { s with result := some (.error ⟨.alignmentError, k, addr, 0⟩) }

/-- R78: a command whose range passes the top of the address space is refused RANGE; AP_TRANSFER, which takes one address, never is. -/
def Obligations.RangePastTopRefused : Prop :=
  (∀ (s : State) (i : Instr) (addr : Word) (len : Nat), rangeOf i = some (addr, len) →
    s.busy = false → s.isOpen = true → s.device.isSome = true → s.tap = .rti →
    (needsDriver i = true → s.driver = some .ref) → (needsUnlock i = true → s.flashUnlocked = true) →
    2 ^ 32 < addr.toNat + len → exec i s = .refused .range)
    ∧ ∀ (s : State) (write : Bool) (addr data : Word), exec (.apTransfer write addr data) s ≠ .refused .range

/-- R302 (a): an invalid acknowledgment in any frame of a command's one memory access, the selection included, is a ProtocolError that carries the access's address and that acknowledgment; nothing is shifted after it. -/
def Obligations.AccessErrorCarriesAddress : Prop :=
  ∀ (s : State) (i : Instr) (addr : Word) (j : Nat), soleAccess s.cfg.toRawParams i = some addr → DapReady s →
    (needsDriver i = true → s.driver = some .ref) → j < s.selectCount + 4 → s.acksOk j = true →
    ackOf (s.frameAt j) ≠ 0b010#3 → ackOf (s.frameAt j) ≠ 0b001#3 →
    ∃ t, exec i s = .next t
      ∧ t.result = some (.error ⟨.protocolError, .none, addr, (ackOf (s.frameAt j)).zeroExtend 8⟩)
      ∧ t.selValid = false ∧ t.tap = .rti ∧ (∃ xs, SentScans s t xs ∧ xs.length = 2 * (j + 1))
      ∧ t.device = s.device ∧ t.driver = s.driver ∧ t.isOpen = s.isOpen ∧ t.catalog = s.catalog

/-- The `scan` expansion of R133: with the session closed and a working transport it opens the session, resets the TAP, reads the IDCODE and looks it up; on a sentinel it stops there with NoDeviceError. -/
def Obligations.ScanExpansionIdentifies : Prop :=
  ∀ s : State, s.busy = false → s.isOpen = false → s.link = .working →
    let v := BitVec.ofNat 32 (value (s.tdoBits 32))
    ∃ t, runPseudo .scan s = .next t ∧ t.isOpen = true ∧ t.tap = .rti ∧ t.device = none
      ∧ t.result = some (if v = 0#32 ∨ v = 0xFFFFFFFF#32 then .error ⟨.noDeviceError, .none, v, 0⟩
          else .ok (.found ((catalogLookup s v).map Prod.fst)))
      ∧ Sent s t (lowSymbols [true, true, true, true, true, false] ++ irSymbols (List.replicate 8 true)
          ++ drSymbols (List.replicate 32 false))

/-! ### The flash unit (42_flash.md) -/

/-- R230, R239: FLASH_DETECT binds the reference driver when the pattern is a case-folded prefix of the bound device's name, else UnsupportedDeviceError; it relocks either way and performs no pin operation, in any TAP position. Without a bound device it is refused NOT_BOUND. -/
def Obligations.FlashDetectCompletes : Prop :=
  ∀ s : State, s.busy = false → s.isOpen = true →
    (s.device = none → exec .flashDetect s = .refused .notBound)
      ∧ ∀ d, s.device = some d →
        (s.cfg.refNamePattern.map foldByte <+: d.name.map foldByte →
          exec .flashDetect s
            = .next { s with driver := some .ref, flashUnlocked := false, result := some (.ok (.driver .ref)) })
        ∧ (¬ (s.cfg.refNamePattern.map foldByte <+: d.name.map foldByte) →
          exec .flashDetect s
            = .next { s with
                driver := none, flashUnlocked := false
                result := some (.error ⟨.unsupportedDeviceError, .none, 0, 0⟩) })

/-- R232: FLASH_INIT writes the two keys in sequence to the key register and then holds the unlock. -/
def Obligations.FlashInitCompletes : Prop :=
  ∀ s : State, FlashReady s → s.acksOk (s.selectCount + 8) = true →
    ∃ t, exec .flashInit s = .next t ∧ t.result = some (.ok .empty)
      ∧ AccessDone { s with flashUnlocked := true } t
          (writeScans s.cfg.toRawParams .word s.cfg.flashKeyr s.cfg.flashKey1
            ++ writeScans s.cfg.toRawParams .word s.cfg.flashKeyr s.cfg.flashKey2)

/-- R233, R121: FLASH_STATUS reads the status register once and decodes bit 0 as busy, bits 2 and 4 as error, bit 5 as end of operation. -/
def Obligations.FlashStatusCompletes : Prop :=
  ∀ s : State, FlashReady s → s.acksOk (s.selectCount + 4) = true →
    let sr := rdataOf (s.frameAt (s.selectCount + 3))
    ∃ t, exec .flashStatus s = .next t
      ∧ t.result = some (.ok (.status ⟨sr.getLsbD 0, sr.getLsbD 2 || sr.getLsbD 4, sr.getLsbD 5⟩))
      ∧ AccessDone s t (readScans s.cfg.toRawParams s.cfg.flashSr)

/-- R240: FLASH_ERASE erases every sector from the boundary at or below `addr` up to the range's end, in order, when every wait finds the controller ready; a range of length 0 erases nothing with no pin operation. -/
def Obligations.FlashEraseCompletes : Prop :=
  ∀ (s : State) (addr len : Word), FlashReady s → s.flashUnlocked = true → addr.toNat + len.toNat ≤ 2 ^ 32 →
    (len ≠ 0 →
      let sectors := sectorStarts s.cfg.toRawParams addr.toNat len.toNat
      s.acksOk (s.selectCount + 24 * sectors.length) = true →
      (∀ j < sectors.length, s.readyAt (s.selectCount + 24 * j + 3) = true
        ∧ s.readyAt (s.selectCount + 24 * j + 19) = true) →
      ∃ t, exec (.flashErase addr len) s = .next t ∧ t.result = some (.ok .empty)
        ∧ AccessDone s t (sectors.flatMap fun a => eraseSectorScans s.cfg.toRawParams (BitVec.ofNat 32 a)))
      ∧ (len = 0 → exec (.flashErase addr len) s = .next { s with result := some (.ok .empty) })

/-- R240: the sectors FLASH_ERASE erases are exactly the aligned sectors the range touches, each once, in rising order. -/
def Obligations.EraseSectorsCoverTheRange : Prop :=
  ∀ (p : Params) (addr len : Nat), 0 < len →
    (sectorStarts p.toRawParams addr len).Pairwise (· < ·)
      ∧ ∀ a, a ∈ sectorStarts p.toRawParams addr len
          ↔ a % p.refSectorSize = 0 ∧ a < addr + len ∧ addr < a + p.refSectorSize

/-- R241, R236: FLASH_PROGRAM programs and verifies its chunks of at most 1024 bytes in order, when the environment answers each page program and each verify reads the chunk's bytes back; of no bytes, nothing with no pin operation. -/
def Obligations.FlashProgramCompletes : Prop :=
  ∀ (s : State) (addr : Word) (data : List Byte), FlashReady s → s.flashUnlocked = true →
    addr.toNat + data.length ≤ 2 ^ 32 → addr.toNat % 4 = 0 → data.length % 4 = 0 →
    (data ≠ [] → s.acksOk s.selectCount = true →
      (∀ k < chunkCount data.length,
        s.pageAnswered (s.selectCount + chunkFrames 1024 * k) (chunkOf data k).length
          ∧ s.chunkReadBack (s.selectCount + chunkFrames 1024 * k) (chunkOf data k).length = chunkOf data k) →
      ∃ t, exec (.flashProgram addr data) s = .next t ∧ t.result = some (.ok .empty)
        ∧ AccessDone s t ((List.range (chunkCount data.length)).flatMap fun k =>
            chunkScans s.cfg.toRawParams (chunkAddr addr k) (chunkOf data k)))
      ∧ (data = [] → exec (.flashProgram addr data) s = .next { s with result := some (.ok .empty) })

/-- R241, R243: the first chunk whose read-back differs ends FLASH_PROGRAM in VerifyMismatchError with that chunk's address; later chunks are never programmed, and the flash stays unlocked (R308). -/
def Obligations.ProgramStopsAtFirstMismatch : Prop :=
  ∀ (s : State) (addr : Word) (data : List Byte) (k : Nat), FlashReady s → s.flashUnlocked = true →
    addr.toNat + data.length ≤ 2 ^ 32 → addr.toNat % 4 = 0 → data.length % 4 = 0 → k < chunkCount data.length →
    s.acksOk s.selectCount = true →
    (∀ j ≤ k, s.pageAnswered (s.selectCount + chunkFrames 1024 * j) (chunkOf data j).length) →
    (∀ j < k, s.chunkReadBack (s.selectCount + chunkFrames 1024 * j) (chunkOf data j).length = chunkOf data j) →
    s.chunkReadBack (s.selectCount + chunkFrames 1024 * k) (chunkOf data k).length ≠ chunkOf data k →
    ∃ t, exec (.flashProgram addr data) s = .next t
      ∧ t.result = some (.error ⟨.verifyMismatchError, .verify, chunkAddr addr k, 0⟩)
      ∧ AccessDone s t ((List.range (k + 1)).flatMap fun j =>
          chunkScans s.cfg.toRawParams (chunkAddr addr j) (chunkOf data j))

/-- R242: FLASH_VERIFY reads the range back and answers OK when the bytes are equal, else VerifyMismatchError; the unlock is not needed. -/
def Obligations.FlashVerifyCompletes : Prop :=
  ∀ (s : State) (addr : Word) (data : List Byte), FlashReady s → addr.toNat + data.length ≤ 2 ^ 32 →
    addr.toNat % 4 = 0 → data.length % 4 = 0 → s.acksOk (s.selectCount + data.length) = true →
    ∃ t, exec (.flashVerify addr data) s = .next t
      ∧ t.result = some (if s.readBack s.selectCount (data.length / 4) = data then .ok .empty
          else .error ⟨.verifyMismatchError, .verify, addr, 0⟩)
      ∧ (data ≠ [] → AccessDone s t (readWordsScans s.cfg.toRawParams addr (data.length / 4)))
      ∧ (data = [] → SameWire s t ∧ SameShadow s t ∧ SameBinding s t)

/-- R234: a status that never clears busy ends FLASH_ERASE and FLASH_PROGRAM in FlashTimeoutError after exactly `wait_ready_max` status reads, with the sector's or chunk's address; nothing is written to the controller, and the flash stays unlocked. -/
def Obligations.BusyPollsTimeOut : Prop :=
  ∀ (s : State) (i : Instr) (k : StepKind) (addr : Word), FlashReady s → s.flashUnlocked = true →
    pollsFirst s i = some (k, addr) → s.acksOk (s.selectCount + 4 * s.cfg.waitReadyMax) = true →
    (∀ j < s.cfg.waitReadyMax, srBusy (rdataOf (s.frameAt (s.selectCount + 4 * j + 3))) = true) →
    ∃ t, exec i s = .next t ∧ t.result = some (.error ⟨.flashTimeoutError, k, addr, 0⟩)
      ∧ AccessDone s t
          ((List.range s.cfg.waitReadyMax).flatMap fun _ => readScans s.cfg.toRawParams s.cfg.flashSr)

/-- R234: when busy clears within the bound with an error bit set, FLASH_ERASE and FLASH_PROGRAM end in FlashStatusError carrying the low byte of that status word; a set error bit beside busy keeps polling. -/
def Obligations.LatchedErrorFails : Prop :=
  ∀ (s : State) (i : Instr) (k : StepKind) (addr : Word) (n : Nat), FlashReady s → s.flashUnlocked = true →
    pollsFirst s i = some (k, addr) → n < s.cfg.waitReadyMax → s.acksOk (s.selectCount + 4 * (n + 1)) = true →
    (∀ j < n, srBusy (rdataOf (s.frameAt (s.selectCount + 4 * j + 3))) = true) →
    srBusy (rdataOf (s.frameAt (s.selectCount + 4 * n + 3))) = false →
    srError (rdataOf (s.frameAt (s.selectCount + 4 * n + 3))) = true →
    ∃ t, exec i s = .next t
      ∧ t.result = some (.error ⟨.flashStatusError, k, addr,
          (rdataOf (s.frameAt (s.selectCount + 4 * n + 3))).setWidth 8⟩)
      ∧ AccessDone s t ((List.range (n + 1)).flatMap fun _ => readScans s.cfg.toRawParams s.cfg.flashSr)

/-! ### The catalog (43_catalog.md) -/

/-- R280: CATALOG_FIND answers the lowest index whose part id is the low 28 bits of the id, or that there is none; it writes no state but the result and works with the session closed. -/
def Obligations.CatalogFindsFirstMatch : Prop :=
  ∀ (s : State) (idcode : Word), s.busy = false →
    ∃ r, exec (.catalogFind idcode) s = .next { s with result := some (.ok (.found r)) }
      ∧ (∀ k, r = some k →
          (∃ d, s.catalog[k]? = some d ∧ d.partId.toNat = idcode.toNat % 2 ^ 28)
            ∧ ∀ j < k, ∀ d, s.catalog[j]? = some d → d.partId.toNat ≠ idcode.toNat % 2 ^ 28)
      ∧ (r = none → ∀ d ∈ s.catalog, d.partId.toNat ≠ idcode.toNat % 2 ^ 28)

/-- R281: CATALOG_ADD appends one entry, its part id masked to 28 bits and the rest as given; no pin operation, and it works with the session closed. -/
def Obligations.CatalogAddAppends : Prop :=
  ∀ (s : State) (partId flashSize ramSize : Word) (fpu dsp : Bool) (name vendor : List Byte)
    (regions : List FlashRegion), s.busy = false →
    ∃ d : DeviceDescriptor,
      d.partId.toNat = partId.toNat % 2 ^ 28 ∧ d.flashSize = flashSize ∧ d.ramSize = ramSize ∧ d.fpu = fpu ∧ d.dsp = dsp
        ∧ d.name = name ∧ d.vendor = vendor ∧ d.regions = regions
        ∧ exec (.catalogAdd partId flashSize ramSize fpu dsp name vendor regions) s
          = .next { s with catalog := s.catalog ++ [d], result := some (.ok .empty) }

/-! ### The wire rows (30_encoding.md R110, R111) and the configuration (00_scope.md R8) -/

/-- R111: each IR row scans its 8-bit code from Run-Test/Idle, bit 0 first. That an IR row run alone leaves an OK result is the model's choice (log entry 8). -/
def Obligations.IrRowsComplete : Prop :=
  ∀ (s : State) (i : Instr) (code : Byte), irCode s.cfg.toRawParams i = some code → s.isOpen = true →
    s.link = .working → s.tap = .rti →
    ∃ t, exec i s = .next t ∧ t.result = some (.ok .empty) ∧ SentScans s t [.ir (bitsOf 8 code.toNat)]
      ∧ t.ir = some (bitsOf 8 code.toNat) ∧ t.tap = .rti ∧ t.tdo = s.tdo ∧ SameShadow s t ∧ SameBinding s t

/-- R110: each TMS row drives its sequence from any TAP position and the mirror follows it; the reset sequence leads to Run-Test/Idle from every position, UNKNOWN included; a shift body in Shift-DR samples each bit. What a row run alone leaves in the result, and that it leaves `S.ir` as it was, is the model's choice (log entry 8). -/
def Obligations.TmsRowsComplete : Prop :=
  ∀ s : State, s.isOpen = true → s.link = .working →
    (∀ i ys, tmsRow i = some ys →
      ∃ t, exec i s = .next t ∧ Sent s t ys ∧ t.tap = tapAfter s.tap ys ∧ t.ir = s.ir ∧ SameShadow s t ∧ SameBinding s t
        ∧ (∀ tdi, i = .tmsShiftBody tdi →
            t.result = some (.ok (.bits (if s.tap = .shDr then s.tdoBits tdi.length else []))))
        ∧ ((∀ tdi, i ≠ .tmsShiftBody tdi) → t.result = some (.ok .empty)))
      ∧ ∃ t, exec .tmsTapReset s = .next t ∧ t.result = some (.ok .empty) ∧ t.tap = .rti
        ∧ Sent s t (lowSymbols [true, true, true, true, true, false]) ∧ t.ir = s.ir ∧ SameShadow s t ∧ SameBinding s t

/-- R8: a configuration that meets every constraint powers on, and one that violates any is refused. -/
def Obligations.ConfigurationChecked : Prop :=
  ∀ p : RawParams,
    (1 ≤ p.waitRetryMax ∧ 1 ≤ p.waitReadyMax ∧ p.irDpacc ≠ p.irApacc
      ∧ (∀ m ∈ [p.crPg, p.crPer, p.crStrt], ∃ k < 32, m = BitVec.twoPow 32 k) ∧ [p.crPg, p.crPer, p.crStrt].Nodup
      ∧ (∃ k, p.refSectorSize = 2 ^ k) ∧ p.refSectorSize % 4 = 0 ∧ (∀ k < 6, p.cswBase.getLsbD k = false)
      ∧ (∀ a ∈ [p.flashKeyr, p.flashSr, p.flashCr, p.flashAr], a.toNat % 4 = 0)
      ∧ [p.flashKeyr, p.flashSr, p.flashCr, p.flashAr].Nodup →
        ∃ q : Params, q.toRawParams = p ∧ configure p = .next (State.powerOn q))
      ∧ (¬ (1 ≤ p.waitRetryMax ∧ 1 ≤ p.waitReadyMax ∧ p.irDpacc ≠ p.irApacc
      ∧ (∀ m ∈ [p.crPg, p.crPer, p.crStrt], ∃ k < 32, m = BitVec.twoPow 32 k) ∧ [p.crPg, p.crPer, p.crStrt].Nodup
      ∧ (∃ k, p.refSectorSize = 2 ^ k) ∧ p.refSectorSize % 4 = 0 ∧ (∀ k < 6, p.cswBase.getLsbD k = false)
      ∧ (∀ a ∈ [p.flashKeyr, p.flashSr, p.flashCr, p.flashAr], a.toNat % 4 = 0)
      ∧ [p.flashKeyr, p.flashSr, p.flashCr, p.flashAr].Nodup) →
        configure p = .refused .config)
end

