-- ==== Sys2Proof/Laws/Checks.lean ====
section
/-! SUPPORT. When the refusal checks of the commands pass: both directions, one lemma per check (40_tap.md R145; 41_dap.md R181; 42_flash.md R231; 20_memory.md R78). -/

namespace Sys2Proof.Machine

variable {s : State}

theorem tapCheck_none : tapCheck s = none ↔ s.tap = .rti := by simp [tapCheck]

theorem shiftCheck_none {len : Nat} : shiftCheck len s = none ↔ len ≠ 0 ∧ s.tap = .rti := by
  by_cases h : len = 0 <;> simp [shiftCheck, orElse, tapCheck, h]

theorem dapCheck_none : dapCheck s = none ↔ s.device.isSome = true ∧ s.tap = .rti := by
  cases h : s.device <;> simp [dapCheck, orElse, tapCheck, h]

theorem rangeCheck_none {addr : Word} {len : Nat} : rangeCheck addr len = none ↔ addr.toNat + len ≤ 2 ^ 32 := by
  simp [rangeCheck]

theorem orElse_none {a b : Option Refusal} : orElse a b = none ↔ a = none ∧ b = none := by
  cases a <;> simp [orElse]

theorem dapRangeCheck_none {addr : Word} {len : Nat} :
    dapRangeCheck addr len s = none ↔ (s.device.isSome = true ∧ s.tap = .rti) ∧ addr.toNat + len ≤ 2 ^ 32 := by
  rw [dapRangeCheck, orElse_none, dapCheck_none, rangeCheck_none]

theorem flashCheck_none {unlock : Bool} :
    flashCheck unlock s = none ↔ (s.device.isSome = true ∧ s.tap = .rti) ∧ s.driver = some .ref
      ∧ (unlock = true → s.flashUnlocked = true) := by
  rw [flashCheck, orElse_none, dapCheck_none, orElse_none]
  cases unlock <;> cases h : s.flashUnlocked <;> simp

theorem flashRangeCheck_none {unlock : Bool} {addr : Word} {len : Nat} :
    flashRangeCheck unlock addr len s = none ↔ ((s.device.isSome = true ∧ s.tap = .rti) ∧ s.driver = some .ref
      ∧ (unlock = true → s.flashUnlocked = true)) ∧ addr.toNat + len ≤ 2 ^ 32 := by
  rw [flashRangeCheck, orElse_none, flashCheck_none, rangeCheck_none]

theorem misalignedRange_false {addr : Word} {len : Nat} :
    misalignedRange addr len = false ↔ len % 4 = 0 ∧ addr.toNat % 4 = 0 := by
  simp [misalignedRange, misaligned]

end Sys2Proof.Machine
end

