-- ==== Sys2Proof/Laws/Decode.lean ====
section
/-! SUPPORT. The field readers of the decoder and the field writers of the encoder agree, in both directions (30_encoding.md R100, R101; 00_scope.md R11, R12). -/

namespace Sys2Proof

/-! ### Little-endian fields -/

theorem le32_extract (w : Word) : le32 (w.extractLsb' 0 8) (w.extractLsb' 8 8) (w.extractLsb' 16 8) (w.extractLsb' 24 8) = w := by
  apply BitVec.eq_of_getLsbD_eq
  intro i hi
  simp only [le32, BitVec.getLsbD_append, BitVec.getLsbD_extractLsb']
  interval_cases i <;> simp

theorem le16_extract (w : BitVec 16) : le16 (w.extractLsb' 0 8) (w.extractLsb' 8 8) = w := by
  apply BitVec.eq_of_getLsbD_eq
  intro i hi
  simp only [le16, BitVec.getLsbD_append, BitVec.getLsbD_extractLsb']
  interval_cases i <;> simp

theorem readU32_bytes (w : Word) (r : List Byte) : readU32 (bytesLe32 w ++ r) = .ok (w, r) := by
  simp [bytesLe32, readU32, le32_extract]

theorem readU16_bytes (w : BitVec 16) (r : List Byte) : readU16 (bytesLe16 w ++ r) = .ok (w, r) := by
  simp [bytesLe16, readU16, le16_extract]

theorem readBytes_append (d r : List Byte) : readBytes d.length (d ++ r) = .ok (d, r) := by
  simp [readBytes]

theorem value_bitsOf_byte (b : Byte) : BitVec.ofNat 8 (value (bitsOf 8 b.toNat)) = b := by
  revert b; decide +kernel

theorem bitsOf_value (bs : Bits) (n : Nat) (h : bs.length ≤ n) : bitsOf n (value bs) = bs ++ List.replicate (n - bs.length) false := by
  induction n generalizing bs with
  | zero => cases bs with
    | nil => rfl
    | cons => simp at h
  | succ n ih =>
    cases bs with
    | nil => have := ih [] (by simp); simp only [value] at this ⊢; simp [bitsOf, this, List.replicate_succ]
    | cons b bs =>
      simp only [value, bitsOf]
      have e1 : ((b.toNat + 2 * value bs) % 2 == 1) = b := by cases b <;> simp
      have e2 : (b.toNat + 2 * value bs) / 2 = value bs := by cases b <;> simp only [Bool.toNat_true, Bool.toNat_false] <;> omega
      rw [e1, e2, ih bs (by simpa using h)]
      simp

theorem value_lt (bs : Bits) : value bs < 2 ^ bs.length := by
  induction bs with
  | nil => simp [value]
  | cons b bs ih => simp only [value, List.length_cons, Nat.pow_succ]; cases b <;> simp <;> omega

theorem packBytes_length (k : Nat) (bv : Bits) : (packBytes k bv).length = k := by
  induction k generalizing bv with
  | zero => rfl
  | succ k ih => simp [packBytes, ih]

theorem bitsOfBytes_pack (k : Nat) (bv : Bits) (h : bv.length ≤ 8 * k) :
    bitsOfBytes (packBytes k bv) = bv ++ List.replicate (8 * k - bv.length) false := by
  induction k generalizing bv with
  | zero => have : bv = [] := by cases bv <;> simp_all
            subst this; rfl
  | succ k ih =>
    simp only [packBytes, bitsOfBytes, List.flatMap_cons]
    have := ih (bv.drop 8) (by simp; omega)
    simp only [bitsOfBytes] at this
    rw [this]
    have e : (BitVec.ofNat 8 (value (bv.take 8))).toNat = value (bv.take 8) := by
      simp only [BitVec.toNat_ofNat]; apply Nat.mod_eq_of_lt
      refine lt_of_lt_of_le (value_lt _) (Nat.pow_le_pow_right (by decide) (by simp))
    rw [e, bitsOf_value _ _ (by simp)]
    by_cases h8 : 8 ≤ bv.length
    · rw [List.length_take, Nat.min_eq_left h8]
      simp only [Nat.sub_self, List.replicate_zero, List.append_nil, ← List.append_assoc, List.take_append_drop, List.length_drop]
      congr 2; omega
    · have : bv.drop 8 = [] := List.drop_eq_nil_of_le (by omega)
      rw [this, List.take_of_length_le (by omega)]
      simp only [List.nil_append, List.append_assoc, List.replicate_append_replicate]; congr 2; simp; omega

theorem readBits_pack (bv : Bits) (r : List Byte) : readBits bv.length (pack bv ++ r) = .ok (bv, r) := by
  have hl : (pack bv).length = byteCount bv.length := packBytes_length ..
  have e := bitsOfBytes_pack (byteCount bv.length) bv (by simp [byteCount]; omega)
  unfold readBits
  rw [← hl, readBytes_append]
  simp only [Bind.bind, Except.bind]
  rw [show bitsOfBytes (pack bv) = _ from e]
  simp

theorem readRegions_encode (rs : List FlashRegion) (r : List Byte) :
    readRegions rs.length (rs.flatMap encodeRegion ++ r) = .ok (rs, r) := by
  induction rs with
  | nil => rfl
  | cons x xs ih =>
    simp only [List.length_cons, readRegions, List.flatMap_cons, encodeRegion, List.append_assoc, readU32_bytes, Bind.bind, Except.bind, ih]

/-! ### What a reader that answers has read -/

theorem bytesLe32_le32 (b0 b1 b2 b3 : Byte) : bytesLe32 (le32 b0 b1 b2 b3) = [b0, b1, b2, b3] := by
  have h : ∀ w : BitVec 32, bytesLe32 w = [w.extractLsb' 0 8, w.extractLsb' 8 8, w.extractLsb' 16 8, w.extractLsb' 24 8] :=
    fun _ => rfl
  rw [h]
  congr 1
  · apply BitVec.eq_of_getLsbD_eq; intro i hi
    simp only [le32, BitVec.getLsbD_extractLsb', BitVec.getLsbD_append]; interval_cases i <;> simp
  congr 1
  · apply BitVec.eq_of_getLsbD_eq; intro i hi
    simp only [le32, BitVec.getLsbD_extractLsb', BitVec.getLsbD_append]; interval_cases i <;> simp
  congr 1
  · apply BitVec.eq_of_getLsbD_eq; intro i hi
    simp only [le32, BitVec.getLsbD_extractLsb', BitVec.getLsbD_append]; interval_cases i <;> simp
  congr 1
  apply BitVec.eq_of_getLsbD_eq; intro i hi
  simp only [le32, BitVec.getLsbD_extractLsb', BitVec.getLsbD_append]; interval_cases i <;> simp

theorem bytesLe16_le16 (b0 b1 : Byte) : bytesLe16 (le16 b0 b1) = [b0, b1] := by
  have h : ∀ w : BitVec 16, bytesLe16 w = [w.extractLsb' 0 8, w.extractLsb' 8 8] := fun _ => rfl
  rw [h]
  congr 1
  · apply BitVec.eq_of_getLsbD_eq; intro i hi
    simp only [le16, BitVec.getLsbD_extractLsb', BitVec.getLsbD_append]; interval_cases i <;> simp
  congr 1
  apply BitVec.eq_of_getLsbD_eq; intro i hi
  simp only [le16, BitVec.getLsbD_extractLsb', BitVec.getLsbD_append]; interval_cases i <;> simp

theorem readU8_ok {bs r : List Byte} {b : Byte} (h : readU8 bs = .ok (b, r)) : bs = b :: r := by
  cases bs with
  | nil => simp [readU8] at h
  | cons x xs => simp only [readU8, Except.ok.injEq, Prod.mk.injEq] at h; rw [h.1, h.2]

theorem readU16_ok {bs r : List Byte} {w : BitVec 16} (h : readU16 bs = .ok (w, r)) : bs = bytesLe16 w ++ r := by
  match bs, h with
  | b0 :: b1 :: rest, h =>
    simp only [readU16, Except.ok.injEq, Prod.mk.injEq] at h
    rw [← h.1, bytesLe16_le16, ← h.2]; rfl
  | [], h | [_], h => simp [readU16] at h

theorem readU32_ok {bs r : List Byte} {w : Word} (h : readU32 bs = .ok (w, r)) : bs = bytesLe32 w ++ r := by
  match bs, h with
  | b0 :: b1 :: b2 :: b3 :: rest, h =>
    simp only [readU32, Except.ok.injEq, Prod.mk.injEq] at h
    rw [← h.1, bytesLe32_le32, ← h.2]; rfl
  | [], h | [_], h | [_, _], h | [_, _, _], h => simp [readU32] at h

theorem readBytes_ok {n : Nat} {bs d r : List Byte} (h : readBytes n bs = .ok (d, r)) : bs = d ++ r ∧ d.length = n := by
  unfold readBytes at h
  split at h
  · simp at h
  · simp only [Except.ok.injEq, Prod.mk.injEq] at h
    rw [← h.1, ← h.2]; simp; omega

theorem bitsOfBytes_length (bs : List Byte) : (bitsOfBytes bs).length = 8 * bs.length := by
  induction bs with
  | nil => rfl
  | cons b bs ih =>
    have hb : (bitsOf 8 b.toNat).length = 8 := rfl
    simp only [bitsOfBytes, List.flatMap_cons, List.length_append, hb, List.length_cons] at ih ⊢; omega

theorem bitsOfBytes_injective {xs ys : List Byte} (hl : xs.length = ys.length) (h : bitsOfBytes xs = bitsOfBytes ys) :
    xs = ys := by
  induction xs generalizing ys with
  | nil => cases ys <;> simp_all
  | cons x xs ih =>
    cases ys with
    | nil => simp at hl
    | cons y ys =>
      simp only [bitsOfBytes, List.flatMap_cons] at h
      obtain ⟨h1, h2⟩ := List.append_inj h rfl
      rw [← value_bitsOf_byte x, ← value_bitsOf_byte y, h1, ih (by simpa using hl) h2]

theorem readBits_ok {len : Nat} {bs r : List Byte} {bv : Bits} (h : readBits len bs = .ok (bv, r)) :
    bs = pack bv ++ r ∧ bv.length = len := by
  unfold readBits at h
  cases hf : readBytes (byteCount len) bs with
  | error e => simp [hf, Bind.bind, Except.bind] at h
  | ok q =>
    obtain ⟨f, rest⟩ := q
    obtain ⟨rfl, hl⟩ := readBytes_ok hf
    simp only [hf, Bind.bind, Except.bind] at h
    split at h
    · simp at h
    · rename_i hz
      simp only [Except.ok.injEq, Prod.mk.injEq] at h
      obtain ⟨rfl, rfl⟩ := h
      have h8 : (bitsOfBytes f).length = 8 * byteCount len := by rw [bitsOfBytes_length, hl]
      have hle : len ≤ 8 * byteCount len := by simp only [byteCount]; omega
      have ht : ((bitsOfBytes f).take len).length = len := by simp [h8]; omega
      refine ⟨congrArg (· ++ rest) ?_, ht⟩
      have hp : (pack ((bitsOfBytes f).take len)).length = byteCount len := by
        rw [pack, packBytes_length, ht]
      refine bitsOfBytes_injective (by rw [hp, hl]) ?_
      rw [pack, bitsOfBytes_pack _ _ (by rw [ht]; exact hle), ht]
      conv_lhs => rw [← List.take_append_drop len (bitsOfBytes f)]
      congr 1
      rw [List.eq_replicate_iff]
      refine ⟨by simp [h8], fun b hb => ?_⟩
      cases b with
      | false => rfl
      | true => exact absurd (List.any_eq_true.2 ⟨true, hb, rfl⟩) hz

theorem readRegions_ok {n : Nat} {bs r : List Byte} {rs : List FlashRegion} (h : readRegions n bs = .ok (rs, r)) :
    bs = rs.flatMap encodeRegion ++ r ∧ rs.length = n := by
  induction n generalizing bs rs with
  | zero => simp only [readRegions, Except.ok.injEq, Prod.mk.injEq] at h; obtain ⟨rfl, rfl⟩ := h; simp
  | succ n ih =>
    simp only [readRegions, Bind.bind, Except.bind] at h
    split at h
    · simp at h
    rename_i q1 h1; split at h
    · simp at h
    rename_i q2 h2; split at h
    · simp at h
    rename_i q3 h3; split at h
    · simp at h
    rename_i q4 h4
    simp only [Except.ok.injEq, Prod.mk.injEq] at h
    obtain ⟨rfl, rfl⟩ := h
    obtain ⟨k1, k2⟩ := ih h4
    rw [readU32_ok h1, readU32_ok h2, readU32_ok h3, k1]
    simp [encodeRegion, k2]

theorem finish_ok {i j : Instr} {bs : List Byte} (h : finish i bs = .ok j) : bs = [] ∧ i = j := by
  cases bs with
  | nil => exact ⟨rfl, by simpa [finish] using h⟩
  | cons => simp [finish] at h

end Sys2Proof
end

