-- ==== Sys2Proof/Laws/State.lean ====
section
/-! SUPPORT. One lemma per field per named update of State, so that no later proof unfolds a record update. -/

namespace Sys2Proof.Machine

variable (s : State)

/-! ### `State.advance` -/

@[simp] theorem State.advance_cfg : s.advance.cfg = s.cfg := rfl
@[simp] theorem State.advance_isOpen : s.advance.isOpen = s.isOpen := rfl
@[simp] theorem State.advance_busy : s.advance.busy = s.busy := rfl
@[simp] theorem State.advance_tap : s.advance.tap = s.tap := rfl
@[simp] theorem State.advance_ir : s.advance.ir = s.ir := rfl
@[simp] theorem State.advance_selValid : s.advance.selValid = s.selValid := rfl
@[simp] theorem State.advance_selAp : s.advance.selAp = s.selAp := rfl
@[simp] theorem State.advance_selBank : s.advance.selBank = s.selBank := rfl
@[simp] theorem State.advance_device : s.advance.device = s.device := rfl
@[simp] theorem State.advance_driver : s.advance.driver = s.driver := rfl
@[simp] theorem State.advance_flashUnlocked : s.advance.flashUnlocked = s.flashUnlocked := rfl
@[simp] theorem State.advance_catalog : s.advance.catalog = s.catalog := rfl
@[simp] theorem State.advance_pinTck : s.advance.pinTck = s.pinTck := rfl
@[simp] theorem State.advance_pinTms : s.advance.pinTms = s.pinTms := rfl
@[simp] theorem State.advance_pinTdi : s.advance.pinTdi = s.pinTdi := rfl
@[simp] theorem State.advance_result : s.advance.result = s.result := rfl
@[simp] theorem State.advance_cmds : s.advance.cmds = s.cmds := rfl
@[simp] theorem State.advance_link : s.advance.link = (s.link.next s.ops).2 := rfl
@[simp] theorem State.advance_tdo : s.advance.tdo = s.tdo := rfl
@[simp] theorem State.advance_ops : s.advance.ops = s.ops + 1 := rfl
@[simp] theorem State.advance_samples : s.advance.samples = s.samples := rfl
@[simp] theorem State.advance_trace : s.advance.trace = s.trace := rfl

/-! ### `State.record` -/

@[simp] theorem State.record_cfg (op : PinOp) (a : PinAnswer) : (s.record op a).cfg = s.cfg := rfl
@[simp] theorem State.record_isOpen (op : PinOp) (a : PinAnswer) : (s.record op a).isOpen = s.isOpen := rfl
@[simp] theorem State.record_busy (op : PinOp) (a : PinAnswer) : (s.record op a).busy = s.busy := rfl
@[simp] theorem State.record_tap (op : PinOp) (a : PinAnswer) : (s.record op a).tap = s.tap := rfl
@[simp] theorem State.record_ir (op : PinOp) (a : PinAnswer) : (s.record op a).ir = s.ir := rfl
@[simp] theorem State.record_selValid (op : PinOp) (a : PinAnswer) : (s.record op a).selValid = s.selValid := rfl
@[simp] theorem State.record_selAp (op : PinOp) (a : PinAnswer) : (s.record op a).selAp = s.selAp := rfl
@[simp] theorem State.record_selBank (op : PinOp) (a : PinAnswer) : (s.record op a).selBank = s.selBank := rfl
@[simp] theorem State.record_device (op : PinOp) (a : PinAnswer) : (s.record op a).device = s.device := rfl
@[simp] theorem State.record_driver (op : PinOp) (a : PinAnswer) : (s.record op a).driver = s.driver := rfl
@[simp] theorem State.record_flashUnlocked (op : PinOp) (a : PinAnswer) : (s.record op a).flashUnlocked = s.flashUnlocked := rfl
@[simp] theorem State.record_catalog (op : PinOp) (a : PinAnswer) : (s.record op a).catalog = s.catalog := rfl
@[simp] theorem State.record_pinTck (op : PinOp) (a : PinAnswer) : (s.record op a).pinTck = s.pinTck := rfl
@[simp] theorem State.record_pinTms (op : PinOp) (a : PinAnswer) : (s.record op a).pinTms = s.pinTms := rfl
@[simp] theorem State.record_pinTdi (op : PinOp) (a : PinAnswer) : (s.record op a).pinTdi = s.pinTdi := rfl
@[simp] theorem State.record_result (op : PinOp) (a : PinAnswer) : (s.record op a).result = s.result := rfl
@[simp] theorem State.record_cmds (op : PinOp) (a : PinAnswer) : (s.record op a).cmds = s.cmds := rfl
@[simp] theorem State.record_link (op : PinOp) (a : PinAnswer) : (s.record op a).link = s.link := rfl
@[simp] theorem State.record_tdo (op : PinOp) (a : PinAnswer) : (s.record op a).tdo = s.tdo := rfl
@[simp] theorem State.record_ops (op : PinOp) (a : PinAnswer) : (s.record op a).ops = s.ops := rfl
@[simp] theorem State.record_samples (op : PinOp) (a : PinAnswer) : (s.record op a).samples = s.samples := rfl
@[simp] theorem State.record_trace (op : PinOp) (a : PinAnswer) : (s.record op a).trace = ⟨op, a⟩ :: s.trace := rfl

/-! ### `State.clocked` -/

@[simp] theorem State.clocked_cfg (b : Bool) : (s.clocked b).cfg = s.cfg := rfl
@[simp] theorem State.clocked_isOpen (b : Bool) : (s.clocked b).isOpen = s.isOpen := rfl
@[simp] theorem State.clocked_busy (b : Bool) : (s.clocked b).busy = s.busy := rfl
@[simp] theorem State.clocked_tap (b : Bool) : (s.clocked b).tap = s.tap.next b := rfl
@[simp] theorem State.clocked_ir (b : Bool) : (s.clocked b).ir = s.ir := rfl
@[simp] theorem State.clocked_selValid (b : Bool) : (s.clocked b).selValid = s.selValid := rfl
@[simp] theorem State.clocked_selAp (b : Bool) : (s.clocked b).selAp = s.selAp := rfl
@[simp] theorem State.clocked_selBank (b : Bool) : (s.clocked b).selBank = s.selBank := rfl
@[simp] theorem State.clocked_device (b : Bool) : (s.clocked b).device = s.device := rfl
@[simp] theorem State.clocked_driver (b : Bool) : (s.clocked b).driver = s.driver := rfl
@[simp] theorem State.clocked_flashUnlocked (b : Bool) : (s.clocked b).flashUnlocked = s.flashUnlocked := rfl
@[simp] theorem State.clocked_catalog (b : Bool) : (s.clocked b).catalog = s.catalog := rfl
@[simp] theorem State.clocked_pinTck (b : Bool) : (s.clocked b).pinTck = s.pinTck := rfl
@[simp] theorem State.clocked_pinTms (b : Bool) : (s.clocked b).pinTms = s.pinTms := rfl
@[simp] theorem State.clocked_pinTdi (b : Bool) : (s.clocked b).pinTdi = s.pinTdi := rfl
@[simp] theorem State.clocked_result (b : Bool) : (s.clocked b).result = s.result := rfl
@[simp] theorem State.clocked_cmds (b : Bool) : (s.clocked b).cmds = s.cmds := rfl
@[simp] theorem State.clocked_link (b : Bool) : (s.clocked b).link = s.link := rfl
@[simp] theorem State.clocked_tdo (b : Bool) : (s.clocked b).tdo = s.tdo := rfl
@[simp] theorem State.clocked_ops (b : Bool) : (s.clocked b).ops = s.ops := rfl
@[simp] theorem State.clocked_samples (b : Bool) : (s.clocked b).samples = s.samples := rfl
@[simp] theorem State.clocked_trace (b : Bool) : (s.clocked b).trace = s.trace := rfl

/-! ### `State.sampled` -/

@[simp] theorem State.sampled_cfg : s.sampled.cfg = s.cfg := rfl
@[simp] theorem State.sampled_isOpen : s.sampled.isOpen = s.isOpen := rfl
@[simp] theorem State.sampled_busy : s.sampled.busy = s.busy := rfl
@[simp] theorem State.sampled_tap : s.sampled.tap = s.tap := rfl
@[simp] theorem State.sampled_ir : s.sampled.ir = s.ir := rfl
@[simp] theorem State.sampled_selValid : s.sampled.selValid = s.selValid := rfl
@[simp] theorem State.sampled_selAp : s.sampled.selAp = s.selAp := rfl
@[simp] theorem State.sampled_selBank : s.sampled.selBank = s.selBank := rfl
@[simp] theorem State.sampled_device : s.sampled.device = s.device := rfl
@[simp] theorem State.sampled_driver : s.sampled.driver = s.driver := rfl
@[simp] theorem State.sampled_flashUnlocked : s.sampled.flashUnlocked = s.flashUnlocked := rfl
@[simp] theorem State.sampled_catalog : s.sampled.catalog = s.catalog := rfl
@[simp] theorem State.sampled_pinTck : s.sampled.pinTck = s.pinTck := rfl
@[simp] theorem State.sampled_pinTms : s.sampled.pinTms = s.pinTms := rfl
@[simp] theorem State.sampled_pinTdi : s.sampled.pinTdi = s.pinTdi := rfl
@[simp] theorem State.sampled_result : s.sampled.result = s.result := rfl
@[simp] theorem State.sampled_cmds : s.sampled.cmds = s.cmds := rfl
@[simp] theorem State.sampled_link : s.sampled.link = s.link := rfl
@[simp] theorem State.sampled_tdo : s.sampled.tdo = s.tdo.drop 1 := rfl
@[simp] theorem State.sampled_ops : s.sampled.ops = s.ops := rfl
@[simp] theorem State.sampled_samples : s.sampled.samples = s.samples + 1 := rfl
@[simp] theorem State.sampled_trace : s.sampled.trace = s.trace := rfl

/-! ### `State.openSession` -/

@[simp] theorem State.openSession_cfg : s.openSession.cfg = s.cfg := rfl
@[simp] theorem State.openSession_isOpen : s.openSession.isOpen = true := rfl
@[simp] theorem State.openSession_busy : s.openSession.busy = s.busy := rfl
@[simp] theorem State.openSession_tap : s.openSession.tap = .unknown := rfl
@[simp] theorem State.openSession_ir : s.openSession.ir = none := rfl
@[simp] theorem State.openSession_selValid : s.openSession.selValid = false := rfl
@[simp] theorem State.openSession_selAp : s.openSession.selAp = 0 := rfl
@[simp] theorem State.openSession_selBank : s.openSession.selBank = 0 := rfl
@[simp] theorem State.openSession_device : s.openSession.device = none := rfl
@[simp] theorem State.openSession_driver : s.openSession.driver = none := rfl
@[simp] theorem State.openSession_flashUnlocked : s.openSession.flashUnlocked = false := rfl
@[simp] theorem State.openSession_catalog : s.openSession.catalog = s.catalog := rfl
@[simp] theorem State.openSession_pinTck : s.openSession.pinTck = none := rfl
@[simp] theorem State.openSession_pinTms : s.openSession.pinTms = none := rfl
@[simp] theorem State.openSession_pinTdi : s.openSession.pinTdi = none := rfl
@[simp] theorem State.openSession_result : s.openSession.result = s.result := rfl
@[simp] theorem State.openSession_cmds : s.openSession.cmds = s.cmds := rfl
@[simp] theorem State.openSession_link : s.openSession.link = s.link := rfl
@[simp] theorem State.openSession_tdo : s.openSession.tdo = s.tdo := rfl
@[simp] theorem State.openSession_ops : s.openSession.ops = s.ops := rfl
@[simp] theorem State.openSession_samples : s.openSession.samples = s.samples := rfl
@[simp] theorem State.openSession_trace : s.openSession.trace = s.trace := rfl

/-! ### `State.hostWrites` -/

@[simp] theorem State.hostWrites_cfg (w : List Byte) : (s.hostWrites w).cfg = s.cfg := rfl
@[simp] theorem State.hostWrites_isOpen (w : List Byte) : (s.hostWrites w).isOpen = s.isOpen := rfl
@[simp] theorem State.hostWrites_busy (w : List Byte) : (s.hostWrites w).busy = s.busy := rfl
@[simp] theorem State.hostWrites_tap (w : List Byte) : (s.hostWrites w).tap = s.tap := rfl
@[simp] theorem State.hostWrites_ir (w : List Byte) : (s.hostWrites w).ir = s.ir := rfl
@[simp] theorem State.hostWrites_selValid (w : List Byte) : (s.hostWrites w).selValid = s.selValid := rfl
@[simp] theorem State.hostWrites_selAp (w : List Byte) : (s.hostWrites w).selAp = s.selAp := rfl
@[simp] theorem State.hostWrites_selBank (w : List Byte) : (s.hostWrites w).selBank = s.selBank := rfl
@[simp] theorem State.hostWrites_device (w : List Byte) : (s.hostWrites w).device = s.device := rfl
@[simp] theorem State.hostWrites_driver (w : List Byte) : (s.hostWrites w).driver = s.driver := rfl
@[simp] theorem State.hostWrites_flashUnlocked (w : List Byte) : (s.hostWrites w).flashUnlocked = s.flashUnlocked := rfl
@[simp] theorem State.hostWrites_catalog (w : List Byte) : (s.hostWrites w).catalog = s.catalog := rfl
@[simp] theorem State.hostWrites_pinTck (w : List Byte) : (s.hostWrites w).pinTck = s.pinTck := rfl
@[simp] theorem State.hostWrites_pinTms (w : List Byte) : (s.hostWrites w).pinTms = s.pinTms := rfl
@[simp] theorem State.hostWrites_pinTdi (w : List Byte) : (s.hostWrites w).pinTdi = s.pinTdi := rfl
@[simp] theorem State.hostWrites_result (w : List Byte) : (s.hostWrites w).result = s.result := rfl
@[simp] theorem State.hostWrites_cmds (w : List Byte) : (s.hostWrites w).cmds = w :: s.cmds := rfl
@[simp] theorem State.hostWrites_link (w : List Byte) : (s.hostWrites w).link = s.link := rfl
@[simp] theorem State.hostWrites_tdo (w : List Byte) : (s.hostWrites w).tdo = s.tdo := rfl
@[simp] theorem State.hostWrites_ops (w : List Byte) : (s.hostWrites w).ops = s.ops := rfl
@[simp] theorem State.hostWrites_samples (w : List Byte) : (s.hostWrites w).samples = s.samples := rfl
@[simp] theorem State.hostWrites_trace (w : List Byte) : (s.hostWrites w).trace = s.trace := rfl

/-! ### `State.driven` -/

@[simp] theorem State.driven_cfg (p : Pin) (l : Bool) : (s.driven p l).cfg = s.cfg := by cases p <;> rfl
@[simp] theorem State.driven_isOpen (p : Pin) (l : Bool) : (s.driven p l).isOpen = s.isOpen := by cases p <;> rfl
@[simp] theorem State.driven_busy (p : Pin) (l : Bool) : (s.driven p l).busy = s.busy := by cases p <;> rfl
@[simp] theorem State.driven_tap (p : Pin) (l : Bool) : (s.driven p l).tap = s.tap := by cases p <;> rfl
@[simp] theorem State.driven_ir (p : Pin) (l : Bool) : (s.driven p l).ir = s.ir := by cases p <;> rfl
@[simp] theorem State.driven_selValid (p : Pin) (l : Bool) : (s.driven p l).selValid = s.selValid := by cases p <;> rfl
@[simp] theorem State.driven_selAp (p : Pin) (l : Bool) : (s.driven p l).selAp = s.selAp := by cases p <;> rfl
@[simp] theorem State.driven_selBank (p : Pin) (l : Bool) : (s.driven p l).selBank = s.selBank := by cases p <;> rfl
@[simp] theorem State.driven_device (p : Pin) (l : Bool) : (s.driven p l).device = s.device := by cases p <;> rfl
@[simp] theorem State.driven_driver (p : Pin) (l : Bool) : (s.driven p l).driver = s.driver := by cases p <;> rfl
@[simp] theorem State.driven_flashUnlocked (p : Pin) (l : Bool) : (s.driven p l).flashUnlocked = s.flashUnlocked := by cases p <;> rfl
@[simp] theorem State.driven_catalog (p : Pin) (l : Bool) : (s.driven p l).catalog = s.catalog := by cases p <;> rfl
@[simp] theorem State.driven_pinTck (p : Pin) (l : Bool) : (s.driven p l).pinTck = if p = .tck then some l else s.pinTck := by
  cases p <;> rfl
@[simp] theorem State.driven_pinTms (p : Pin) (l : Bool) : (s.driven p l).pinTms = if p = .tms then some l else s.pinTms := by
  cases p <;> rfl
@[simp] theorem State.driven_pinTdi (p : Pin) (l : Bool) : (s.driven p l).pinTdi = if p = .tdi then some l else s.pinTdi := by
  cases p <;> rfl
@[simp] theorem State.driven_result (p : Pin) (l : Bool) : (s.driven p l).result = s.result := by cases p <;> rfl
@[simp] theorem State.driven_cmds (p : Pin) (l : Bool) : (s.driven p l).cmds = s.cmds := by cases p <;> rfl
@[simp] theorem State.driven_link (p : Pin) (l : Bool) : (s.driven p l).link = s.link := by cases p <;> rfl
@[simp] theorem State.driven_tdo (p : Pin) (l : Bool) : (s.driven p l).tdo = s.tdo := by cases p <;> rfl
@[simp] theorem State.driven_ops (p : Pin) (l : Bool) : (s.driven p l).ops = s.ops := by cases p <;> rfl
@[simp] theorem State.driven_samples (p : Pin) (l : Bool) : (s.driven p l).samples = s.samples := by cases p <;> rfl
@[simp] theorem State.driven_trace (p : Pin) (l : Bool) : (s.driven p l).trace = s.trace := by cases p <;> rfl

/-! ### `State.afterError` (60_exceptions.md R306 to R308) and `State.enterError` (R310) -/

@[simp] theorem State.afterError_cfg (c : ErrorCode) : (s.afterError c).cfg = s.cfg := by cases c <;> rfl
@[simp] theorem State.afterError_isOpen (c : ErrorCode) : (s.afterError c).isOpen = s.isOpen := by cases c <;> rfl
@[simp] theorem State.afterError_busy (c : ErrorCode) : (s.afterError c).busy = s.busy := by cases c <;> rfl
@[simp] theorem State.afterError_tap (c : ErrorCode) : (s.afterError c).tap = if c = .transportError then .unknown else s.tap := by
  cases c <;> rfl
@[simp] theorem State.afterError_ir (c : ErrorCode) : (s.afterError c).ir = if c = .transportError then none else s.ir := by
  cases c <;> rfl
@[simp] theorem State.afterError_selValid (c : ErrorCode) : (s.afterError c).selValid = if c = .transportError ∨ c = .protocolError then false else s.selValid := by
  cases c <;> rfl
@[simp] theorem State.afterError_selAp (c : ErrorCode) : (s.afterError c).selAp = s.selAp := by cases c <;> rfl
@[simp] theorem State.afterError_selBank (c : ErrorCode) : (s.afterError c).selBank = s.selBank := by cases c <;> rfl
@[simp] theorem State.afterError_device (c : ErrorCode) : (s.afterError c).device = s.device := by cases c <;> rfl
@[simp] theorem State.afterError_driver (c : ErrorCode) : (s.afterError c).driver = s.driver := by cases c <;> rfl
@[simp] theorem State.afterError_flashUnlocked (c : ErrorCode) : (s.afterError c).flashUnlocked = s.flashUnlocked := by cases c <;> rfl
@[simp] theorem State.afterError_catalog (c : ErrorCode) : (s.afterError c).catalog = s.catalog := by cases c <;> rfl
@[simp] theorem State.afterError_pinTck (c : ErrorCode) : (s.afterError c).pinTck = s.pinTck := by cases c <;> rfl
@[simp] theorem State.afterError_pinTms (c : ErrorCode) : (s.afterError c).pinTms = s.pinTms := by cases c <;> rfl
@[simp] theorem State.afterError_pinTdi (c : ErrorCode) : (s.afterError c).pinTdi = s.pinTdi := by cases c <;> rfl
@[simp] theorem State.afterError_result (c : ErrorCode) : (s.afterError c).result = s.result := by cases c <;> rfl
@[simp] theorem State.afterError_cmds (c : ErrorCode) : (s.afterError c).cmds = s.cmds := by cases c <;> rfl
@[simp] theorem State.afterError_link (c : ErrorCode) : (s.afterError c).link = s.link := by cases c <;> rfl
@[simp] theorem State.afterError_tdo (c : ErrorCode) : (s.afterError c).tdo = s.tdo := by cases c <;> rfl
@[simp] theorem State.afterError_ops (c : ErrorCode) : (s.afterError c).ops = s.ops := by cases c <;> rfl
@[simp] theorem State.afterError_samples (c : ErrorCode) : (s.afterError c).samples = s.samples := by cases c <;> rfl
@[simp] theorem State.afterError_trace (c : ErrorCode) : (s.afterError c).trace = s.trace := by cases c <;> rfl
@[simp] theorem State.enterError_cfg (e : ErrorRecord) : (s.enterError e).cfg = (s.afterError e.code).cfg := rfl
@[simp] theorem State.enterError_isOpen (e : ErrorRecord) : (s.enterError e).isOpen = (s.afterError e.code).isOpen := rfl
@[simp] theorem State.enterError_busy (e : ErrorRecord) : (s.enterError e).busy = (s.afterError e.code).busy := rfl
@[simp] theorem State.enterError_tap (e : ErrorRecord) : (s.enterError e).tap = (s.afterError e.code).tap := rfl
@[simp] theorem State.enterError_ir (e : ErrorRecord) : (s.enterError e).ir = (s.afterError e.code).ir := rfl
@[simp] theorem State.enterError_selValid (e : ErrorRecord) : (s.enterError e).selValid = (s.afterError e.code).selValid := rfl
@[simp] theorem State.enterError_selAp (e : ErrorRecord) : (s.enterError e).selAp = (s.afterError e.code).selAp := rfl
@[simp] theorem State.enterError_selBank (e : ErrorRecord) : (s.enterError e).selBank = (s.afterError e.code).selBank := rfl
@[simp] theorem State.enterError_device (e : ErrorRecord) : (s.enterError e).device = (s.afterError e.code).device := rfl
@[simp] theorem State.enterError_driver (e : ErrorRecord) : (s.enterError e).driver = (s.afterError e.code).driver := rfl
@[simp] theorem State.enterError_flashUnlocked (e : ErrorRecord) : (s.enterError e).flashUnlocked = (s.afterError e.code).flashUnlocked := rfl
@[simp] theorem State.enterError_catalog (e : ErrorRecord) : (s.enterError e).catalog = (s.afterError e.code).catalog := rfl
@[simp] theorem State.enterError_pinTck (e : ErrorRecord) : (s.enterError e).pinTck = (s.afterError e.code).pinTck := rfl
@[simp] theorem State.enterError_pinTms (e : ErrorRecord) : (s.enterError e).pinTms = (s.afterError e.code).pinTms := rfl
@[simp] theorem State.enterError_pinTdi (e : ErrorRecord) : (s.enterError e).pinTdi = (s.afterError e.code).pinTdi := rfl
@[simp] theorem State.enterError_result (e : ErrorRecord) : (s.enterError e).result = some (.error e) := rfl
@[simp] theorem State.enterError_cmds (e : ErrorRecord) : (s.enterError e).cmds = (s.afterError e.code).cmds := rfl
@[simp] theorem State.enterError_link (e : ErrorRecord) : (s.enterError e).link = (s.afterError e.code).link := rfl
@[simp] theorem State.enterError_tdo (e : ErrorRecord) : (s.enterError e).tdo = (s.afterError e.code).tdo := rfl
@[simp] theorem State.enterError_ops (e : ErrorRecord) : (s.enterError e).ops = (s.afterError e.code).ops := rfl
@[simp] theorem State.enterError_samples (e : ErrorRecord) : (s.enterError e).samples = (s.afterError e.code).samples := rfl
@[simp] theorem State.enterError_trace (e : ErrorRecord) : (s.enterError e).trace = (s.afterError e.code).trace := rfl

end Sys2Proof.Machine
end

