-- ==== Sys2Proof/Laws/Ops.lean ====
section
/-! SUPPORT. What the shared operations can do: steps in sequence, pin operations, one TCK cycle, a sequence of cycles, the command gate. -/

namespace Sys2Proof.Machine

variable {α β : Type} {s t : State}

/-! ### Sequencing (00_scope.md R15) and relabelling (60_exceptions.md R302) -/

@[simp] theorem Res.bind_ok (a : α) (s : State) (k : α → State → Res β) : (Res.ok a s).bind k = k a s := rfl
@[simp] theorem Res.bind_raise (e : ErrorRecord) (s : State) (k : α → State → Res β) :
    (Res.raise e s : Res α).bind k = .raise e s := rfl

theorem Res.bind_eq_ok {r : Res α} {k : α → State → Res β} {b : β} :
    r.bind k = .ok b t ↔ ∃ a u, r = .ok a u ∧ k a u = .ok b t := by
  cases r <;> simp

theorem Res.bind_eq_raise {r : Res α} {k : α → State → Res β} {e : ErrorRecord} :
    r.bind k = .raise e t ↔ r = .raise e t ∨ ∃ a u, r = .ok a u ∧ k a u = .raise e t := by
  cases r <;> simp

theorem Res.relabel_eq_ok {r : Res α} {f : ErrorRecord → ErrorRecord} {a : α} :
    r.relabel f = .ok a t ↔ r = .ok a t := by
  cases r <;> simp [Res.relabel]

theorem Res.relabel_eq_raise {r : Res α} {f : ErrorRecord → ErrorRecord} {e : ErrorRecord} :
    r.relabel f = .raise e t ↔ ∃ e', r = .raise e' t ∧ f e' = e := by
  cases r with
  | ok => simp [Res.relabel]
  | raise e' u => simp only [Res.relabel, Res.raise.injEq]; constructor
                  · rintro ⟨rfl, rfl⟩; exact ⟨e', ⟨rfl, rfl⟩, rfl⟩
                  · rintro ⟨_, ⟨rfl, rfl⟩, rfl⟩; exact ⟨rfl, rfl⟩

@[simp] theorem atAddr_code (a : Word) (e : ErrorRecord) : (atAddr a e).code = e.code := rfl
@[simp] theorem atStep_code (k : StepKind) (a : Word) (e : ErrorRecord) : (atStep k a e).code = e.code := rfl
@[simp] theorem transportError_code : transportError.code = .transportError := rfl

/-! ### What pin operations leave alone -/

/-- Everything but the TAP mirror, the pin mirrors, the environment's answers and the trace is the same; the trace has grown by operations the block may issue. -/
structure OnlyPins (s t : State) : Prop where
  same : SameBinding s t
  shadow : SameShadow s t
  ir : t.ir = s.ir
  result : t.result = s.result
  trace : ∃ new, t.trace = new ++ s.trace ∧ (new.all fun e => e.op.allowed) = true

theorem SameBinding.refl (s : State) : SameBinding s s := ⟨rfl, rfl, rfl, rfl, rfl, rfl, rfl, rfl⟩
theorem SameShadow.refl (s : State) : SameShadow s s := ⟨rfl, rfl, rfl⟩
theorem SameWire.refl (s : State) : SameWire s s := ⟨rfl, rfl, rfl, rfl, rfl, rfl, rfl, rfl, rfl, rfl⟩

theorem SameBinding.trans {u : State} (h : SameBinding s t) (k : SameBinding t u) : SameBinding s u :=
  ⟨k.1.trans h.1, k.2.trans h.2, k.3.trans h.3, k.4.trans h.4, k.5.trans h.5, k.6.trans h.6, k.7.trans h.7,
    k.8.trans h.8⟩

theorem SameShadow.trans {u : State} (h : SameShadow s t) (k : SameShadow t u) : SameShadow s u :=
  ⟨k.1.trans h.1, k.2.trans h.2, k.3.trans h.3⟩

theorem OnlyPins.refl (s : State) : OnlyPins s s :=
  ⟨.refl s, .refl s, rfl, rfl, [], rfl, rfl⟩

theorem OnlyPins.trans {u : State} (h : OnlyPins s t) (k : OnlyPins t u) : OnlyPins s u := by
  obtain ⟨n, hn, ha⟩ := h.trace
  obtain ⟨m, hm, hb⟩ := k.trace
  exact ⟨h.same.trans k.same, h.shadow.trans k.shadow, k.ir.trans h.ir, k.result.trans h.result,
    m ++ n, by simp [hm, hn], by simp [List.all_append, ha, hb]⟩

theorem OnlyPins.recorded (s : State) (op : PinOp) (a : PinAnswer) (h : op.allowed = true) :
    OnlyPins s (s.advance.record op a) :=
  ⟨⟨rfl, rfl, rfl, rfl, rfl, rfl, rfl, rfl⟩, ⟨rfl, rfl, rfl⟩, rfl, rfl, [⟨op, a⟩], rfl, by simp [h]⟩

theorem OnlyPins.driven (s : State) (p : Pin) (l : Bool) : OnlyPins s (s.driven p l) :=
  ⟨by constructor <;> simp, by constructor <;> simp, by simp, by simp, [], by simp, rfl⟩

theorem OnlyPins.clocked (s : State) (b : Bool) : OnlyPins s (s.clocked b) :=
  ⟨⟨rfl, rfl, rfl, rfl, rfl, rfl, rfl, rfl⟩, ⟨rfl, rfl, rfl⟩, rfl, rfl, [], rfl, rfl⟩

/-! ### Pin operations -/

/-- Everything a pin operation can do (00_scope.md R25). -/
theorem pinOp_cases (op : PinOp) (s : State) :
    pinOp op s = .ok () (s.advance.record op .done) ∨ pinOp op s = .raise transportError (s.advance.record op .failed) := by
  unfold pinOp; split <;> simp

theorem pinOp_ok {op : PinOp} {u : Unit} (h : pinOp op s = .ok u t) : t = s.advance.record op .done := by
  rcases pinOp_cases op s with e | e <;> simp_all

theorem pinOp_raise {op : PinOp} {e : ErrorRecord} (h : pinOp op s = .raise e t) :
    e = transportError ∧ t = s.advance.record op .failed := by
  rcases pinOp_cases op s with k | k <;> simp_all

theorem setPin_ok {p : Pin} {l : Bool} {u : Unit} (h : setPin p l s = .ok u t) :
    t = (s.advance.record (.setPin p l) .done).driven p l := by
  obtain ⟨_, v, hv, hk⟩ := Res.bind_eq_ok.1 h
  rw [pinOp_ok hv] at hk
  simpa using hk.symm

theorem setPin_raise {p : Pin} {l : Bool} {e : ErrorRecord} (h : setPin p l s = .raise e t) :
    e = transportError ∧ t = s.advance.record (.setPin p l) .failed := by
  rcases Res.bind_eq_raise.1 h with k | ⟨_, v, _, hk⟩
  · exact pinOp_raise k
  · simp at hk

/-- Everything a sample can do (40_tap.md R146). -/
theorem getTdo_cases (s : State) :
    getTdo s = .ok (s.tdoBit 0) (s.advance.record (.getPin .tdo) (.level (s.tdoBit 0))).sampled
      ∨ getTdo s = .raise transportError (s.advance.record (.getPin .tdo) .failed) := by
  unfold getTdo; split <;> simp

theorem sampleTdo_ok {b c : Bool} (h : sampleTdo c s = .ok b t) :
    OnlyPins s t ∧ t.tap = s.tap ∧ symbols t.trace = symbols s.trace
      ∧ (∀ p, lastLevel p t.trace = lastLevel p s.trace) ∧ t.pinTms = s.pinTms ∧ t.pinTdi = s.pinTdi
      ∧ t.trace.length = s.trace.length + c.toNat := by
  cases c with
  | false =>
    obtain ⟨rfl, rfl⟩ : false = b ∧ s = t := by simpa [sampleTdo] using h
    exact ⟨.refl s, rfl, rfl, fun _ => rfl, rfl, rfl, rfl⟩
  | true =>
    rcases getTdo_cases s with k | k
    · obtain ⟨-, rfl⟩ : s.tdoBit 0 = b ∧ _ = t := by simpa [sampleTdo, k] using h
      exact ⟨⟨⟨rfl, rfl, rfl, rfl, rfl, rfl, rfl, rfl⟩, ⟨rfl, rfl, rfl⟩, rfl, rfl, [_], rfl, rfl⟩, rfl, rfl, fun _ => rfl, rfl, rfl, rfl⟩
    · simp [sampleTdo, k] at h

theorem sampleTdo_raise {c : Bool} {e : ErrorRecord} (h : sampleTdo c s = .raise e t) :
    e = transportError ∧ OnlyPins s t := by
  cases c with
  | false => simp [sampleTdo] at h
  | true =>
    rcases getTdo_cases s with k | k
    · simp [sampleTdo, k] at h
    · obtain ⟨rfl, rfl⟩ : transportError = e ∧ _ = t := by simpa [sampleTdo, k] using h
      exact ⟨rfl, .recorded s _ _ rfl⟩

/-! ### One TCK cycle -/

/-- The symbol a cycle shows the target. -/
def Cycle.symbol (c : Cycle) : Symbol := ⟨c.tms, c.tdi⟩

/-- The number of pin operations of a cycle: six, or seven with a sample (40_tap.md R146, R156). -/
def Cycle.opCount (c : Cycle) : Nat := 6 + c.sample.toNat

/-- A cycle that is performed: the target sees its symbol, the mirror moves, and nothing but the wire changes (40_tap.md R146). -/
theorem clock_ok {c : Cycle} {b : Bool} (h : clock c s = .ok b t) :
    OnlyPins s t ∧ t.tap = s.tap.next c.tms ∧ Sent s t [c.symbol] ∧ t.pinTck = some true ∧ t.pinTms = some c.tms
      ∧ t.pinTdi = some c.tdi ∧ t.trace.length = s.trace.length + c.opCount := by
  simp only [clock, delay, Res.bind_eq_ok] at h
  obtain ⟨_, s1, h1, _, s2, h2, _, s3, h3, _, s4, h4, b', s5, h5, _, s6, h6, _, s7, h7, h8⟩ := h
  obtain ⟨-, rfl⟩ : b' = b ∧ s7 = t := by simpa using h8
  have p1 := setPin_ok h1; have p2 := setPin_ok h2; have p3 := setPin_ok h3
  have p4 := pinOp_ok h4; have p6 := setPin_ok h6; have p7 := pinOp_ok h7
  obtain ⟨o5, t5, y5, l5, tms5, tdi5, n5⟩ := sampleTdo_ok h5
  have o1 : OnlyPins s s1 := p1 ▸ (OnlyPins.recorded s _ _ rfl).trans (.driven _ _ _)
  have o2 : OnlyPins s1 s2 := p2 ▸ (OnlyPins.recorded s1 _ _ rfl).trans (.driven _ _ _)
  have o3 : OnlyPins s2 s3 := p3 ▸ (OnlyPins.recorded s2 _ _ rfl).trans (.driven _ _ _)
  have o4 : OnlyPins s3 s4 := p4 ▸ OnlyPins.recorded s3 _ _ rfl
  have o6 : OnlyPins s5 s6 := p6 ▸ (OnlyPins.recorded s5 _ _ rfl).trans (.driven _ _ _)
  have o7 : OnlyPins s6 s7 := p7 ▸ (OnlyPins.clocked s6 _).trans (.recorded _ _ _ rfl)
  refine ⟨o1.trans (o2.trans (o3.trans (o4.trans (o5.trans (o6.trans o7))))), ?_, ?_, ?_, ?_, ?_, ?_⟩
  · subst p7 p6; simp [t5]; subst p4 p3 p2 p1; simp
  · subst p7 p6
    simp only [Sent, State.record_trace, State.advance_trace, State.clocked_trace, State.driven_trace, symbols,
      risingEdge, y5, l5]
    subst p4 p3 p2 p1; simp [symbols, lastLevel, Cycle.symbol]
  · subst p7 p6; simp
  · subst p7 p6; simp [tms5]; subst p4 p3 p2 p1; simp
  · subst p7 p6; simp [tdi5]; subst p4 p3 p2 p1; simp
  · subst p7 p6; simp [n5, Cycle.opCount]; subst p4 p3 p2 p1; simp; omega

/-- A cycle that fails raises TransportError and changes nothing but the wire (60_exceptions.md R310). -/
theorem clock_raise {c : Cycle} {e : ErrorRecord} (h : clock c s = .raise e t) : e = transportError ∧ OnlyPins s t := by
  have pin : ∀ {p l u v}, p = Pin.tck ∨ p = Pin.tms ∨ p = Pin.tdi → setPin p l u = .ok () v → OnlyPins u v := by
    intro p l u v hp hv
    exact setPin_ok hv ▸ (OnlyPins.recorded u _ _ (by rcases hp with rfl | rfl | rfl <;> rfl)).trans (.driven _ _ _)
  have pinE : ∀ {p l u v e}, p = Pin.tck ∨ p = Pin.tms ∨ p = Pin.tdi → setPin p l u = .raise e v →
      e = transportError ∧ OnlyPins u v := by
    intro p l u v e hp hv
    obtain ⟨rfl, rfl⟩ := setPin_raise hv
    exact ⟨rfl, .recorded u _ _ (by rcases hp with rfl | rfl | rfl <;> rfl)⟩
  have wait : ∀ {n u v}, pinOp (.delay n) u = .ok () v → OnlyPins u v := fun hv => pinOp_ok hv ▸ .recorded _ _ _ rfl
  have waitE : ∀ {n u v e}, pinOp (.delay n) u = .raise e v → e = transportError ∧ OnlyPins u v := by
    intro n u v e hv
    obtain ⟨rfl, rfl⟩ := pinOp_raise hv
    exact ⟨rfl, .recorded _ _ _ rfl⟩
  simp only [clock, delay, Res.bind_eq_raise] at h
  rcases h with h | ⟨_, s1, h1, h | ⟨_, s2, h2, h | ⟨_, s3, h3, h | ⟨_, s4, h4, h | ⟨_, s5, h5, h |
    ⟨_, s6, h6, h | ⟨_, s7, _, h⟩⟩⟩⟩⟩⟩⟩
  · exact pinE (by simp) h
  · exact ⟨(pinE (by simp) h).1, (pin (by simp) h1).trans (pinE (by simp) h).2⟩
  · exact ⟨(pinE (by simp) h).1, (pin (by simp) h1).trans ((pin (by simp) h2).trans (pinE (by simp) h).2)⟩
  · exact ⟨(waitE h).1, (pin (by simp) h1).trans ((pin (by simp) h2).trans ((pin (by simp) h3).trans (waitE h).2))⟩
  · exact ⟨(sampleTdo_raise h).1, (pin (by simp) h1).trans ((pin (by simp) h2).trans ((pin (by simp) h3).trans
      ((wait h4).trans (sampleTdo_raise h).2)))⟩
  · exact ⟨(pinE (by simp) h).1, (pin (by simp) h1).trans ((pin (by simp) h2).trans ((pin (by simp) h3).trans
      ((wait h4).trans ((sampleTdo_ok h5).1.trans (pinE (by simp) h).2))))⟩
  · exact ⟨(waitE h).1, (pin (by simp) h1).trans ((pin (by simp) h2).trans ((pin (by simp) h3).trans
      ((wait h4).trans ((sampleTdo_ok h5).1.trans ((pin (by simp) h6).trans ((OnlyPins.clocked s6 _).trans
        (waitE h).2))))))⟩
  · simp at h

/-! ### Sequences of cycles -/

/-- The pin operations of a sequence. -/
def opTotal (cs : List Cycle) : Nat := (cs.map Cycle.opCount).sum

/-- The samples of a sequence. -/
def sampleCount (cs : List Cycle) : Nat := cs.countP Cycle.sample

theorem tapAfter_append (q : TapState) (xs ys : List Symbol) : tapAfter q (xs ++ ys) = tapAfter (tapAfter q xs) ys :=
  List.foldl_append ..

theorem Sent.trans {u : State} {xs ys : List Symbol} (h : Sent s t xs) (k : Sent t u ys) : Sent s u (xs ++ ys) := by
  simp only [Sent] at *; simp [h, k]

theorem Sent.refl (s : State) : Sent s s [] := by simp [Sent]

/-- Everything a performed sequence does: the target sees its symbols and the mirror follows them (40_tap.md R144, R146). -/
theorem runCycles_ok {cs : List Cycle} {out : Bits} (h : runCycles cs s = .ok out t) :
    OnlyPins s t ∧ t.tap = tapAfter s.tap (cs.map Cycle.symbol) ∧ Sent s t (cs.map Cycle.symbol)
      ∧ t.trace.length = s.trace.length + opTotal cs := by
  induction cs generalizing s out with
  | nil => obtain ⟨rfl, rfl⟩ : [] = out ∧ s = t := by simpa [runCycles] using h
           exact ⟨.refl s, rfl, .refl s, rfl⟩
  | cons c cs ih =>
    simp only [runCycles, Res.bind_eq_ok] at h
    obtain ⟨b, u, hb, o, v, ho, hv⟩ := h
    obtain ⟨-, rfl⟩ : _ ∧ v = t := by simpa using hv
    obtain ⟨o1, t1, y1, -, -, -, n1⟩ := clock_ok hb
    obtain ⟨o2, t2, y2, n2⟩ := ih ho
    exact ⟨o1.trans o2, by simp [t2, t1, tapAfter, Cycle.symbol], by simpa using y1.trans y2,
      by simp [n2, n1, opTotal]; omega⟩

/-- A sequence that fails raises TransportError and changes nothing but the wire. -/
theorem runCycles_raise {cs : List Cycle} {e : ErrorRecord} (h : runCycles cs s = .raise e t) :
    e = transportError ∧ OnlyPins s t := by
  induction cs generalizing s with
  | nil => simp [runCycles] at h
  | cons c cs ih =>
    simp only [runCycles, Res.bind_eq_raise] at h
    rcases h with h | ⟨b, u, hb, h | ⟨o, v, -, h⟩⟩
    · exact clock_raise h
    · exact ⟨(ih h).1, (clock_ok hb).1.trans (ih h).2⟩
    · simp at h

/-- The pins after a sequence that ends with the cycle `c`. -/
theorem runCycles_append_pins {cs : List Cycle} {c : Cycle} {out : Bits} (h : runCycles (cs ++ [c]) s = .ok out t) :
    t.pinTck = some true ∧ t.pinTms = some c.tms ∧ t.pinTdi = some c.tdi := by
  induction cs generalizing s out with
  | nil =>
    simp only [List.nil_append, runCycles, Res.bind_eq_ok] at h
    obtain ⟨b, u, hb, o, v, ho, hv⟩ := h
    obtain ⟨-, rfl⟩ : _ ∧ v = t := by simpa using hv
    obtain ⟨-, rfl⟩ : _ ∧ u = v := by simpa using ho
    obtain ⟨-, -, -, h1, h2, h3, -⟩ := clock_ok hb
    exact ⟨h1, h2, h3⟩
  | cons c' cs ih =>
    simp only [List.cons_append, runCycles, Res.bind_eq_ok] at h
    obtain ⟨b, u, hb, o, v, ho, hv⟩ := h
    obtain ⟨-, rfl⟩ : _ ∧ v = t := by simpa using hv
    exact ih ho

/-! ### Under a working transport -/

theorem State.advance_link_working (h : s.link = .working) : s.advance.link = .working := by
  simp [h, Link.next]

theorem pinOp_working (op : PinOp) (h : s.link = .working) : pinOp op s = .ok () (s.advance.record op .done) := by
  simp [pinOp, h, Link.next]

theorem setPin_working (p : Pin) (l : Bool) (h : s.link = .working) :
    setPin p l s = .ok () ((s.advance.record (.setPin p l) .done).driven p l) := by
  simp [setPin, pinOp_working _ h]

theorem State.tdoBit_congr (h : t.tdo = s.tdo) (h' : t.samples = s.samples) (k : Nat) : t.tdoBit k = s.tdoBit k := by
  simp [State.tdoBit, h, h']

/-- Sampling a level leaves the ones after it to come. -/
theorem State.sampled_tdoBit (s : State) (k : Nat) : s.sampled.tdoBit k = s.tdoBit (1 + k) := by
  simp only [State.tdoBit, State.sampled_tdo, State.sampled_samples, List.getElem?_drop, Nat.add_assoc]

/-- A sample reads the next level the environment answers. -/
theorem sampleTdo_working (c : Bool) (h : s.link = .working) :
    ∃ t, sampleTdo c s = .ok (c && s.tdoBit 0) t ∧ t.link = .working ∧ ∀ k, t.tdoBit k = s.tdoBit (c.toNat + k) := by
  cases c with
  | false => exact ⟨s, rfl, h, fun k => by simp⟩
  | true =>
    refine ⟨(s.advance.record (.getPin .tdo) (.level (s.tdoBit 0))).sampled, by simp [sampleTdo, getTdo, h, Link.next],
      by simp [h, Link.next], fun k => ?_⟩
    rw [State.sampled_tdoBit, State.tdoBit_congr (s := s) (by simp) (by simp)]; rfl

/-- With a working transport a cycle is performed. -/
theorem clock_working (c : Cycle) (h : s.link = .working) :
    ∃ t, clock c s = .ok (c.sample && s.tdoBit 0) t ∧ t.link = .working
      ∧ ∀ k, t.tdoBit k = s.tdoBit (c.sample.toNat + k) := by
  let s4 := ((((((s.advance.record (.setPin .tck false) .done).driven .tck false).advance.record
    (.setPin .tms c.tms) .done).driven .tms c.tms).advance.record (.setPin .tdi c.tdi) .done).driven .tdi
      c.tdi).advance.record (.delay s.cfg.tckHalfPeriodUs) .done
  have h4 : s4.link = .working := by simp [s4, h, Link.next]
  have b4 : ∀ k, s4.tdoBit k = s.tdoBit k := fun k => State.tdoBit_congr (by simp [s4]) (by simp [s4]) k
  obtain ⟨s5, e5, l5, b5⟩ := sampleTdo_working c.sample h4
  refine ⟨(((s5.advance.record (.setPin .tck true) .done).driven .tck true).clocked c.tms).advance.record
    (.delay s5.cfg.tckHalfPeriodUs) .done, ?_, ?_, ?_⟩
  · simp only [clock, delay]
    rw [setPin_working _ _ h, Res.bind_ok, setPin_working _ _ (by simp [h, Link.next]), Res.bind_ok,
      setPin_working _ _ (by simp [h, Link.next]), Res.bind_ok, pinOp_working _ (by simp [h, Link.next]), Res.bind_ok]
    change (sampleTdo c.sample s4).bind _ = _
    rw [e5, Res.bind_ok, setPin_working _ _ l5, Res.bind_ok, pinOp_working _ (by simp [l5, Link.next]), Res.bind_ok,
      b4]
    simp
  · simp [l5, Link.next]
  · intro k
    rw [State.tdoBit_congr (s := s5) (by simp) (by simp), b5, b4]

/-- The levels a sequence samples, in order. -/
def sampledBits (s : State) (cs : List Cycle) : Bits := s.tdoBits (sampleCount cs)

theorem State.tdoBits_succ (s : State) (n : Nat) :
    s.tdoBits (n + 1) = s.tdoBit 0 :: (List.range n).map fun k => s.tdoBit (1 + k) := by
  simp [State.tdoBits, List.range_succ_eq_map, Function.comp_def, Nat.add_comm]

/-- With a working transport a sequence is performed and returns the next levels TDO answers. -/
theorem runCycles_working (cs : List Cycle) (h : s.link = .working) :
    ∃ t, runCycles cs s = .ok (sampledBits s cs) t ∧ t.link = .working
      ∧ ∀ k, t.tdoBit k = s.tdoBit (sampleCount cs + k) := by
  induction cs generalizing s with
  | nil => exact ⟨s, by simp [runCycles, sampledBits, sampleCount, State.tdoBits], h, fun k => by simp [sampleCount]⟩
  | cons c cs ih =>
    obtain ⟨u, hu, lu, bu⟩ := clock_working c h
    obtain ⟨t, ht, lt, bt⟩ := ih lu
    refine ⟨t, ?_, lt, fun k => ?_⟩
    · simp only [runCycles, hu, Res.bind_ok, ht]
      cases hc : c.sample with
      | false =>
        simp [sampledBits, sampleCount, hc, State.tdoBits, bu]
      | true =>
        simp only [sampledBits, sampleCount, hc, List.countP_cons_of_pos, State.tdoBits_succ]
        simp [State.tdoBits, bu, hc]
    · rw [bt, bu]; cases hc : c.sample <;> simp [sampleCount, hc]
      congr 1; omega

/-! ### Cycles that sample nothing -/

theorem clock_unsampled {c : Cycle} {b : Bool} (hc : c.sample = false) (h : clock c s = .ok b t) :
    t.tdo = s.tdo ∧ t.samples = s.samples := by
  simp only [clock, delay, Res.bind_eq_ok] at h
  obtain ⟨_, s1, h1, _, s2, h2, _, s3, h3, _, s4, h4, b', s5, h5, _, s6, h6, _, s7, h7, h8⟩ := h
  obtain ⟨-, rfl⟩ : b' = b ∧ s7 = t := by simpa using h8
  obtain ⟨-, rfl⟩ : false = b' ∧ s4 = s5 := by simpa [sampleTdo, hc] using h5
  have p1 := setPin_ok h1; have p2 := setPin_ok h2; have p3 := setPin_ok h3
  have p4 := pinOp_ok h4; have p6 := setPin_ok h6; have p7 := pinOp_ok h7
  subst p7 p6 p4 p3 p2 p1
  simp

/-- A sequence that samples nothing leaves the levels TDO answers to come. -/
theorem runCycles_unsampled {cs : List Cycle} {out : Bits} (hc : ∀ c ∈ cs, c.sample = false)
    (h : runCycles cs s = .ok out t) : t.tdo = s.tdo ∧ t.samples = s.samples ∧ out = [] := by
  induction cs generalizing s out with
  | nil =>
    obtain ⟨rfl, rfl⟩ : [] = out ∧ s = t := by simpa [runCycles] using h
    simp
  | cons c cs ih =>
    simp only [runCycles, Res.bind_eq_ok] at h
    obtain ⟨b, u, h1, o, v, h2, h3⟩ := h
    have k := clock_unsampled (hc c (by simp)) h1
    simp only [hc c (by simp), Bool.false_eq_true, if_false, Res.ok.injEq] at h3
    obtain ⟨rfl, rfl⟩ := h3
    obtain ⟨k1, k2, k3⟩ := ih (fun c h => hc c (by simp [h])) h2
    exact ⟨k1.trans k.1, k2.trans k.2, k3⟩

/-! ### The command gate (40_tap.md R141) -/

/-- Everything a command can do: refused by the gate or by its own check, else performed to its end or first error. -/
theorem command_cases (needsOpen : Bool) (check : State → Option Refusal) (body : State → Res Payload) (s : State) :
    (∃ r, orElse (gateRefusal needsOpen s) (check s) = some r ∧ command needsOpen check body s = .refused r)
      ∨ (gateRefusal needsOpen s = none ∧ check s = none
        ∧ command needsOpen check body s = .next (complete (body { s with busy := true }))) := by
  unfold command
  cases hg : gateRefusal needsOpen s with
  | some r => exact .inl ⟨r, rfl, rfl⟩
  | none =>
    cases hc : check s with
    | some r => exact .inl ⟨r, rfl, rfl⟩
    | none => exact .inr ⟨rfl, rfl, rfl⟩

/-- A command that answers a next state passed the gate and its check. -/
theorem command_next {needsOpen : Bool} {check : State → Option Refusal} {body : State → Res Payload}
    (h : command needsOpen check body s = .next t) :
    s.busy = false ∧ (needsOpen = true → s.isOpen = true) ∧ check s = none ∧ t = complete (body { s with busy := true }) := by
  rcases command_cases needsOpen check body s with ⟨r, -, k⟩ | ⟨hg, hc, k⟩
  · rw [k] at h; cases h
  · rw [k] at h
    injection h with h
    refine ⟨?_, ?_, hc, h.symm⟩
    · cases hb : s.busy <;> simp_all [gateRefusal]
    · cases hb : s.isOpen <;> cases hb' : s.busy <;> simp_all [gateRefusal]

/-- A command that passes the gate and its check is performed. -/
theorem command_run {needsOpen : Bool} {check : State → Option Refusal} {body : State → Res Payload}
    (hb : s.busy = false) (ho : needsOpen = true → s.isOpen = true) (hc : check s = none) :
    command needsOpen check body s = .next (complete (body { s with busy := true })) := by
  have : gateRefusal needsOpen s = none := by
    cases hn : needsOpen <;> simp_all [gateRefusal]
  simp [command, this, hc, orElse]

/-- An internal step that answers a next state had an open session and passed its check. -/
theorem internalStep_next {check : State → Option Refusal} {body : State → Res Payload}
    (h : internalStep check body s = .next t) :
    s.isOpen = true ∧ check s = none ∧
      ((∃ p u, body s = .ok p u ∧ t = { u with result := some (.ok p) })
        ∨ ∃ e u, body s = .raise e u ∧ t = u.enterError e) := by
  unfold internalStep at h
  cases ho : s.isOpen with
  | false => simp [ho, orElse] at h
  | true =>
    cases hc : check s with
    | some r => simp [ho, hc, orElse] at h
    | none =>
      simp only [ho, hc, orElse, if_true] at h
      refine ⟨rfl, rfl, ?_⟩
      cases hb : body s with
      | ok p u => rw [hb] at h; injection h with h; exact .inl ⟨p, u, rfl, h.symm⟩
      | raise e u => rw [hb] at h; injection h with h; exact .inr ⟨e, u, rfl, h.symm⟩

/-- An internal step with an open session that passes its check is performed. -/
theorem internalStep_run {check : State → Option Refusal} {body : State → Res Payload} (ho : s.isOpen = true)
    (hc : check s = none) :
    internalStep check body s
      = .next (match body s with
        | .ok p t => { t with result := some (.ok p) }
        | .raise e t => t.enterError e) := by
  simp only [internalStep, ho, hc, if_true, orElse]
  split <;> simp_all

end Sys2Proof.Machine
end

