-- ==== Sys2Proof/Laws/Observer.lean ====
section
/-! SUPPORT. What a target in Run-Test/Idle receives from the symbols of an IR or DR scan (30_encoding.md R110), and where the scans leave its TAP. -/

namespace Sys2Proof.Machine

/-- The observer after a sequence of symbols. -/
def Observer.after (o : Observer) (ys : List Symbol) : Observer := ys.foldl Observer.clock o

theorem Observer.after_append (o : Observer) (xs ys : List Symbol) : o.after (xs ++ ys) = (o.after xs).after ys :=
  List.foldl_append ..

theorem Observer.scans_append (o : Observer) (xs ys : List Symbol) :
    o.scans (xs ++ ys) = o.scans xs ++ (o.after xs).scans ys := by
  induction xs generalizing o with
  | nil => rfl
  | cons x xs ih => simp [Observer.scans, ih, Observer.after]

theorem Observer.after_tap (o : Observer) (ys : List Symbol) : (o.after ys).tap = tapAfter o.tap ys := by
  induction ys generalizing o with
  | nil => rfl
  | cons y ys ih => simp only [Observer.after, List.foldl_cons] at *; rw [ih]; rfl

/-- From Run-Test/Idle the symbols `ys` are received as exactly the scans `xs` and lead back to Run-Test/Idle. -/
structure Receives (ys : List Symbol) (xs : List Scan) : Prop where
  rest : tapAfter .rti ys = .rti
  scans : ∀ o : Observer, o.tap = .rti → o.scans ys = xs

theorem Receives.nil : Receives [] [] := ⟨rfl, fun _ _ => rfl⟩

theorem Receives.append {ys zs : List Symbol} {xs ws : List Scan} (h : Receives ys xs) (k : Receives zs ws) :
    Receives (ys ++ zs) (xs ++ ws) where
  rest := by rw [tapAfter_append, h.rest, k.rest]
  scans o ho := by
    rw [Observer.scans_append, h.scans o ho, k.scans _ (by rw [Observer.after_tap, ho, h.rest])]

theorem Receives.scansOf {ys : List Symbol} {xs : List Scan} (h : Receives ys xs) : scansOf ys = xs := h.scans _ rfl

theorem bodySymbols_cons (b : Bool) {bs : Bits} (h : bs ≠ []) : bodySymbols (b :: bs) = ⟨false, b⟩ :: bodySymbols bs := by
  cases bs with
  | nil => exact absurd rfl h
  | cons => rfl

/-- A shift body in Shift-IR or Shift-DR collects its bits and ends in Exit1. -/
theorem body_received {q e : TapState} (hq : q = .shIr ∧ e = .ex1Ir ∨ q = .shDr ∧ e = .ex1Dr) {bits : Bits} (h : bits ≠ [])
    (sh : Bits) :
    Observer.scans ⟨q, sh⟩ (bodySymbols bits) = [] ∧ Observer.after ⟨q, sh⟩ (bodySymbols bits) = ⟨e, sh ++ bits⟩ := by
  induction bits generalizing sh with
  | nil => exact absurd rfl h
  | cons b bs ih =>
    by_cases hb : bs = []
    · subst hb
      rcases hq with ⟨rfl, rfl⟩ | ⟨rfl, rfl⟩ <;> exact ⟨rfl, rfl⟩
    · rw [bodySymbols_cons b hb]
      have := ih hb (sh ++ [b])
      rcases hq with ⟨rfl, rfl⟩ | ⟨rfl, rfl⟩ <;>
        simpa [Observer.scans, Observer.after, Observer.clock, Observer.update, TapState.next] using this

/-- An IR scan is received as its bits (40_tap.md R148). -/
theorem irSymbols_received {bits : Bits} (h : bits ≠ []) : Receives (irSymbols bits) [.ir bits] := by
  have key : ∀ o : Observer, o.tap = .rti →
      o.scans (irSymbols bits) = [.ir bits] ∧ (o.after (irSymbols bits)).tap = .rti := by
    rintro ⟨q, sh⟩ rfl
    obtain ⟨h1, h2⟩ := body_received (.inl ⟨rfl, rfl⟩ : (TapState.shIr = _ ∧ TapState.ex1Ir = _) ∨ _) h []
    have e : Observer.after ⟨.rti, sh⟩ (lowSymbols tmsIrEntry) = ⟨.shIr, []⟩ := rfl
    have s0 : Observer.scans ⟨.rti, sh⟩ (lowSymbols tmsIrEntry) = [] := rfl
    simp only [irSymbols, Observer.scans_append, Observer.after_append, e, s0, h1, h2]
    exact ⟨rfl, rfl⟩
  exact ⟨by simpa [Observer.after_tap] using (key ⟨.rti, []⟩ rfl).2, fun o ho => (key o ho).1⟩

/-- A DR scan is received as its bits (40_tap.md R150). -/
theorem drSymbols_received {bits : Bits} (h : bits ≠ []) : Receives (drSymbols bits) [.dr bits] := by
  have key : ∀ o : Observer, o.tap = .rti →
      o.scans (drSymbols bits) = [.dr bits] ∧ (o.after (drSymbols bits)).tap = .rti := by
    rintro ⟨q, sh⟩ rfl
    obtain ⟨h1, h2⟩ := body_received (.inr ⟨rfl, rfl⟩ : _ ∨ (TapState.shDr = _ ∧ TapState.ex1Dr = _)) h []
    have e : Observer.after ⟨.rti, sh⟩ (lowSymbols tmsDrEntry) = ⟨.shDr, []⟩ := rfl
    have s0 : Observer.scans ⟨.rti, sh⟩ (lowSymbols tmsDrEntry) = [] := rfl
    simp only [drSymbols, Observer.scans_append, Observer.after_append, e, s0, h1, h2]
    exact ⟨rfl, rfl⟩
  exact ⟨by simpa [Observer.after_tap] using (key ⟨.rti, []⟩ rfl).2, fun o ho => (key o ho).1⟩

/-! ### Cycles and their symbols -/

@[simp] theorem cyclesOf_symbols (c : Bool) (ys : List Symbol) : (cyclesOf c ys).map Cycle.symbol = ys := by
  simp [cyclesOf, Function.comp_def, Cycle.symbol]

theorem irCycles_symbols (bits : Bits) : (irCycles bits).map Cycle.symbol = irSymbols bits := cyclesOf_symbols ..

theorem drCycles_symbols (bits : Bits) : (drCycles bits).map Cycle.symbol = drSymbols bits := by
  simp [drCycles, drSymbols]

theorem bodySymbols_length (bits : Bits) : (bodySymbols bits).length = bits.length := by
  induction bits with
  | nil => rfl
  | cons b bs ih =>
    by_cases h : bs = []
    · subst h; rfl
    · rw [bodySymbols_cons b h]; simp [ih]

theorem bodySymbols_tdi (bits : Bits) : (bodySymbols bits).map Symbol.tdi = bits := by
  induction bits with
  | nil => rfl
  | cons b bs ih =>
    by_cases h : bs = []
    · subst h; rfl
    · rw [bodySymbols_cons b h]; simp [ih]

theorem sampleCount_append (xs ys : List Cycle) : sampleCount (xs ++ ys) = sampleCount xs + sampleCount ys :=
  List.countP_append ..

theorem sampleCount_cyclesOf (c : Bool) (ys : List Symbol) : sampleCount (cyclesOf c ys) = if c then ys.length else 0 := by
  cases c <;> simp [sampleCount, cyclesOf, List.countP_map, Function.comp_def]

theorem sampleCount_irCycles (bits : Bits) : sampleCount (irCycles bits) = 0 := by simp [irCycles, sampleCount_cyclesOf]

theorem sampleCount_drCycles (bits : Bits) : sampleCount (drCycles bits) = bits.length := by
  simp [drCycles, sampleCount_append, sampleCount_cyclesOf, bodySymbols_length]

theorem bitsOf_length (n v : Nat) : (bitsOf n v).length = n := by
  induction n generalizing v with
  | zero => rfl
  | succ n ih => simp [bitsOf, ih]

theorem bitsOf_ne_nil {n : Nat} (h : 0 < n) (v : Nat) : bitsOf n v ≠ [] := by
  intro e; have := bitsOf_length n v; rw [e] at this; simp at this; omega

theorem irBits_ne_nil (code : Byte) : irBits code ≠ [] := bitsOf_ne_nil (by decide) _
theorem frameBits_ne_nil (a : BitVec 2) (r : Bool) (w : Word) : frameBits a r w ≠ [] := bitsOf_ne_nil (by decide) _
theorem frameBits_length (a : BitVec 2) (r : Bool) (w : Word) : (frameBits a r w).length = accLen := bitsOf_length ..

end Sys2Proof.Machine
end

