-- ==== Sys2Proof/Laws/Scan.lean ====
section
/-! SUPPORT. What scans and memory accesses do: in any environment (they visit the wire from Run-Test/Idle and come back, or raise), and under a working transport with the acknowledgments the environment answers. -/

namespace Sys2Proof.Machine

variable {α β : Type} {s t u : State}

/-! ### In any environment -/

/-- What every step of the DAP and flash units keeps, whether it raised or not. -/
structure Grown (s t : State) : Prop where
  same : SameBinding s t
  result : t.result = s.result
  bank : s.selBank &&& 0x0F#8 = 0 → t.selBank &&& 0x0F#8 = 0
  trace : ∃ new, t.trace = new ++ s.trace ∧ (new.all fun e => e.op.allowed) = true

/-- A visit to the wire: from Run-Test/Idle it comes back to Run-Test/Idle, and the target came along. -/
structure Visit (s t : State) : Prop extends Grown s t where
  rest : s.tap = .rti → t.tap = .rti ∧ ∃ ys, Sent s t ys ∧ tapAfter .rti ys = .rti

/-- A step that visits the wire, or raises: after TransportError the position is lost, after any other error the visit is complete (40_tap.md R154). -/
def Res.Visits (s : State) : Res α → Prop
  | .ok _ t => Visit s t
  | .raise e t => Grown s t ∧ (e.code ≠ .transportError → Visit s t)

theorem Grown.refl (s : State) : Grown s s := ⟨.refl s, rfl, id, [], rfl, rfl⟩

theorem Grown.trans (h : Grown s t) (k : Grown t u) : Grown s u := by
  obtain ⟨n, hn, ha⟩ := h.trace
  obtain ⟨m, hm, hb⟩ := k.trace
  exact ⟨h.same.trans k.same, k.result.trans h.result, k.bank ∘ h.bank, m ++ n, by simp [hm, hn],
    by simp [List.all_append, ha, hb]⟩

theorem Visit.refl (s : State) : Visit s s := ⟨.refl s, fun h => ⟨h, [], .refl s, rfl⟩⟩

theorem Visit.trans (h : Visit s t) (k : Visit t u) : Visit s u where
  toGrown := h.toGrown.trans k.toGrown
  rest hs := by
    obtain ⟨ht, ys, y1, y2⟩ := h.rest hs
    obtain ⟨hu, zs, z1, z2⟩ := k.rest ht
    exact ⟨hu, ys ++ zs, y1.trans z1, by rw [tapAfter_append, y2, z2]⟩

theorem OnlyPins.grown (h : OnlyPins s t) : Grown s t :=
  ⟨h.same, h.result, fun hb => h.shadow.selBank ▸ hb, h.trace⟩

theorem Res.Visits.ok (a : α) (s : State) : (Res.ok a s).Visits s := Visit.refl s

theorem Res.Visits.raise (e : ErrorRecord) (s : State) : (Res.raise e s : Res α).Visits s := ⟨.refl s, fun _ => .refl s⟩

theorem Res.Visits.bind {r : Res α} {k : α → State → Res β} (h : r.Visits s)
    (hk : ∀ a t, r = .ok a t → (k a t).Visits t) : (r.bind k).Visits s := by
  cases r with
  | ok a t =>
    have := hk a t rfl
    simp only [Res.bind_ok]
    cases hr : k a t with
    | ok b u => rw [hr] at this; exact Visit.trans h this
    | raise e u => rw [hr] at this; exact ⟨Grown.trans (Visit.toGrown h) this.1, fun he => Visit.trans h (this.2 he)⟩
  | raise e t => exact h

theorem Res.Visits.relabel {r : Res α} {f : ErrorRecord → ErrorRecord} (hf : ∀ e, (f e).code = e.code) (h : r.Visits s) :
    (r.relabel f).Visits s := by
  cases r with
  | ok => exact h
  | raise e t => exact ⟨h.1, fun he => h.2 (by rwa [hf] at he)⟩

/-- A sequence of cycles that leads from Run-Test/Idle back to it is a visit. -/
theorem runCycles_visits {cs : List Cycle} (h : tapAfter .rti (cs.map Cycle.symbol) = .rti) (s : State) :
    (runCycles cs s).Visits s := by
  cases hr : runCycles cs s with
  | ok out t =>
    obtain ⟨o, ht, hy, -⟩ := runCycles_ok hr
    exact ⟨o.grown, fun hs => ⟨by rw [ht, hs, h], _, hy, h⟩⟩
  | raise e t =>
    obtain ⟨rfl, o⟩ := runCycles_raise hr
    exact ⟨o.grown, fun he => absurd rfl he⟩

/-- Writing `ir` leaves a visit a visit. -/
theorem Visit.withIr (h : Visit s t) (ir : Option Bits) : Visit s { t with ir := ir } where
  same := ⟨h.same.1, h.same.2, h.same.3, h.same.4, h.same.5, h.same.6, h.same.7, h.same.8⟩
  result := h.result
  bank := h.bank
  trace := h.trace
  rest := h.rest

theorem scanIr_visits {bits : Bits} (h : bits ≠ []) (s : State) : (scanIr bits s).Visits s := by
  have := runCycles_visits (cs := irCycles bits) (by rw [irCycles_symbols]; exact (irSymbols_received h).rest) s
  unfold scanIr
  cases hr : runCycles (irCycles bits) s with
  | ok a t => rw [hr] at this; exact Visit.withIr this _
  | raise e t => rw [hr] at this; exact this

theorem scanDr_visits {tdi : Bits} (h : tdi ≠ []) (s : State) : (scanDr tdi s).Visits s :=
  runCycles_visits (by rw [drCycles_symbols]; exact (drSymbols_received h).rest) s

theorem shiftFrame_visits {f : Bits} (h : f ≠ []) (n : Nat) (s : State) : (shiftFrame f n s).Visits s := by
  induction n generalizing s with
  | zero =>
    refine (scanDr_visits h s).bind fun out t _ => ?_
    cases classify (ackOf (captured out)) <;> first | exact .ok _ t | exact .raise _ t
  | succ n ih =>
    refine (scanDr_visits h s).bind fun out t _ => ?_
    cases classify (ackOf (captured out)) <;> first | exact .ok _ t | exact .raise _ t | exact ih t

theorem scan35_visits (code : Byte) (a : BitVec 2) (r : Bool) (w : Word) (s : State) : (scan35 code a r w s).Visits s :=
  (scanIr_visits (irBits_ne_nil code) s).bind fun _ t _ => shiftFrame_visits (frameBits_ne_nil a r w) _ t

theorem bankOf_low (reg : Word) : bankOf reg &&& 0x0F#8 = 0 := by
  apply BitVec.eq_of_getLsbD_eq
  intro i hi
  interval_cases i <;> simp [bankOf]

/-- The selection writes the shadow and nothing else of the block's state (41_dap.md R186). -/
theorem selectBody_visits (ap : Byte) (reg : Word) (s : State) : (selectBody ap reg s).Visits s := by
  have lift : ∀ {t}, Grown { s with selValid := false } t → Grown s t := fun h =>
    ⟨⟨h.same.1, h.same.2, h.same.3, h.same.4, h.same.5, h.same.6, h.same.7, h.same.8⟩, h.result, h.bank, h.trace⟩
  have := scan35_visits s.cfg.irDpacc regSelect false (selWord ap reg) { s with selValid := false }
  unfold selectBody dpWrite
  cases hr : scan35 s.cfg.irDpacc regSelect false (selWord ap reg) { s with selValid := false } with
  | ok a t =>
    rw [hr] at this
    have v : Visit { s with selValid := false } t := this
    have g := lift v.toGrown
    exact ⟨⟨⟨g.same.1, g.same.2, g.same.3, g.same.4, g.same.5, g.same.6, g.same.7, g.same.8⟩, g.result,
      fun _ => bankOf_low reg, g.trace⟩, v.rest⟩
  | raise e t =>
    rw [hr] at this
    exact ⟨lift this.1, fun he => ⟨lift this.1, (this.2 he).rest⟩⟩

theorem ensureBank0_visits (s : State) : (ensureBank0 s).Visits s := by
  unfold ensureBank0; split
  · exact .ok () s
  · exact selectBody_visits _ _ s

theorem memRead_visits (addr : Word) (s : State) : (memRead addr s).Visits s := by
  refine Res.Visits.relabel (fun _ => rfl) ?_
  refine (ensureBank0_visits s).bind fun _ _ _ => (scan35_visits ..).bind fun _ _ _ => (scan35_visits ..).bind fun _ _ _ =>
    (scan35_visits ..).bind fun _ _ _ => scan35_visits ..

theorem memWriteSized_visits (size : AccessSize) (addr data : Word) (s : State) :
    (memWriteSized size addr data s).Visits s := by
  refine Res.Visits.relabel (fun _ => rfl) ?_
  refine (ensureBank0_visits s).bind fun _ _ _ => (scan35_visits ..).bind fun _ _ _ => (scan35_visits ..).bind fun _ _ _ =>
    (scan35_visits ..).bind fun _ _ _ => (scan35_visits ..).bind fun _ _ _ => .ok _ _

theorem memWrite_visits (addr v : Word) (s : State) : (memWrite addr v s).Visits s := memWriteSized_visits ..

theorem memWriteHalf_visits (addr : Word) (h : BitVec 16) (s : State) : (memWriteHalf addr h s).Visits s :=
  memWriteSized_visits ..

theorem readWords_visits (n : Nat) (addr : Word) (s : State) : (readWords n addr s).Visits s := by
  induction n generalizing addr s with
  | zero => exact .ok _ s
  | succ n ih => exact (memRead_visits addr s).bind fun _ _ _ => (ih ..).bind fun _ _ _ => .ok _ _

theorem writeWords_visits (addr : Word) (data : List Byte) (s : State) : (writeWords addr data s).Visits s := by
  fun_induction writeWords addr data s with
  | case1 addr s b0 b1 b2 b3 rest ih => exact (memWrite_visits ..).bind fun _ t _ => ih t
  | case2 => exact .ok _ _

/-- Everything the TAP reset can do (40_tap.md R147). -/
theorem resetCycles_cases (s : State) :
    (∃ t, resetCycles s = .ok () t ∧ Grown s t ∧ SameShadow s t ∧ t.tap = .rti ∧ Sent s t (lowSymbols tmsTapReset)
        ∧ t.ir = s.ir ∧ t.tdo = s.tdo)
      ∨ ∃ t, resetCycles s = .raise transportError t ∧ Grown s t ∧ SameShadow s t := by
  have low : ∀ ys, ∀ c ∈ cyclesOf false ys, c.sample = false := by
    intro ys c h
    simp only [cyclesOf, List.mem_map] at h
    obtain ⟨y, -, rfl⟩ := h; rfl
  unfold resetCycles
  cases h1 : runCycles (cyclesOf false (lowSymbols (tmsTapReset.take 5))) s with
  | raise e u => obtain ⟨rfl, o⟩ := runCycles_raise h1; exact .inr ⟨u, rfl, o.grown, o.shadow⟩
  | ok b u =>
    obtain ⟨o, -, y, -⟩ := runCycles_ok h1
    have join : ∀ w, OnlyPins { u with tap := .tlr } w → Grown s w ∧ SameShadow s w := fun w k => by
      have k' : OnlyPins u w := ⟨⟨k.same.1, k.same.2, k.same.3, k.same.4, k.same.5, k.same.6, k.same.7, k.same.8⟩,
        ⟨k.shadow.1, k.shadow.2, k.shadow.3⟩, k.ir, k.result, k.trace⟩
      exact ⟨(o.trans k').grown, (o.trans k').shadow⟩
    simp only [Res.bind_ok]
    cases h2 : runCycles (cyclesOf false (lowSymbols (tmsTapReset.drop 5))) { u with tap := .tlr } with
    | raise e w => obtain ⟨rfl, k⟩ := runCycles_raise h2; exact .inr ⟨w, rfl, join w k⟩
    | ok b w =>
      obtain ⟨k, tk, yk, -⟩ := runCycles_ok h2
      rw [cyclesOf_symbols] at tk yk y
      have y' : Sent u w (lowSymbols (tmsTapReset.drop 5)) := yk
      exact .inl ⟨w, rfl, (join w k).1, (join w k).2, tk, y.trans y', k.ir.trans o.ir,
        (runCycles_unsampled (low _) h2).1.trans (runCycles_unsampled (low _) h1).1⟩

/-! ### Scans keep the SELECT shadow (10_state.md R35) -/

theorem Res.bind_shadow {r : Res α} {k : α → State → Res β} (h : SameShadow s r.state)
    (hk : ∀ a u, r = .ok a u → SameShadow u (k a u).state) : SameShadow s (r.bind k).state := by
  cases r with
  | ok a u => exact SameShadow.trans h (hk a u rfl)
  | raise e u => exact h

theorem runCycles_shadow (cs : List Cycle) (s : State) : SameShadow s (runCycles cs s).state := by
  cases h : runCycles cs s with
  | ok out t => exact (runCycles_ok h).1.shadow
  | raise e t => exact (runCycles_raise h).2.shadow

theorem scanIr_shadow (bits : Bits) (s : State) : SameShadow s (scanIr bits s).state :=
  Res.bind_shadow (runCycles_shadow ..) fun _ _ _ => ⟨rfl, rfl, rfl⟩

theorem shiftFrame_shadow (f : Bits) (n : Nat) (s : State) : SameShadow s (shiftFrame f n s).state := by
  induction n generalizing s with
  | zero =>
    refine Res.bind_shadow (runCycles_shadow ..) fun out u _ => ?_
    cases classify (ackOf (captured out)) <;> exact .refl u
  | succ n ih =>
    refine Res.bind_shadow (runCycles_shadow ..) fun out u _ => ?_
    cases classify (ackOf (captured out)) with
    | ok => exact .refl u
    | wait => exact ih u
    | invalid => exact .refl u

/-- An access writes no field of the SELECT shadow, whether it is acknowledged or not. -/
theorem scan35_shadow (code : Byte) (a : BitVec 2) (rnw : Bool) (w : Word) (s : State) :
    SameShadow s (scan35 code a rnw w s).state :=
  Res.bind_shadow (scanIr_shadow ..) fun _ _ _ => shiftFrame_shadow ..

/-! ### Under a working transport -/

/-- With a working transport, from Run-Test/Idle: `n` levels were sampled, the target received exactly the scans `xs`, and the block is back in Run-Test/Idle. -/
structure Ran (s t : State) (n : Nat) (xs : List Scan) : Prop where
  link : t.link = .working
  tap : t.tap = .rti
  tdo : ∀ k, t.tdoBit k = s.tdoBit (n + k)
  sent : ∃ ys, Sent s t ys ∧ Receives ys xs
  same : SameBinding s t
  result : t.result = s.result

theorem Ran.refl (hl : s.link = .working) (ht : s.tap = .rti) : Ran s s 0 [] :=
  ⟨hl, ht, fun k => by simp, ⟨[], .refl s, .nil⟩, .refl s, rfl⟩

theorem Ran.trans {n m : Nat} {xs ws : List Scan} (h : Ran s t n xs) (k : Ran t u m ws) : Ran s u (n + m) (xs ++ ws) where
  link := k.link
  tap := k.tap
  tdo j := by rw [k.tdo, h.tdo, Nat.add_assoc]
  sent := by
    obtain ⟨ys, y1, y2⟩ := h.sent
    obtain ⟨zs, z1, z2⟩ := k.sent
    exact ⟨ys ++ zs, y1.trans z1, y2.append z2⟩
  same := h.same.trans k.same
  result := k.result.trans h.result

theorem Ran.sentScans {n : Nat} {xs : List Scan} (h : Ran s t n xs) : SentScans s t xs := by
  obtain ⟨ys, y1, y2⟩ := h.sent
  exact ⟨ys, y1, y2.scansOf⟩

/-- After whole frames the next frames are the later ones. -/
theorem Ran.frameAt {m : Nat} {xs : List Scan} (h : Ran s t (accLen * m) xs) (j : Nat) :
    t.frameAt j = s.frameAt (m + j) := by
  simp only [State.frameAt, h.tdo]
  congr 2; funext k; congr 1; ring

theorem scanIr_working {bits : Bits} (hb : bits ≠ []) (hl : s.link = .working) (ht : s.tap = .rti) :
    ∃ t, scanIr bits s = .ok () t ∧ Ran s t 0 [.ir bits] ∧ t.ir = some bits ∧ SameShadow s t := by
  obtain ⟨t, hr, lt, bt⟩ := runCycles_working (irCycles bits) hl
  obtain ⟨o, tt, yt, -⟩ := runCycles_ok hr
  rw [irCycles_symbols] at tt yt
  refine ⟨{ t with ir := some bits }, by simp [scanIr, hr], ⟨lt, ?_, fun k => ?_, ⟨_, yt, irSymbols_received hb⟩, ?_, o.result⟩,
    rfl, ?_⟩
  · show t.tap = .rti
    rw [tt, ht, (irSymbols_received hb).rest]
  · have := bt k
    rw [sampleCount_irCycles] at this; exact this
  · exact ⟨o.same.1, o.same.2, o.same.3, o.same.4, o.same.5, o.same.6, o.same.7, o.same.8⟩
  · exact ⟨o.shadow.1, o.shadow.2, o.shadow.3⟩

theorem scanDr_working {tdi : Bits} (hb : tdi ≠ []) (hl : s.link = .working) (ht : s.tap = .rti) :
    ∃ t, scanDr tdi s = .ok (s.tdoBits tdi.length) t ∧ Ran s t tdi.length [.dr tdi] ∧ t.ir = s.ir ∧ SameShadow s t := by
  obtain ⟨t, hr, lt, bt⟩ := runCycles_working (drCycles tdi) hl
  obtain ⟨o, tt, yt, -⟩ := runCycles_ok hr
  rw [drCycles_symbols] at tt yt
  rw [sampledBits, sampleCount_drCycles] at hr
  refine ⟨t, hr, ⟨lt, by rw [tt, ht, (drSymbols_received hb).rest], fun k => ?_, ⟨_, yt, drSymbols_received hb⟩, o.same,
    o.result⟩, o.ir, o.shadow⟩
  rw [bt, sampleCount_drCycles]

theorem captured_tdoBits (s : State) : captured (s.tdoBits accLen) = s.frameAt 0 := by
  simp [State.frameAt, State.tdoBits]

theorem classify_ok : classify 0b010#3 = .ok := rfl
theorem classify_wait : classify 0b001#3 = .wait := rfl

/-- The bounded retry succeeds: `r` WAITs, then OK, with `r` no more than the retries allowed (41_dap.md R185). -/
theorem shiftFrame_answered {f : Bits} (hf : f.length = accLen) (r n : Nat) (hr : r ≤ n) (hl : s.link = .working)
    (ht : s.tap = .rti) (hw : ∀ j < r, ackOf (s.frameAt j) = 0b001#3) (ho : ackOf (s.frameAt r) = 0b010#3) :
    ∃ t, shiftFrame f n s = .ok (rdataOf (s.frameAt r)) t ∧ Ran s t (accLen * (r + 1)) (List.replicate (r + 1) (.dr f))
      ∧ t.ir = s.ir ∧ SameShadow s t := by
  have hne : f ≠ [] := by intro e; simp [e, accLen] at hf
  induction r generalizing n s with
  | zero =>
    obtain ⟨t, ht', rt, it, st⟩ := scanDr_working hne hl ht
    rw [hf] at ht' rt
    refine ⟨t, ?_, by simpa using rt, it, st⟩
    cases n <;> simp [shiftFrame, ht', captured_tdoBits, ho, classify_ok]
  | succ r ih =>
    obtain ⟨n, rfl⟩ : ∃ m, n = m + 1 := ⟨n - 1, by omega⟩
    obtain ⟨u, hu, ru, iu, su⟩ := scanDr_working hne hl ht
    rw [hf] at hu ru
    have fr : ∀ j, u.frameAt j = s.frameAt (1 + j) := fun j => Ran.frameAt (m := 1) (by simpa using ru) j
    obtain ⟨t, ht', rt, it, st⟩ := ih n (by omega) ru.link ru.tap
      (fun j hj => by rw [fr]; exact hw _ (by omega)) (by rw [fr, Nat.add_comm]; exact ho)
    refine ⟨t, ?_, ?_, it.trans iu, su.trans st⟩
    · simp [shiftFrame, hu, captured_tdoBits, hw 0 (by omega), classify_wait, ht', fr, Nat.add_comm 1 r]
    · have := ru.trans rt
      rw [show accLen * (r + 1 + 1) = accLen + accLen * (r + 1) by ring, List.replicate_succ]
      exact this

/-- The bounded retry fails: `r` WAITs, then an invalid acknowledgment, or a WAIT with no retry left (41_dap.md R185). -/
theorem shiftFrame_failed {f : Bits} (hf : f.length = accLen) (r n : Nat) (hr : r ≤ n) (hl : s.link = .working)
    (ht : s.tap = .rti) (hw : ∀ j < r, ackOf (s.frameAt j) = 0b001#3)
    (ho : classify (ackOf (s.frameAt r)) = .invalid ∨ classify (ackOf (s.frameAt r)) = .wait ∧ r = n) :
    ∃ t, shiftFrame f n s = .raise (protocolError (ackOf (s.frameAt r))) t
      ∧ Ran s t (accLen * (r + 1)) (List.replicate (r + 1) (.dr f)) ∧ t.ir = s.ir ∧ SameShadow s t := by
  have hne : f ≠ [] := by intro e; simp [e, accLen] at hf
  induction r generalizing n s with
  | zero =>
    obtain ⟨t, ht', rt, it, st⟩ := scanDr_working hne hl ht
    rw [hf] at ht' rt
    refine ⟨t, ?_, by simpa using rt, it, st⟩
    rcases ho with ho | ⟨ho, rfl⟩
    · cases n <;> simp [shiftFrame, ht', captured_tdoBits, ho]
    · simp [shiftFrame, ht', captured_tdoBits, ho]
  | succ r ih =>
    obtain ⟨n, rfl⟩ : ∃ m, n = m + 1 := ⟨n - 1, by omega⟩
    obtain ⟨u, hu, ru, iu, su⟩ := scanDr_working hne hl ht
    rw [hf] at hu ru
    have fr : ∀ j, u.frameAt j = s.frameAt (1 + j) := fun j => Ran.frameAt (m := 1) (by simpa using ru) j
    obtain ⟨t, ht', rt, it, st⟩ := ih n (by omega) ru.link ru.tap
      (fun j hj => by rw [fr]; exact hw _ (by omega))
      (by rw [fr, Nat.add_comm]; rcases ho with ho | ⟨ho, e⟩
          · exact .inl ho
          · exact .inr ⟨ho, by omega⟩)
    refine ⟨t, ?_, ?_, it.trans iu, su.trans st⟩
    · simp [shiftFrame, hu, captured_tdoBits, hw 0 (by omega), classify_wait, ht', fr, Nat.add_comm 1 r]
    · have := ru.trans rt
      rw [show accLen * (r + 1 + 1) = accLen + accLen * (r + 1) by ring, List.replicate_succ]
      exact this

/-- An access answered OK after `r` WAITs (41_dap.md R185). -/
theorem scan35_answered (code : Byte) (a : BitVec 2) (rnw : Bool) (w : Word) (r : Nat) (hl : s.link = .working)
    (ht : s.tap = .rti) (hr : r ≤ s.cfg.waitRetryMax) (hw : ∀ j < r, ackOf (s.frameAt j) = 0b001#3)
    (ho : ackOf (s.frameAt r) = 0b010#3) :
    ∃ t, scan35 code a rnw w s = .ok (rdataOf (s.frameAt r)) t
      ∧ Ran s t (accLen * (r + 1)) (.ir (irBits code) :: List.replicate (r + 1) (.dr (frameBits a rnw w)))
      ∧ t.ir = some (irBits code) ∧ SameShadow s t := by
  obtain ⟨u, hu, ru, iu, su⟩ := scanIr_working (irBits_ne_nil code) hl ht
  have fr : ∀ j, u.frameAt j = s.frameAt j := fun j => by
    have := Ran.frameAt (m := 0) (by simpa using ru) j; simpa using this
  obtain ⟨t, ht', rt, it, st⟩ := shiftFrame_answered (frameBits_length a rnw w) r u.cfg.waitRetryMax
    (by rw [ru.same.cfg]; exact hr) ru.link ru.tap (fun j hj => by rw [fr]; exact hw j hj) (by rw [fr]; exact ho)
  refine ⟨t, by simp [scan35, hu, ht', fr], ?_, it.trans iu, su.trans st⟩
  simpa using ru.trans rt

/-- An access that ends in ProtocolError after `r` WAITs (41_dap.md R185). -/
theorem scan35_failed (code : Byte) (a : BitVec 2) (rnw : Bool) (w : Word) (r : Nat) (hl : s.link = .working)
    (ht : s.tap = .rti) (hr : r ≤ s.cfg.waitRetryMax) (hw : ∀ j < r, ackOf (s.frameAt j) = 0b001#3)
    (ho : classify (ackOf (s.frameAt r)) = .invalid
      ∨ classify (ackOf (s.frameAt r)) = .wait ∧ r = s.cfg.waitRetryMax) :
    ∃ t, scan35 code a rnw w s = .raise (protocolError (ackOf (s.frameAt r))) t
      ∧ Ran s t (accLen * (r + 1)) (.ir (irBits code) :: List.replicate (r + 1) (.dr (frameBits a rnw w)))
      ∧ t.ir = some (irBits code) ∧ SameShadow s t := by
  obtain ⟨u, hu, ru, iu, su⟩ := scanIr_working (irBits_ne_nil code) hl ht
  have fr : ∀ j, u.frameAt j = s.frameAt j := fun j => by
    have := Ran.frameAt (m := 0) (by simpa using ru) j; simpa using this
  obtain ⟨t, ht', rt, it, st⟩ := shiftFrame_failed (frameBits_length a rnw w) r u.cfg.waitRetryMax
    (by rw [ru.same.cfg]; exact hr) ru.link ru.tap (fun j hj => by rw [fr]; exact hw j hj)
    (by rw [fr, ru.same.cfg]; exact ho)
  refine ⟨t, by simp [scan35, hu, ht', fr], ?_, it.trans iu, su.trans st⟩
  simpa using ru.trans rt

/-- An access acknowledged at once (41_dap.md R185). -/
theorem scan35_acked (code : Byte) (a : BitVec 2) (rnw : Bool) (w : Word) (hl : s.link = .working) (ht : s.tap = .rti)
    (ho : ackOf (s.frameAt 0) = 0b010#3) :
    ∃ t, scan35 code a rnw w s = .ok (rdataOf (s.frameAt 0)) t ∧ Ran s t accLen (accessScans code a rnw w)
      ∧ t.ir = some (irBits code) ∧ SameShadow s t := by
  obtain ⟨u, hu, ru, iu, su⟩ := scanIr_working (irBits_ne_nil code) hl ht
  have fr : ∀ j, u.frameAt j = s.frameAt j := fun j => by
    have := Ran.frameAt (m := 0) (by simpa using ru) j; simpa using this
  obtain ⟨t, ht', rt, it, st⟩ := shiftFrame_answered (frameBits_length a rnw w) 0 u.cfg.waitRetryMax (Nat.zero_le _) ru.link
    ru.tap (fun j hj => absurd hj (by omega)) (by rw [fr]; exact ho)
  refine ⟨t, by simp [scan35, hu, ht', fr], ?_, it.trans iu, su.trans st⟩
  have := ru.trans rt
  simpa [accessScans] using this

theorem acksOk_get {n : Nat} (h : s.acksOk n = true) {j : Nat} (hj : j < n) : ackOf (s.frameAt j) = 0b010#3 := by
  simp only [State.acksOk, List.all_eq_true, List.mem_range, beq_iff_eq] at h
  exact h j hj

/-- The selection of a memory access, when its acknowledgment is OK (41_dap.md R186, R190). -/
theorem ensureBank0_acked (hl : s.link = .working) (ht : s.tap = .rti) (ha : s.acksOk s.selectCount = true) :
    ∃ t, ensureBank0 s = .ok () t ∧ Ran s t (accLen * s.selectCount) (selectScans s) ∧ t.selValid = true
      ∧ t.selAp = s.accessAp ∧ t.selBank = 0 := by
  cases hb : s.bank0 with
  | true =>
    have hv : s.selValid = true ∧ s.selBank = 0#8 := by simpa [State.bank0] using hb
    refine ⟨s, by simp [ensureBank0, hb], by simpa [State.selectCount, selectScans, hb] using Ran.refl hl ht, hv.1, ?_, hv.2⟩
    simp [State.accessAp, hv.1]
  | false =>
    have h0 : ackOf (s.frameAt 0) = 0b010#3 := acksOk_get ha (by simp [State.selectCount, hb])
    let s' : State := { s with selValid := false }
    obtain ⟨t, h1, r1, -, -⟩ := scan35_acked (s := s') s.cfg.irDpacc regSelect false (selWord s.accessAp 0) hl ht h0
    refine ⟨{ t with selValid := true, selAp := s.accessAp, selBank := bankOf 0 }, ?_, ?_, rfl, rfl, rfl⟩
    · simp only [ensureBank0, hb, selectBody, dpWrite]
      change Res.bind (scan35 s.cfg.irDpacc regSelect false (selWord s.accessAp 0) s') _ = _
      rw [h1]; rfl
    · simp only [State.selectCount, selectScans, hb]
      obtain ⟨ys, y1, y2⟩ := r1.sent
      exact ⟨r1.link, r1.tap, fun k => (r1.tdo k).trans (by simp; rfl), ⟨ys, y1, by simpa using y2⟩,
        ⟨r1.same.1, r1.same.2, r1.same.3, r1.same.4, r1.same.5, r1.same.6, r1.same.7, r1.same.8⟩, r1.result⟩

/-- The sequence of four accesses after the selection: CSW, TAR, a DRW access and RDBUFF (41_dap.md R192, R193). -/
theorem access4_acked (size : AccessSize) (addr data : Word) (rnw : Bool) (hl : s.link = .working) (ht : s.tap = .rti)
    (ha : ∀ j < 4, ackOf (s.frameAt j) = 0b010#3) :
    ∃ t1 t2 t3 t4, apWrite regCsw (cswWord s.cfg.cswBase size) s = .ok (rdataOf (s.frameAt 0)) t1
      ∧ apWrite regTar addr t1 = .ok (rdataOf (s.frameAt 1)) t2
      ∧ scan35 t2.cfg.irApacc regDrw rnw data t2 = .ok (rdataOf (s.frameAt 2)) t3
      ∧ dpRead regRdbuff t3 = .ok (rdataOf (s.frameAt 3)) t4
      ∧ Ran s t4 (accLen * 4)
          (accessScans s.cfg.irApacc regCsw false (cswWord s.cfg.cswBase size) ++ accessScans s.cfg.irApacc regTar false addr
            ++ accessScans s.cfg.irApacc regDrw rnw data ++ accessScans s.cfg.irDpacc regRdbuff true 0)
      ∧ t4.ir = some (irBits s.cfg.irDpacc) ∧ SameShadow s t4 := by
  obtain ⟨t1, h1, r1, -, s1⟩ := scan35_acked s.cfg.irApacc regCsw false (cswWord s.cfg.cswBase size) hl ht (ha 0 (by omega))
  have f1 : ∀ j, t1.frameAt j = s.frameAt (1 + j) := fun j => Ran.frameAt (m := 1) (by simpa using r1) j
  obtain ⟨t2, h2, r2, -, s2⟩ := scan35_acked t1.cfg.irApacc regTar false addr r1.link r1.tap (by rw [f1]; exact ha 1 (by omega))
  have r12 := r1.trans r2
  have f2 : ∀ j, t2.frameAt j = s.frameAt (2 + j) := fun j =>
    Ran.frameAt (m := 2) (by rw [show accLen * 2 = accLen + accLen by ring]; exact r12) j
  obtain ⟨t3, h3, r3, -, s3⟩ := scan35_acked t2.cfg.irApacc regDrw rnw data r2.link r2.tap (by rw [f2]; exact ha 2 (by omega))
  have r13 := r12.trans r3
  have f3 : ∀ j, t3.frameAt j = s.frameAt (3 + j) := fun j =>
    Ran.frameAt (m := 3) (by rw [show accLen * 3 = accLen + accLen + accLen by ring]; exact r13) j
  obtain ⟨t4, h4, r4, i4, s4⟩ := scan35_acked t3.cfg.irDpacc regRdbuff true 0 r3.link r3.tap (by rw [f3]; exact ha 3 (by omega))
  have r14 := r13.trans r4
  have c1 : t1.cfg = s.cfg := r1.same.cfg
  have c2 : t2.cfg = s.cfg := r2.same.cfg.trans c1
  have c3 : t3.cfg = s.cfg := r3.same.cfg.trans c2
  refine ⟨t1, t2, t3, t4, h1, ?_, ?_, ?_, ?_, by rw [i4, c3], s1.trans (s2.trans (s3.trans s4))⟩
  · unfold apWrite; rw [h2, f1]
  · rw [h3, f2]
  · unfold dpRead; rw [h4, f3]
  · rw [show accLen * 4 = accLen + accLen + accLen + accLen by ring]
    rw [c1, c2, c3] at r14; exact r14

/-- What one or more memory accesses leave: `m` frames and the scans `xs` after the selection, the shadow on bank 0 of the access's AP, and IR holding DPACC. -/
structure Accessed (s t : State) (m : Nat) (xs : List Scan) : Prop where
  ran : Ran s t (accLen * (s.selectCount + m)) (selectScans s ++ xs)
  ir : t.ir = some (irBits s.cfg.irDpacc)
  selValid : t.selValid = true
  selAp : t.selAp = s.accessAp
  selBank : t.selBank = 0

/-- `MemRead` under a working transport with every acknowledgment OK returns the word its last frame carries (41_dap.md R192). -/
theorem memRead_acked (addr : Word) (hl : s.link = .working) (ht : s.tap = .rti)
    (ha : s.acksOk (s.selectCount + 4) = true) :
    ∃ t, memRead addr s = .ok (rdataOf (s.frameAt (s.selectCount + 3))) t
      ∧ Accessed s t 4 (readScans s.cfg.toRawParams addr) := by
  obtain ⟨u, hu, ru, v, a, b⟩ := ensureBank0_acked hl ht (by
    simp only [State.acksOk, List.all_eq_true, List.mem_range, beq_iff_eq] at ha ⊢
    exact fun j hj => ha j (by omega))
  have fr := fun j => ru.frameAt j
  obtain ⟨t1, t2, t3, t4, h1, h2, h3, h4, r4, i4, s4⟩ := access4_acked (s := u) .word addr 0 true ru.link ru.tap
    (fun j hj => by rw [fr]; exact acksOk_get ha (by omega))
  have cu : u.cfg = s.cfg := ru.same.cfg
  refine ⟨t4, ?_, ?_, by rw [i4, cu], by rw [s4.1, v], by rw [s4.2, a], by rw [s4.3, b]⟩
  · simp only [memRead, hu, Res.bind_ok, h1, h2, apRead, h3, h4, fr, Res.relabel]
  · rw [show accLen * (s.selectCount + 4) = accLen * s.selectCount + accLen * 4 by ring]
    rw [cu] at r4
    exact ru.trans r4

/-- A memory write under a working transport with every acknowledgment OK (41_dap.md R193, R194). -/
theorem memWriteSized_acked (size : AccessSize) (addr data : Word) (hl : s.link = .working) (ht : s.tap = .rti)
    (ha : s.acksOk (s.selectCount + 4) = true) :
    ∃ t, memWriteSized size addr data s = .ok () t ∧ Accessed s t 4 (writeScans s.cfg.toRawParams size addr data) := by
  obtain ⟨u, hu, ru, v, a, b⟩ := ensureBank0_acked hl ht (by
    simp only [State.acksOk, List.all_eq_true, List.mem_range, beq_iff_eq] at ha ⊢
    exact fun j hj => ha j (by omega))
  have fr := fun j => ru.frameAt j
  obtain ⟨t1, t2, t3, t4, h1, h2, h3, h4, r4, i4, s4⟩ := access4_acked (s := u) size addr data false ru.link ru.tap
    (fun j hj => by rw [fr]; exact acksOk_get ha (by omega))
  have cu : u.cfg = s.cfg := ru.same.cfg
  refine ⟨t4, ?_, ?_, by rw [i4, cu], by rw [s4.1, v], by rw [s4.2, a], by rw [s4.3, b]⟩
  · have h3' : apWrite regDrw data t2 = _ := h3
    simp only [memWriteSized, hu, Res.bind_ok, h1, h2, h3', h4, Res.relabel]
  · rw [show accLen * (s.selectCount + 4) = accLen * s.selectCount + accLen * 4 by ring]
    rw [cu] at r4
    exact ru.trans r4

/-! ### Several accesses in a row -/

theorem Accessed.bank0 {m : Nat} {xs : List Scan} (h : Accessed s t m xs) : t.bank0 = true := by
  simp [State.bank0, h.selValid, h.selBank]

theorem Accessed.selectCount {m : Nat} {xs : List Scan} (h : Accessed s t m xs) : t.selectCount = 0 := by
  simp [State.selectCount, h.bank0]

/-- Later accesses need no selection (41_dap.md R190). -/
theorem Accessed.trans {m n : Nat} {xs ys : List Scan} (h : Accessed s t m xs) (k : Accessed t u n ys) :
    Accessed s u (m + n) (xs ++ ys) where
  ran := by
    have := h.ran.trans k.ran
    simp only [h.selectCount, selectScans, h.bank0] at this
    rw [show accLen * (s.selectCount + (m + n)) = accLen * (s.selectCount + m) + accLen * (0 + n) by ring]
    simpa [selectScans] using this
  ir := by rw [k.ir, h.ran.same.cfg]
  selValid := k.selValid
  selAp := by rw [k.selAp, State.accessAp, h.selValid, if_pos rfl, h.selAp]
  selBank := k.selBank

/-- No access yet, or some. -/
def Reach (s t : State) (m : Nat) (xs : List Scan) : Prop := (m = 0 ∧ xs = [] ∧ t = s) ∨ Accessed s t m xs

theorem Reach.refl (s : State) : Reach s s 0 [] := .inl ⟨rfl, rfl, rfl⟩

theorem Accessed.reach {m : Nat} {xs : List Scan} (h : Accessed s t m xs) : Reach s t m xs := .inr h

theorem Reach.trans {m n : Nat} {xs ys : List Scan} (h : Reach s t m xs) (k : Reach t u n ys) :
    Reach s u (m + n) (xs ++ ys) := by
  rcases h with ⟨rfl, rfl, rfl⟩ | h
  · simpa using k
  · rcases k with ⟨rfl, rfl, rfl⟩ | k
    · simpa using h.reach
    · exact (h.trans k).reach

theorem Reach.accessed {m : Nat} {xs : List Scan} (h : Reach s t m xs) (hm : m ≠ 0) : Accessed s t m xs :=
  h.resolve_left fun k => hm k.1

theorem Reach.link {m : Nat} {xs : List Scan} (h : Reach s t m xs) (hl : s.link = .working) : t.link = .working := by
  rcases h with ⟨-, -, rfl⟩ | h
  · exact hl
  · exact h.ran.link

theorem Reach.tap {m : Nat} {xs : List Scan} (h : Reach s t m xs) (ht : s.tap = .rti) : t.tap = .rti := by
  rcases h with ⟨-, -, rfl⟩ | h
  · exact ht
  · exact h.ran.tap

theorem Reach.same {m : Nat} {xs : List Scan} (h : Reach s t m xs) : SameBinding s t := by
  rcases h with ⟨-, -, rfl⟩ | h
  · exact .refl _
  · exact h.ran.same

/-- The frames to come after the selection and `m` frames. -/
theorem Reach.frameAt {m : Nat} {xs : List Scan} (h : Reach s t m xs) (j : Nat) :
    t.frameAt (t.selectCount + j) = s.frameAt (s.selectCount + m + j) := by
  rcases h with ⟨rfl, -, rfl⟩ | h
  · simp
  · rw [h.selectCount, h.ran.frameAt, Nat.zero_add]

/-- Acknowledgments the environment has promised for later accesses. -/
theorem Reach.acksOk {m n : Nat} {xs : List Scan} (h : Reach s t m xs) (ha : s.acksOk (s.selectCount + (m + n)) = true) :
    t.acksOk (t.selectCount + n) = true := by
  rcases h with ⟨rfl, -, rfl⟩ | h
  · simpa using ha
  · simp only [State.acksOk, List.all_eq_true, List.mem_range, beq_iff_eq, h.selectCount, Nat.zero_add] at ha ⊢
    exact fun j hj => by rw [h.ran.frameAt]; exact ha _ (by omega)

theorem State.acksOk_mono {m n : Nat} (h : s.acksOk n = true) (hmn : m ≤ n) : s.acksOk m = true := by
  simp only [State.acksOk, List.all_eq_true, List.mem_range, beq_iff_eq] at h ⊢
  exact fun j hj => h j (by omega)

/-- The bytes read after `m` frames. -/
theorem Reach.readBack {m : Nat} {xs : List Scan} (h : Reach s t m xs) (j n : Nat) :
    t.readBack (t.selectCount + j) n = s.readBack (s.selectCount + m + j) n := by
  have key : ∀ i, t.frameAt (t.selectCount + j + 4 * i + 3) = s.frameAt (s.selectCount + m + j + 4 * i + 3) := fun i =>
    (congrArg t.frameAt (by omega)).trans ((h.frameAt (j + 4 * i + 3)).trans (congrArg s.frameAt (by omega)))
  exact congrArg (fun f => (List.range n).flatMap f) (funext fun i => by rw [key])

theorem State.readBack_succ (s : State) (j n : Nat) :
    s.readBack j (n + 1) = bytesLe32 (rdataOf (s.frameAt (j + 3))) ++ s.readBack (j + 4) n := by
  have key : ∀ i, s.frameAt (j + 4 * (i + 1) + 3) = s.frameAt (j + 4 + 4 * i + 3) := fun i =>
    congrArg s.frameAt (by omega)
  unfold State.readBack
  rw [List.range_succ_eq_map, List.flatMap_cons, List.flatMap_map]
  exact congrArg (_ ++ ·) (congrArg (fun f => (List.range n).flatMap f) (funext fun i => by rw [← key]))

theorem readWordsScans_succ (p : RawParams) (addr : Word) (n : Nat) :
    readWordsScans p addr (n + 1) = readScans p addr ++ readWordsScans p (addr + 4) n := by
  have key : ∀ i : Nat, addr + BitVec.ofNat 32 (4 * (i + 1)) = addr + 4 + BitVec.ofNat 32 (4 * i) := fun i => by
    rw [show 4 * (i + 1) = 4 + 4 * i by ring, BitVec.ofNat_add, BitVec.add_assoc]; rfl
  unfold readWordsScans
  rw [List.range_succ_eq_map, List.flatMap_cons, List.flatMap_map]
  refine congrArg₂ (· ++ ·) (by simp) (congrArg (fun f => (List.range n).flatMap f) (funext fun i => by rw [← key]))

/-- Reading `n` words with every acknowledgment OK (41_dap.md R196). -/
theorem readWords_acked (n : Nat) (addr : Word) (hl : s.link = .working) (ht : s.tap = .rti)
    (ha : s.acksOk (s.selectCount + 4 * n) = true) :
    ∃ t, readWords n addr s = .ok (s.readBack s.selectCount n) t
      ∧ Reach s t (4 * n) (readWordsScans s.cfg.toRawParams addr n) := by
  induction n generalizing addr s with
  | zero => exact ⟨s, by simp [readWords, State.readBack], by simpa [readWordsScans] using Reach.refl s⟩
  | succ n ih =>
    obtain ⟨t, h1, r1⟩ := memRead_acked addr hl ht (State.acksOk_mono ha (by omega))
    obtain ⟨u, h2, r2⟩ := ih (addr + 4) r1.ran.link r1.ran.tap
      (r1.reach.acksOk (by rw [show 4 + 4 * n = 4 * (n + 1) by ring]; exact ha))
    refine ⟨u, ?_, ?_⟩
    · have := r1.reach.readBack 0 n
      simp only [Nat.add_zero] at this
      simp only [readWords, h1, h2, Res.bind_ok, this, State.readBack_succ]
    · rw [readWordsScans_succ, show 4 * (n + 1) = 4 + 4 * n by ring, ← r1.ran.same.cfg]
      exact (r1.ran.same.cfg ▸ r1.reach).trans r2

/-- Writing the words of a byte string with every acknowledgment OK (41_dap.md R197). -/
theorem writeWords_acked (addr : Word) (data : List Byte) (hl : s.link = .working) (ht : s.tap = .rti)
    (h4 : data.length % 4 = 0) (ha : s.acksOk (s.selectCount + data.length) = true) :
    ∃ t, writeWords addr data s = .ok () t
      ∧ Reach s t data.length (writeWordsScans s.cfg.toRawParams addr data) := by
  fun_induction writeWords addr data s with
  | case1 addr b0 b1 b2 b3 rest s ih =>
    obtain ⟨t, h1, r1⟩ := memWriteSized_acked .word addr (le32 b0 b1 b2 b3) hl ht
      (State.acksOk_mono ha (by simp))
    obtain ⟨u, h2, r2⟩ := ih t r1.ran.link r1.ran.tap (by simp at h4; omega)
      (r1.reach.acksOk (by rw [show 4 + rest.length = rest.length + 4 by ring]; simpa using ha))
    refine ⟨u, by simp only [memWrite, h1, h2, Res.bind_ok], ?_⟩
    rw [show (b0 :: b1 :: b2 :: b3 :: rest).length = 4 + rest.length by simp; omega]
    simp only [writeWordsScans]
    rw [← r1.ran.same.cfg]
    exact (r1.ran.same.cfg ▸ r1.reach).trans r2
  | case2 data addr s hne =>
    match data, h4, hne with
    | [], _, _ => exact ⟨s, rfl, by simpa [writeWordsScans] using Reach.refl s⟩
    | [_], h, _ | [_, _], h, _ | [_, _, _], h, _ => simp at h
    | b0 :: b1 :: b2 :: b3 :: r, _, h => exact absurd rfl (h b0 b1 b2 b3 r)

/-! ### Other accesses -/

/-- A selection acknowledged at once (41_dap.md R186). -/
theorem selectBody_acked (ap : Byte) (reg : Word) (hl : s.link = .working) (ht : s.tap = .rti)
    (ha : ackOf (s.frameAt 0) = 0b010#3) :
    ∃ t, selectBody ap reg s = .ok () t ∧ Ran s t accLen (accessScans s.cfg.irDpacc regSelect false (selWord ap reg))
      ∧ t.ir = some (irBits s.cfg.irDpacc) ∧ t.selValid = true ∧ t.selAp = ap ∧ t.selBank = bankOf reg := by
  let s' : State := { s with selValid := false }
  obtain ⟨t, h1, r1, i1, -⟩ := scan35_acked (s := s') s.cfg.irDpacc regSelect false (selWord ap reg) hl ht ha
  refine ⟨{ t with selValid := true, selAp := ap, selBank := bankOf reg }, ?_, ?_, i1, rfl, rfl, rfl⟩
  · simp only [selectBody, dpWrite]
    change Res.bind (scan35 s.cfg.irDpacc regSelect false (selWord ap reg) s') _ = _
    rw [h1]; rfl
  · obtain ⟨ys, y1, y2⟩ := r1.sent
    exact ⟨r1.link, r1.tap, fun k => r1.tdo k, ⟨ys, y1, y2⟩,
      ⟨r1.same.1, r1.same.2, r1.same.3, r1.same.4, r1.same.5, r1.same.6, r1.same.7, r1.same.8⟩, r1.result⟩

/-! ### Levels listed for whole frames -/

/-- The levels of TDO that answer the given frames, one after another (30_encoding.md R113). -/
def frameLevels (fs : List (BitVec 35)) : List Bool := fs.flatMap fun f => bitsOf accLen f.toNat

theorem value_bitsOf (n v : Nat) (h : v < 2 ^ n) : value (bitsOf n v) = v := by
  induction n generalizing v with
  | zero => simp at h; simp [bitsOf, value, h]
  | succ n ih =>
    simp only [bitsOf, value, ih (v / 2) (by omega)]
    rcases Nat.mod_two_eq_zero_or_one v with e | e <;> simp [e] <;> omega

theorem captured_bitsOf (f : BitVec 35) : captured (bitsOf accLen f.toNat) = f := by
  rw [captured, value_bitsOf accLen _ f.isLt]
  simp

/-- When the levels to come answer whole frames, `frameAt` reads them. -/
theorem State.frameAt_listed {fs : List (BitVec 35)} (h : s.tdo = frameLevels fs) {j : Nat} (hj : j < fs.length) :
    s.frameAt j = fs[j] := by
  have key : ∀ (fs : List (BitVec 35)) (j k : Nat) (hj : j < fs.length), k < accLen →
      (frameLevels fs)[accLen * j + k]? = (bitsOf accLen fs[j].toNat)[k]? := by
    intro fs
    induction fs with
    | nil => intro j k hj; simp at hj
    | cons f fs ih =>
      intro j k hj hk
      cases j with
      | zero => simp [frameLevels, List.getElem?_append, bitsOf_length, hk]
      | succ j =>
        have := ih j k (by simpa using hj) hk
        simp only [frameLevels, List.flatMap_cons, List.getElem?_append, bitsOf_length] at this ⊢
        rw [if_neg (by simp only [Nat.mul_add]; omega), show accLen * (j + 1) + k - accLen = accLen * j + k by ring_nf; omega, this]
        simp
  have bits : (List.range accLen).map (fun k => s.tdoBit (accLen * j + k)) = bitsOf accLen (fs[j]).toNat := by
    apply List.ext_getElem (by simp [bitsOf_length])
    intro k h1 h2
    have hk : k < accLen := by simpa using h1
    simp only [List.getElem_map, List.getElem_range, State.tdoBit, h, key fs j k hj hk, List.getElem?_eq_getElem h2,
      Option.getD_some]
  rw [State.frameAt, bits, captured_bitsOf]

end Sys2Proof.Machine
end

