-- ==== Sys2Proof/Laws/Flash.lean ====
section
/-! SUPPORT. What the reference driver's operations and the flash walks do: in any environment, and under a working transport with the acknowledgments and status words the environment answers. -/

namespace Sys2Proof

/-! ### The configuration's bounds (00_scope.md R8) -/

theorem Params.waitReadyMax_pos (p : Params) : 1 ≤ p.waitReadyMax := by
  have := p.ok; simp only [RawParams.valid, Bool.and_eq_true, decide_eq_true_eq] at this; exact this.1.1.1.1.1.1.1.1.1.1.1.1.2

theorem Params.refSectorSize_pos (p : Params) : 0 < p.refSectorSize := by
  have := p.ok; simp only [RawParams.valid, Bool.and_eq_true, beq_iff_eq] at this
  have h := this.1.1.1.1.2
  rw [h]; exact Nat.pow_pos (by decide)

end Sys2Proof

namespace Sys2Proof.Machine

variable {α β : Type} {s t u : State}

/-! ### In any environment -/

theorem waitReady_visits (n : Nat) (s : State) : (waitReady n s).Visits s := by
  induction n generalizing s with
  | zero => exact .raise _ s
  | succ n ih =>
    refine (memRead_visits _ s).bind fun sr t _ => ?_
    split
    · exact ih t
    · exact .ok _ t

theorem checkReady_visits (s : State) : (checkReady s).Visits s := by
  refine (waitReady_visits _ s).bind fun sr t _ => ?_
  split
  · exact .raise _ t
  · exact .ok _ t

theorem eraseSector_visits (a : Word) (s : State) : (eraseSector a s).Visits s :=
  (checkReady_visits s).bind fun _ _ _ => (memWrite_visits ..).bind fun _ _ _ => (memWrite_visits ..).bind fun _ _ _ =>
    (memWrite_visits ..).bind fun _ _ _ => (checkReady_visits _).bind fun _ _ _ => memWrite_visits ..

theorem programHalves_visits (a : Word) (d : List Byte) (s : State) : (programHalves a d s).Visits s := by
  fun_induction programHalves a d s with
  | case1 _ _ _ _ _ ih => exact (memWriteHalf_visits ..).bind fun _ _ _ => (checkReady_visits _).bind fun _ t _ => ih t
  | case2 => exact .ok _ _

theorem programPage_visits (a : Word) (d : List Byte) (s : State) : (programPage a d s).Visits s :=
  (checkReady_visits s).bind fun _ _ _ => (memWrite_visits ..).bind fun _ _ _ =>
    (programHalves_visits ..).bind fun _ _ _ => memWrite_visits ..

theorem verify_visits (a : Word) (d : List Byte) (s : State) : (verify a d s).Visits s :=
  (readWords_visits ..).bind fun _ _ _ => .ok _ _

theorem eraseWalk_visits (n cur stop : Nat) (s : State) : (eraseWalk n cur stop s).Visits s := by
  induction n generalizing cur s with
  | zero => exact .ok _ s
  | succ n ih =>
    unfold eraseWalk
    split
    · exact (Res.Visits.relabel (atStep_code _ _) (eraseSector_visits _ s)).bind fun _ t _ => ih _ t
    · exact .ok _ s

theorem programChunk_visits (a : Word) (c : List Byte) (s : State) : (programChunk a c s).Visits s := by
  refine (Res.Visits.relabel (atStep_code _ _) (programPage_visits a c s)).bind fun _ t _ => ?_
  refine (Res.Visits.relabel (atStep_code _ _) (verify_visits a c t)).bind fun _ u _ => ?_
  split
  · exact .ok _ u
  · exact .raise _ u

theorem programWalk_visits (n : Nat) (a : Word) (d : List Byte) (s : State) : (programWalk n a d s).Visits s := by
  induction n generalizing a d s with
  | zero => exact .ok _ s
  | succ n ih =>
    unfold programWalk
    split
    · exact .ok _ s
    · exact (programChunk_visits _ _ s).bind fun _ t _ => ih _ _ t

/-! ### Waiting, under a working transport (42_flash.md R234) -/

/-- The scans of `n` status reads. -/
def pollScans (p : RawParams) (n : Nat) : List Scan := (List.range n).flatMap fun _ => readScans p p.flashSr

theorem pollScans_succ (p : RawParams) (n : Nat) : pollScans p (n + 1) = readScans p p.flashSr ++ pollScans p n := by
  simp only [pollScans, List.range_succ_eq_map, List.flatMap_cons, List.flatMap_map]

/-- Busy in every status read: the wait ends in FlashTimeoutError. -/
theorem waitReady_busy (n : Nat) (hl : s.link = .working) (ht : s.tap = .rti)
    (ha : s.acksOk (s.selectCount + 4 * n) = true)
    (hb : ∀ j < n, srBusy (rdataOf (s.frameAt (s.selectCount + (4 * j + 3)))) = true) :
    ∃ t, waitReady n s = .raise ⟨.flashTimeoutError, .none, s.cfg.flashSr, 0⟩ t
      ∧ Reach s t (4 * n) (pollScans s.cfg.toRawParams n) := by
  induction n generalizing s with
  | zero => exact ⟨s, rfl, by simpa [pollScans] using Reach.refl s⟩
  | succ n ih =>
    obtain ⟨t, h1, r1⟩ := memRead_acked s.cfg.flashSr hl ht (State.acksOk_mono ha (by omega))
    have c : t.cfg = s.cfg := r1.ran.same.cfg
    have b0 : srBusy (rdataOf (s.frameAt (s.selectCount + 3))) = true := hb 0 (by omega)
    obtain ⟨u, h2, r2⟩ := ih r1.ran.link r1.ran.tap
      (r1.reach.acksOk (by rw [show 4 + 4 * n = 4 * (n + 1) by ring]; exact ha))
      (fun j hj => by
        rw [r1.reach.frameAt, show s.selectCount + 4 + (4 * j + 3) = s.selectCount + (4 * (j + 1) + 3) by ring]
        exact hb (j + 1) (by omega))
    refine ⟨u, ?_, ?_⟩
    · simp only [waitReady, h1, Res.bind_ok, b0, if_true, h2, c]
    · rw [pollScans_succ, show 4 * (n + 1) = 4 + 4 * n by ring]
      rw [c] at r2
      exact r1.reach.trans r2

/-- Busy in the first `k` status reads, then not: the wait ends with that status word. -/
theorem waitReady_until (k n : Nat) (hk : k < n) (hl : s.link = .working) (ht : s.tap = .rti)
    (ha : s.acksOk (s.selectCount + 4 * (k + 1)) = true)
    (hb : ∀ j < k, srBusy (rdataOf (s.frameAt (s.selectCount + (4 * j + 3)))) = true)
    (hr : srBusy (rdataOf (s.frameAt (s.selectCount + (4 * k + 3)))) = false) :
    ∃ t, waitReady n s = .ok (rdataOf (s.frameAt (s.selectCount + (4 * k + 3)))) t
      ∧ Accessed s t (4 * (k + 1)) (pollScans s.cfg.toRawParams (k + 1)) := by
  induction k generalizing n s with
  | zero =>
    obtain ⟨n, rfl⟩ : ∃ m, n = m + 1 := ⟨n - 1, by omega⟩
    obtain ⟨t, h1, r1⟩ := memRead_acked s.cfg.flashSr hl ht (State.acksOk_mono ha (by omega))
    have hr' : srBusy (rdataOf (s.frameAt (s.selectCount + 3))) = false := hr
    refine ⟨t, ?_, by simpa [pollScans] using r1⟩
    simp only [waitReady, h1, Res.bind_ok, hr']; rfl
  | succ k ih =>
    obtain ⟨n, rfl⟩ : ∃ m, n = m + 1 := ⟨n - 1, by omega⟩
    obtain ⟨t, h1, r1⟩ := memRead_acked s.cfg.flashSr hl ht (State.acksOk_mono ha (by omega))
    have c : t.cfg = s.cfg := r1.ran.same.cfg
    have b0 : srBusy (rdataOf (s.frameAt (s.selectCount + 3))) = true := hb 0 (by omega)
    have fr : ∀ j, t.frameAt (t.selectCount + (4 * j + 3)) = s.frameAt (s.selectCount + (4 * (j + 1) + 3)) := fun j =>
      (r1.reach.frameAt _).trans (congrArg s.frameAt (by ring))
    obtain ⟨u, h2, r2⟩ := ih n (by omega) r1.ran.link r1.ran.tap
      (r1.reach.acksOk (by rw [show 4 + 4 * (k + 1) = 4 * (k + 1 + 1) by ring]; exact ha))
      (fun j hj => by rw [fr]; exact hb (j + 1) (by omega)) (by rw [fr]; exact hr)
    refine ⟨u, ?_, ?_⟩
    · simp only [waitReady, h1, Res.bind_ok, b0, if_true, h2, fr]
    · rw [pollScans_succ, show 4 * (k + 1 + 1) = 4 + 4 * (k + 1) by ring]
      rw [c] at r2
      exact r1.trans r2

theorem checkReady_busy (hl : s.link = .working) (ht : s.tap = .rti)
    (ha : s.acksOk (s.selectCount + 4 * s.cfg.waitReadyMax) = true)
    (hb : ∀ j < s.cfg.waitReadyMax, srBusy (rdataOf (s.frameAt (s.selectCount + (4 * j + 3)))) = true) :
    ∃ t, checkReady s = .raise ⟨.flashTimeoutError, .none, s.cfg.flashSr, 0⟩ t
      ∧ Accessed s t (4 * s.cfg.waitReadyMax) (pollScans s.cfg.toRawParams s.cfg.waitReadyMax) := by
  obtain ⟨t, h, r⟩ := waitReady_busy s.cfg.waitReadyMax hl ht ha hb
  have := s.cfg.waitReadyMax_pos
  exact ⟨t, by simp only [checkReady, h, Res.bind_raise], r.accessed (by omega)⟩

theorem checkReady_latched (k : Nat) (hk : k < s.cfg.waitReadyMax) (hl : s.link = .working) (ht : s.tap = .rti)
    (ha : s.acksOk (s.selectCount + 4 * (k + 1)) = true)
    (hb : ∀ j < k, srBusy (rdataOf (s.frameAt (s.selectCount + (4 * j + 3)))) = true)
    (hr : srBusy (rdataOf (s.frameAt (s.selectCount + (4 * k + 3)))) = false)
    (he : srError (rdataOf (s.frameAt (s.selectCount + (4 * k + 3)))) = true) :
    ∃ t, checkReady s = .raise ⟨.flashStatusError, .none, s.cfg.flashSr,
        (rdataOf (s.frameAt (s.selectCount + (4 * k + 3)))).setWidth 8⟩ t
      ∧ Accessed s t (4 * (k + 1)) (pollScans s.cfg.toRawParams (k + 1)) := by
  obtain ⟨t, h, r⟩ := waitReady_until k _ hk hl ht ha hb hr
  exact ⟨t, by simp only [checkReady, h, Res.bind_ok, he, if_true, r.ran.same.cfg], r⟩

/-- Ready in the first status read. -/
theorem checkReady_ready (hl : s.link = .working) (ht : s.tap = .rti) (ha : s.acksOk (s.selectCount + 4) = true)
    (hr : s.readyAt (s.selectCount + 3) = true) :
    ∃ t, checkReady s = .ok () t ∧ Accessed s t 4 (readScans s.cfg.toRawParams s.cfg.flashSr) := by
  simp only [State.readyAt, Bool.and_eq_true, Bool.not_eq_true'] at hr
  obtain ⟨t, h, r⟩ := waitReady_until 0 _ s.cfg.waitReadyMax_pos hl ht ha (fun j hj => absurd hj (by omega)) hr.1
  exact ⟨t, by simp only [checkReady, h, Res.bind_ok, Nat.mul_zero, Nat.zero_add, hr.2]; rfl, by simpa [pollScans] using r⟩

/-- Readiness promised for a later wait. -/
theorem Reach.readyAt {m : Nat} {xs : List Scan} (h : Reach s t m xs) (j : Nat) :
    t.readyAt (t.selectCount + j) = s.readyAt (s.selectCount + m + j) := by
  simp only [State.readyAt, h.frameAt]

theorem memWrite_acked (addr data : Word) (hl : s.link = .working) (ht : s.tap = .rti)
    (ha : s.acksOk (s.selectCount + 4) = true) :
    ∃ t, memWrite addr data s = .ok () t ∧ Accessed s t 4 (writeScans s.cfg.toRawParams .word addr data) :=
  memWriteSized_acked .word addr data hl ht ha

/-! ### Erasing and programming, under a working transport -/

/-- One sector, every wait ready at once (42_flash.md R235). -/
theorem eraseSector_acked (a : Word) (hl : s.link = .working) (ht : s.tap = .rti)
    (ha : s.acksOk (s.selectCount + 24) = true) (h3 : s.readyAt (s.selectCount + 3) = true)
    (h19 : s.readyAt (s.selectCount + 19) = true) :
    ∃ t, eraseSector a s = .ok () t ∧ Accessed s t 24 (eraseSectorScans s.cfg.toRawParams a) := by
  obtain ⟨t1, e1, r1⟩ := checkReady_ready hl ht (State.acksOk_mono ha (by omega)) h3
  obtain ⟨t2, e2, r2⟩ := memWrite_acked t1.cfg.flashAr a r1.ran.link r1.ran.tap
    (r1.reach.acksOk (State.acksOk_mono ha (by omega)))
  have r12 := r1.trans r2
  obtain ⟨t3, e3, r3⟩ := memWrite_acked t2.cfg.flashCr t2.cfg.crPer r2.ran.link r2.ran.tap
    (r12.reach.acksOk (State.acksOk_mono ha (by omega)))
  have r13 := r12.trans r3
  obtain ⟨t4, e4, r4⟩ := memWrite_acked t3.cfg.flashCr (t3.cfg.crPer ||| t3.cfg.crStrt) r3.ran.link r3.ran.tap
    (r13.reach.acksOk (State.acksOk_mono ha (by omega)))
  have r14 := r13.trans r4
  obtain ⟨t5, e5, r5⟩ := checkReady_ready r4.ran.link r4.ran.tap
    (r14.reach.acksOk (State.acksOk_mono ha (by omega))) (by rw [r14.reach.readyAt]; exact h19)
  have r15 := r14.trans r5
  obtain ⟨t6, e6, r6⟩ := memWrite_acked t5.cfg.flashCr 0 r5.ran.link r5.ran.tap
    (r15.reach.acksOk (State.acksOk_mono ha (by omega)))
  refine ⟨t6, by simp only [eraseSector, e1, e2, e3, e4, e5, e6, Res.bind_ok], ?_⟩
  have := r15.trans r6
  rw [r5.ran.same.cfg, r4.ran.same.cfg, r3.ran.same.cfg, r2.ran.same.cfg, r1.ran.same.cfg] at this
  exact this

/-- The half-words of a page, every wait ready at once (42_flash.md R236). -/
theorem programHalves_acked (a : Word) (d : List Byte) (hl : s.link = .working) (ht : s.tap = .rti)
    (h2 : d.length % 2 = 0) (ha : s.acksOk (s.selectCount + 4 * d.length) = true)
    (hr : ∀ h < d.length / 2, s.readyAt (s.selectCount + (8 * h + 7)) = true) :
    ∃ t, programHalves a d s = .ok () t ∧ Reach s t (4 * d.length) (halfScans s.cfg.toRawParams a d) := by
  fun_induction programHalves a d s with
  | case1 a b0 b1 rest s ih =>
    simp only [List.length_cons] at h2 ha hr
    obtain ⟨t1, e1, r1⟩ := memWriteSized_acked .half a (lane16 a (le16 b0 b1)) hl ht (State.acksOk_mono ha (by omega))
    obtain ⟨t2, e2, r2⟩ := checkReady_ready r1.ran.link r1.ran.tap
      (r1.reach.acksOk (State.acksOk_mono ha (by omega))) (by rw [r1.reach.readyAt]; exact hr 0 (by omega))
    have r12 := r1.trans r2
    have c : t2.cfg = s.cfg := r12.ran.same.cfg
    obtain ⟨t3, e3, r3⟩ := ih t2 r2.ran.link r2.ran.tap (by omega)
      (r12.reach.acksOk (State.acksOk_mono ha (by omega)))
      (fun h hh => by
        rw [r12.reach.readyAt]
        have := hr (h + 1) (by omega)
        rwa [show s.selectCount + (8 * (h + 1) + 7) = s.selectCount + (4 + 4) + (8 * h + 7) by ring] at this)
    refine ⟨t3, by simp only [memWriteHalf, e1, e2, e3, Res.bind_ok], ?_⟩
    rw [c] at r3
    rw [r1.ran.same.cfg] at r12
    rw [show 4 * (b0 :: b1 :: rest).length = 4 + 4 + 4 * rest.length by simp only [List.length_cons]; ring]
    exact r12.reach.trans r3
  | case2 d a s hne =>
    match d, h2, hne with
    | [], _, _ => exact ⟨s, rfl, by simpa [halfScans] using Reach.refl s⟩
    | [_], h, _ => simp at h
    | b0 :: b1 :: r, _, h => exact absurd rfl (h b0 b1 r)

/-- One page, every wait ready at once (42_flash.md R236). -/
theorem programPage_acked (a : Word) (d : List Byte) (hl : s.link = .working) (ht : s.tap = .rti)
    (h2 : d.length % 2 = 0) (ha : s.acksOk (s.selectCount + (12 + 4 * d.length)) = true)
    (h3 : s.readyAt (s.selectCount + 3) = true)
    (hr : ∀ h < d.length / 2, s.readyAt (s.selectCount + (15 + 8 * h)) = true) :
    ∃ t, programPage a d s = .ok () t ∧ Accessed s t (12 + 4 * d.length) (programPageScans s.cfg.toRawParams a d) := by
  obtain ⟨t1, e1, r1⟩ := checkReady_ready hl ht (State.acksOk_mono ha (by omega)) h3
  obtain ⟨t2, e2, r2⟩ := memWrite_acked t1.cfg.flashCr t1.cfg.crPg r1.ran.link r1.ran.tap
    (r1.reach.acksOk (State.acksOk_mono ha (by omega)))
  have r12 := r1.trans r2
  obtain ⟨t3, e3, r3⟩ := programHalves_acked a d r2.ran.link r2.ran.tap h2
    (r12.reach.acksOk (State.acksOk_mono ha (by omega)))
    (fun h hh => by
      rw [r12.reach.readyAt]
      have := hr h hh
      rwa [show s.selectCount + (15 + 8 * h) = s.selectCount + (4 + 4) + (8 * h + 7) by ring] at this)
  have r13 := r12.reach.trans r3
  obtain ⟨t4, e4, r4⟩ := memWrite_acked t3.cfg.flashCr 0 (r3.link r2.ran.link) (r3.tap r2.ran.tap)
    (r13.acksOk (State.acksOk_mono ha (by omega)))
  refine ⟨t4, by simp only [programPage, e1, e2, e3, e4, Res.bind_ok], ?_⟩
  have := r13.trans r4.reach
  rw [r3.same.cfg, r2.ran.same.cfg, r1.ran.same.cfg, show 4 + 4 + 4 * d.length + 4 = 12 + 4 * d.length by ring] at this
  exact this.accessed (by omega)

/-- The verify reads back the words the environment answers (42_flash.md R237). -/
theorem verify_acked (a : Word) (d : List Byte) (hl : s.link = .working) (ht : s.tap = .rti)
    (h4 : d.length % 4 = 0) (ha : s.acksOk (s.selectCount + d.length) = true) :
    ∃ t, verify a d s = .ok (s.readBack s.selectCount (d.length / 4) == d) t
      ∧ Reach s t d.length (readWordsScans s.cfg.toRawParams a (d.length / 4)) := by
  have e : 4 * (d.length / 4) = d.length := by omega
  obtain ⟨t, h, r⟩ := readWords_acked (d.length / 4) a hl ht (by rwa [e])
  exact ⟨t, by simp only [verify, h, Res.bind_ok], by rwa [e] at r⟩

/-- One chunk answered: programmed, read back, and compared (42_flash.md R241). -/
theorem programChunk_acked (a : Word) (c : List Byte) (hl : s.link = .working) (ht : s.tap = .rti)
    (h4 : c.length % 4 = 0) (hp : s.pageAnswered s.selectCount c.length)
    (hs : s.acksOk s.selectCount = true) :
    ∃ t, programChunk a c s
        = (if s.chunkReadBack s.selectCount c.length = c then .ok () t else .raise (verifyMismatchError a) t)
      ∧ Accessed s t (chunkFrames c.length) (chunkScans s.cfg.toRawParams a c) := by
  obtain ⟨hk, h3, hr⟩ := hp
  have ha : s.acksOk (s.selectCount + chunkFrames c.length) = true := by
    simp only [State.acksOk, List.all_eq_true, List.mem_range, beq_iff_eq] at hs ⊢
    intro j hj
    by_cases h : j < s.selectCount
    · exact hs j h
    · have := hk (j - s.selectCount) (by omega)
      rwa [Nat.add_sub_cancel' (by omega)] at this
  simp only [chunkFrames] at ha
  obtain ⟨t1, e1, r1⟩ := programPage_acked a c hl ht (by omega) (State.acksOk_mono ha (by omega)) h3
    (fun h hh => by rw [← Nat.add_assoc]; exact hr h hh)
  obtain ⟨t2, e2, r2⟩ := verify_acked a c r1.ran.link r1.ran.tap h4 (r1.reach.acksOk (State.acksOk_mono ha (by omega)))
  have rb : t1.readBack t1.selectCount (c.length / 4) = s.chunkReadBack s.selectCount c.length := by
    have := r1.reach.readBack 0 (c.length / 4)
    simp only [Nat.add_zero, ← Nat.add_assoc] at this
    exact this
  refine ⟨t2, ?_, ?_⟩
  · simp only [programChunk, e1, e2, rb, Res.relabel, Res.bind_ok]
    by_cases h : s.chunkReadBack s.selectCount c.length = c <;> simp [h]
  · rw [show chunkFrames c.length = 12 + 4 * c.length + c.length by simp only [chunkFrames]; ring]
    have := r1.reach.trans r2
    rw [r1.ran.same.cfg] at this
    exact this.accessed (by omega)

end Sys2Proof.Machine
end

