-- ==== Sys2Proof/Laws/PerInstr.lean ====
section
/-! SUPPORT. Facts about every instruction as syntax, one lemma for each constructor. -/

namespace Sys2Proof.Laws

/-- The instruction's encoding is a host command word exactly when the host can issue it: an internal step has no command word (30_encoding.md R103). -/
def EncodingKind.Statement (i : Instr) : Prop := ∀ p, (∃ bytes, encode p i = .command bytes) ↔ i.isCommand = true

theorem EncodingKind.sessionOpen : EncodingKind.Statement .sessionOpen := fun _ => ⟨fun _ => rfl, fun _ => ⟨_, rfl⟩⟩
theorem EncodingKind.sessionClose : EncodingKind.Statement .sessionClose := fun _ => ⟨fun _ => rfl, fun _ => ⟨_, rfl⟩⟩
theorem EncodingKind.tapReset : EncodingKind.Statement .tapReset := fun _ => ⟨fun _ => rfl, fun _ => ⟨_, rfl⟩⟩
theorem EncodingKind.shiftIr (bits : Bits) : EncodingKind.Statement (.shiftIr bits) :=
  fun _ => ⟨fun _ => rfl, fun _ => ⟨_, rfl⟩⟩
theorem EncodingKind.shiftDr (src : DrSource) : EncodingKind.Statement (.shiftDr src) := by
  cases src <;> exact fun _ => ⟨fun _ => rfl, fun _ => ⟨_, rfl⟩⟩
theorem EncodingKind.readIdcode : EncodingKind.Statement .readIdcode := fun _ => ⟨fun _ => rfl, fun _ => ⟨_, rfl⟩⟩
theorem EncodingKind.selectAp (ap : Byte) (reg : Word) : EncodingKind.Statement (.selectAp ap reg) :=
  fun _ => ⟨fun _ => rfl, fun _ => ⟨_, rfl⟩⟩
theorem EncodingKind.apTransfer (write : Bool) (addr data : Word) : EncodingKind.Statement (.apTransfer write addr data) :=
  fun _ => ⟨fun _ => rfl, fun _ => ⟨_, rfl⟩⟩
theorem EncodingKind.readMemory (addr len : Word) : EncodingKind.Statement (.readMemory addr len) :=
  fun _ => ⟨fun _ => rfl, fun _ => ⟨_, rfl⟩⟩
theorem EncodingKind.writeMemory (addr : Word) (data : List Byte) : EncodingKind.Statement (.writeMemory addr data) :=
  fun _ => ⟨fun _ => rfl, fun _ => ⟨_, rfl⟩⟩
theorem EncodingKind.coreHalt : EncodingKind.Statement .coreHalt := fun _ => ⟨fun _ => rfl, fun _ => ⟨_, rfl⟩⟩
theorem EncodingKind.coreResume : EncodingKind.Statement .coreResume := fun _ => ⟨fun _ => rfl, fun _ => ⟨_, rfl⟩⟩
theorem EncodingKind.coreReset : EncodingKind.Statement .coreReset := fun _ => ⟨fun _ => rfl, fun _ => ⟨_, rfl⟩⟩
theorem EncodingKind.deviceBind (idcode : Word) : EncodingKind.Statement (.deviceBind idcode) :=
  fun _ => ⟨fun _ => rfl, fun _ => ⟨_, rfl⟩⟩
theorem EncodingKind.flashDetect : EncodingKind.Statement .flashDetect := fun _ => ⟨fun _ => rfl, fun _ => ⟨_, rfl⟩⟩
theorem EncodingKind.flashInit : EncodingKind.Statement .flashInit := fun _ => ⟨fun _ => rfl, fun _ => ⟨_, rfl⟩⟩
theorem EncodingKind.flashStatus : EncodingKind.Statement .flashStatus := fun _ => ⟨fun _ => rfl, fun _ => ⟨_, rfl⟩⟩
theorem EncodingKind.flashErase (addr len : Word) : EncodingKind.Statement (.flashErase addr len) :=
  fun _ => ⟨fun _ => rfl, fun _ => ⟨_, rfl⟩⟩
theorem EncodingKind.flashProgram (addr : Word) (data : List Byte) : EncodingKind.Statement (.flashProgram addr data) :=
  fun _ => ⟨fun _ => rfl, fun _ => ⟨_, rfl⟩⟩
theorem EncodingKind.flashVerify (addr : Word) (data : List Byte) : EncodingKind.Statement (.flashVerify addr data) :=
  fun _ => ⟨fun _ => rfl, fun _ => ⟨_, rfl⟩⟩
theorem EncodingKind.catalogFind (idcode : Word) : EncodingKind.Statement (.catalogFind idcode) :=
  fun _ => ⟨fun _ => rfl, fun _ => ⟨_, rfl⟩⟩
theorem EncodingKind.catalogAdd (partId flashSize ramSize : Word) (fpu dsp : Bool) (name vendor : List Byte) (regions : List FlashRegion) : EncodingKind.Statement (.catalogAdd partId flashSize ramSize fpu dsp name vendor regions) :=
  fun _ => ⟨fun _ => rfl, fun _ => ⟨_, rfl⟩⟩
theorem EncodingKind.irBypass : EncodingKind.Statement .irBypass := fun _ => ⟨nofun, nofun⟩
theorem EncodingKind.irDpacc : EncodingKind.Statement .irDpacc := fun _ => ⟨nofun, nofun⟩
theorem EncodingKind.irApacc : EncodingKind.Statement .irApacc := fun _ => ⟨nofun, nofun⟩
theorem EncodingKind.dpSelectWrite (data : Word) : EncodingKind.Statement (.dpSelectWrite data) :=
  fun _ => ⟨nofun, nofun⟩
theorem EncodingKind.dpRdbuffRead : EncodingKind.Statement .dpRdbuffRead := fun _ => ⟨nofun, nofun⟩
theorem EncodingKind.apCswWrite (data : Word) : EncodingKind.Statement (.apCswWrite data) := fun _ => ⟨nofun, nofun⟩
theorem EncodingKind.apTarWrite (addr : Word) : EncodingKind.Statement (.apTarWrite addr) := fun _ => ⟨nofun, nofun⟩
theorem EncodingKind.apDrwWrite (data : Word) : EncodingKind.Statement (.apDrwWrite data) := fun _ => ⟨nofun, nofun⟩
theorem EncodingKind.apDrwRead : EncodingKind.Statement .apDrwRead := fun _ => ⟨nofun, nofun⟩
theorem EncodingKind.tmsTapReset : EncodingKind.Statement .tmsTapReset := fun _ => ⟨nofun, nofun⟩
theorem EncodingKind.tmsIrEntry : EncodingKind.Statement .tmsIrEntry := fun _ => ⟨nofun, nofun⟩
theorem EncodingKind.tmsDrEntry : EncodingKind.Statement .tmsDrEntry := fun _ => ⟨nofun, nofun⟩
theorem EncodingKind.tmsShiftBody (tdi : Bits) : EncodingKind.Statement (.tmsShiftBody tdi) := fun _ => ⟨nofun, nofun⟩
theorem EncodingKind.tmsScanExit : EncodingKind.Statement .tmsScanExit := fun _ => ⟨nofun, nofun⟩

end Sys2Proof.Laws
end

