-- ==== Sys2Proof/Tests/Slice0.lean ====
section
/-! SUPPORT. The model's own tests: ill-formed terms refused, words written out from the encodings of the spec, the vectors of 95_test_vectors.md, and a witness of the hypotheses of every obligation. -/

namespace Sys2Proof.Tests

open Sys2Proof Sys2Proof.Machine

set_option Elab.async false

/-! ### Well-formedness: each check refuses an ill-formed term. -/

theorem test_wf_shiftIr : ∀ bits : Bits, bits.length = 65536 → (Instr.shiftIr bits).WellFormed = false :=
  fun bits h => by simp [Instr.WellFormed, h]
theorem test_wf_shiftDr_bits : ∀ bits : Bits, bits.length = 65536 → (Instr.shiftDr (.bits bits)).WellFormed = false :=
  fun bits h => by simp [Instr.WellFormed, DrSource.WellFormed, h]
theorem test_wf_shiftDr_low : (Instr.shiftDr (.low 65536)).WellFormed = false := by decide
theorem test_wf_data : ∀ data : List Byte, data.length = 2 ^ 32 →
    (Instr.writeMemory 0 data).WellFormed = false ∧ (Instr.flashProgram 0 data).WellFormed = false
      ∧ (Instr.flashVerify 0 data).WellFormed = false := fun data h => by simp [Instr.WellFormed, h]
theorem test_wf_catalogAdd_name :
    (Instr.catalogAdd 0 0 0 false false (List.replicate 256 0x41#8) [] []).WellFormed = false := by decide +kernel
theorem test_wf_catalogAdd_vendor :
    (Instr.catalogAdd 0 0 0 false false [] (List.replicate 256 0x41#8) []).WellFormed = false := by decide +kernel
theorem test_wf_catalogAdd_regions :
    (Instr.catalogAdd 0 0 0 false false [] [] (List.replicate 256 ⟨0, 0, 0⟩)).WellFormed = false := by decide +kernel
theorem test_wf_dpSelectWrite : (Instr.dpSelectWrite 0x010000F4#32).WellFormed = false := by decide
theorem test_wf_apCswWrite : (Instr.apCswWrite 0x23000003#32).WellFormed = false := by decide
theorem test_wf_tmsShiftBody_empty : (Instr.tmsShiftBody []).WellFormed = false := by decide
theorem test_wf_tmsShiftBody_long : ∀ tdi : Bits, tdi.length = 65536 → (Instr.tmsShiftBody tdi).WellFormed = false :=
  fun tdi h => by simp [Instr.WellFormed, h]

/-! ### Command words written out from R100 and R102 (95_test_vectors.md V3). -/

theorem test_decode_sessionOpen : decodeCommand [0x01#8] = .ok .sessionOpen := by decide
theorem test_decode_sessionClose : decodeCommand [0x02#8] = .ok .sessionClose := by decide
theorem test_decode_tapReset : decodeCommand [0x10#8] = .ok .tapReset := by decide
/-- V3 E2. -/
theorem test_decode_shiftIr :
    decodeCommand [0x11#8, 0x08#8, 0x00#8, 0xFF#8] = .ok (.shiftIr [true, true, true, true, true, true, true, true]) := by
  decide
/-- V3 E3. -/
theorem test_decode_shiftIr_empty : decodeCommand [0x11#8, 0x00#8, 0x00#8] = .ok (.shiftIr []) := by decide
/-- V3 E4. -/
theorem test_decode_shiftIr_stray : decodeCommand [0x11#8, 0x03#8, 0x00#8, 0x0D#8] = .error .strayBits := by decide
/-- V3 E5. -/
theorem test_decode_shiftDr_low : decodeCommand [0x12#8, 0x00#8, 0x20#8, 0x00#8] = .ok (.shiftDr (.low 32)) := by decide
/-- V3 E6. -/
theorem test_decode_shiftDr_bits :
    decodeCommand [0x12#8, 0x01#8, 0x03#8, 0x00#8, 0x05#8] = .ok (.shiftDr (.bits [true, false, true])) := by decide
/-- V3 E7. -/
theorem test_decode_shiftDr_flags : decodeCommand [0x12#8, 0x02#8, 0x20#8, 0x00#8] = .error .reservedFlags := by decide
theorem test_decode_readIdcode : decodeCommand [0x13#8] = .ok .readIdcode := by decide
/-- V3 E13. -/
theorem test_decode_trailing : decodeCommand [0x13#8, 0x00#8] = .error .trailingBytes := by decide
/-- V3 E8. -/
theorem test_decode_selectAp :
    decodeCommand [0x20#8, 0x01#8, 0xF4#8, 0x00#8, 0x00#8, 0x00#8] = .ok (.selectAp 1#8 0xF4#32) := by decide
/-- V3 E9. -/
theorem test_decode_apTransfer_read :
    decodeCommand [0x21#8, 0x00#8, 0x00#8, 0x00#8, 0x00#8, 0x20#8, 0x00#8, 0x00#8, 0x00#8, 0x00#8]
      = .ok (.apTransfer false 0x20000000#32 0) := by decide
theorem test_decode_apTransfer_write :
    decodeCommand [0x21#8, 0x01#8, 0x04#8, 0x00#8, 0x00#8, 0x20#8, 0x78#8, 0x56#8, 0x34#8, 0x12#8]
      = .ok (.apTransfer true 0x20000004#32 0x12345678#32) := by decide
/-- V3 E10. -/
theorem test_decode_apTransfer_above_one :
    decodeCommand [0x21#8, 0x02#8, 0x00#8, 0x00#8, 0x00#8, 0x20#8, 0x00#8, 0x00#8, 0x00#8, 0x00#8]
      = .error .writeAboveOne := by decide
/-- V3 E11. -/
theorem test_decode_readMemory :
    decodeCommand [0x22#8, 0x00#8, 0x00#8, 0x00#8, 0x20#8, 0x08#8, 0x00#8, 0x00#8, 0x00#8]
      = .ok (.readMemory 0x20000000#32 8#32) := by decide
/-- V3 E12. -/
theorem test_decode_truncated :
    decodeCommand [0x22#8, 0x00#8, 0x00#8, 0x00#8, 0x20#8, 0x08#8, 0x00#8, 0x00#8] = .error .truncated := by decide
/-- 95_test_vectors.md P2 step 5, its first word. -/
theorem test_decode_writeMemory :
    decodeCommand [0x23#8, 0x00#8, 0x00#8, 0x00#8, 0x20#8, 0x04#8, 0x00#8, 0x00#8, 0x00#8, 0x78#8, 0x56#8, 0x34#8, 0x12#8]
      = .ok (.writeMemory 0x20000000#32 [0x78#8, 0x56#8, 0x34#8, 0x12#8]) := by decide
theorem test_decode_coreHalt : decodeCommand [0x24#8] = .ok .coreHalt := by decide
theorem test_decode_coreResume : decodeCommand [0x25#8] = .ok .coreResume := by decide
theorem test_decode_coreReset : decodeCommand [0x26#8] = .ok .coreReset := by decide
/-- V3 E15. -/
theorem test_decode_deviceBind :
    decodeCommand [0x27#8, 0x77#8, 0x14#8, 0xA0#8, 0x1B#8] = .ok (.deviceBind 0x1BA01477#32) := by decide
theorem test_decode_flashDetect : decodeCommand [0x30#8] = .ok .flashDetect := by decide
theorem test_decode_flashInit : decodeCommand [0x31#8] = .ok .flashInit := by decide
theorem test_decode_flashStatus : decodeCommand [0x32#8] = .ok .flashStatus := by decide
/-- 95_test_vectors.md P3 step 7. -/
theorem test_decode_flashErase :
    decodeCommand [0x33#8, 0x00#8, 0x00#8, 0x00#8, 0x08#8, 0x08#8, 0x00#8, 0x00#8, 0x00#8]
      = .ok (.flashErase 0x08000000#32 8#32) := by decide
/-- 95_test_vectors.md P3 step 8, four of its bytes. -/
theorem test_decode_flashProgram :
    decodeCommand [0x34#8, 0x00#8, 0x00#8, 0x00#8, 0x08#8, 0x04#8, 0x00#8, 0x00#8, 0x00#8, 0x01#8, 0x02#8, 0x03#8, 0x04#8]
      = .ok (.flashProgram 0x08000000#32 [0x01#8, 0x02#8, 0x03#8, 0x04#8]) := by decide
theorem test_decode_flashVerify :
    decodeCommand [0x35#8, 0x00#8, 0x00#8, 0x00#8, 0x08#8, 0x04#8, 0x00#8, 0x00#8, 0x00#8, 0xFF#8, 0xFF#8, 0xFF#8, 0xFE#8]
      = .ok (.flashVerify 0x08000000#32 [0xFF#8, 0xFF#8, 0xFF#8, 0xFE#8]) := by decide
/-- V3 E16. -/
theorem test_decode_catalogFind :
    decodeCommand [0x40#8, 0xFF#8, 0xFF#8, 0xFF#8, 0xFF#8] = .ok (.catalogFind 0xFFFFFFFF#32) := by decide
/-- V3 E17, with the flags of an FPU and a DSP apart. -/
theorem test_decode_catalogAdd :
    decodeCommand
        [0x41#8, 0x77#8, 0x14#8, 0xA0#8, 0x0B#8, 0x00#8, 0x00#8, 0x01#8, 0x00#8, 0x00#8, 0x50#8, 0x00#8, 0x00#8, 0x02#8,
          0x04#8, 0x41#8, 0x42#8, 0x43#8, 0x44#8, 0x02#8, 0x53#8, 0x54#8, 0x01#8, 0x00#8, 0x00#8, 0x00#8, 0x08#8, 0x00#8,
          0x00#8, 0x01#8, 0x00#8, 0x00#8, 0x04#8, 0x00#8, 0x00#8]
      = .ok (.catalogAdd 0x0BA01477#32 65536#32 20480#32 false true [0x41#8, 0x42#8, 0x43#8, 0x44#8] [0x53#8, 0x54#8]
          [⟨0x08000000#32, 65536#32, 1024#32⟩]) := by decide +kernel
/-- V3 E14. -/
theorem test_decode_illegal :
    ∀ op ∈ [0x00#8, 0x03#8, 0x14#8, 0x28#8, 0x36#8, 0x42#8, 0xFF#8], decodeCommand [op] = .error .illegalOpcode := by
  decide
/-- The host's table word of a row with operand bytes it gives no bits: they are zero (R129). -/
theorem test_tableWord_readMemory : decodeTableWord 8 0x22 = some (.readMemory 0 0) := by decide
theorem test_tableWord_catalogAdd : decodeTableWord 8 0x41 = some (.catalogAdd 0 0 0 false false [] [] []) := by
  decide +kernel

/-! ### Wire words written out from R110 to R115 (95_test_vectors.md V2, V4), with the candidate parameters of 00_scope.md R7. -/

/-- The entry A of the reference environment: STM32F103C8 by ST. -/
def deviceA : DeviceDescriptor where
  partId := 0x0BA01477#28
  name := [0x53#8, 0x54#8, 0x4D#8, 0x33#8, 0x32#8, 0x46#8, 0x31#8, 0x30#8, 0x33#8, 0x43#8, 0x38#8]
  vendor := [0x53#8, 0x54#8]
  flashSize := 65536#32
  ramSize := 20480#32
  regions := [⟨0x08000000#32, 65536#32, 1024#32⟩]
  fpu := false
  dsp := false

/-- The candidates of R7, with the bounds of the reference environment E0. -/
def params : Params where
  irDpacc := 0x0A#8
  irApacc := 0x0B#8
  waitRetryMax := 3
  waitReadyMax := 3
  tckHalfPeriodUs := 1
  cswBase := 0x23000000#32
  flashKeyr := 0x40022004#32
  flashSr := 0x4002200C#32
  flashCr := 0x40022010#32
  flashAr := 0x40022014#32
  flashKey1 := 0x45670123#32
  flashKey2 := 0xCDEF89AB#32
  crPg := 1#32
  crPer := 2#32
  crStrt := 0x40#32
  refSectorSize := 1024
  refNamePattern := [0x53#8, 0x54#8, 0x4D#8, 0x33#8, 0x32#8, 0x46#8, 0x31#8]
  catalog0 := [deviceA]
  defaultEraseRange := (0x08000000#32, 0x00010000#32)
  ok := by decide +kernel

theorem test_decode_irBypass : decode params.toRawParams (.irScan 0xFF#8) = .ok .irBypass := by decide
theorem test_decode_irDpacc : decode params.toRawParams (.irScan 0x0A#8) = .ok .irDpacc := by decide
theorem test_decode_irApacc : decode params.toRawParams (.irScan 0x0B#8) = .ok .irApacc := by decide
theorem test_decode_dpSelectWrite :
    decode params.toRawParams (.frame true 0x008000784#35) = .ok (.dpSelectWrite 0x010000F0#32) := by decide
theorem test_decode_dpRdbuffRead : decode params.toRawParams (.frame true 0x000000007#35) = .ok .dpRdbuffRead := by decide
theorem test_decode_apCswWrite :
    decode params.toRawParams (.frame false 0x118000010#35) = .ok (.apCswWrite 0x23000002#32) := by decide
theorem test_decode_apTarWrite :
    decode params.toRawParams (.frame false 0x700076F82#35) = .ok (.apTarWrite 0xE000EDF0#32) := by decide
theorem test_decode_apDrwWrite :
    decode params.toRawParams (.frame false 0x6F56DF77E#35) = .ok (.apDrwWrite 0xDEADBEEF#32) := by decide
theorem test_decode_apDrwRead : decode params.toRawParams (.frame false 0x000000007#35) = .ok .apDrwRead := by decide
theorem test_decode_frame_none : decode params.toRawParams (.frame true 0x000000000#35) = .error .notEmitted := by decide

/-- A symbol: TMS, TDI. -/
def sy (tms tdi : Nat) : Symbol := ⟨tms == 1, tdi == 1⟩

theorem test_decode_tmsTapReset :
    decode params.toRawParams (.cycles [sy 1 0, sy 1 0, sy 1 0, sy 1 0, sy 1 0, sy 0 0]) = .ok .tmsTapReset := by decide
theorem test_decode_tmsIrEntry :
    decode params.toRawParams (.cycles [sy 1 0, sy 1 0, sy 0 0, sy 0 0]) = .ok .tmsIrEntry := by decide
theorem test_decode_tmsDrEntry : decode params.toRawParams (.cycles [sy 1 0, sy 0 0, sy 0 0]) = .ok .tmsDrEntry := by decide
theorem test_decode_tmsShiftBody :
    decode params.toRawParams (.cycles [sy 0 1, sy 0 0, sy 1 1]) = .ok (.tmsShiftBody [true, false, true]) := by decide
theorem test_decode_tmsScanExit : decode params.toRawParams (.cycles [sy 1 0, sy 0 0]) = .ok .tmsScanExit := by decide

/-! ### The tables of 95_test_vectors.md V1, V4, V7. -/

/-- V1: the states after each of five TMS-high clocks. -/
theorem test_next_five_high :
    [TapState.shDr, .paIr, .selIr, .upDr].map (fun q => (List.range 6).map fun n =>
        tapAfter q (List.replicate n (sy 1 0)))
      = [[.shDr, .ex1Dr, .upDr, .selDr, .selIr, .tlr], [.paIr, .ex2Ir, .upIr, .selDr, .selIr, .tlr],
        [.selIr, .tlr, .tlr, .tlr, .tlr, .tlr], [.upDr, .selDr, .selIr, .tlr, .tlr, .tlr]] := by decide

/-- The states of a DR scan that pauses, by 40_tap.md R144. -/
theorem test_next_low :
    [TapState.tlr, .rti, .selDr, .capDr, .shDr, .ex1Dr, .paDr, .ex2Dr, .upDr, .selIr, .capIr, .shIr, .ex1Ir, .paIr, .ex2Ir,
        .upIr, .unknown].map (·.next false)
      = [.rti, .rti, .capDr, .shDr, .shDr, .paDr, .paDr, .shDr, .rti, .capIr, .shIr, .shIr, .paIr, .paIr, .shIr, .rti,
        .unknown] := by decide

/-- V4, select words. -/
theorem test_select_words :
    [selWord 1#8 0xF4#32, selWord 0xFF#8 0xFFFFFFFF#32, selWord 0#8 0x0F#32, selWord 2#8 0x10#32,
        selWord 0x80#8 0x12345678#32]
      = [0x010000F0#32, 0xFF0000F0#32, 0#32, 0x02000010#32, 0x80000070#32] := by decide

/-- V4, frames shifted in. -/
theorem test_frames_out :
    [frameOut 0b10#2 false 0xFF0000F0#32, frameOut 0b00#2 false 0x23000001#32, frameOut 0b01#2 false 0x20000004#32,
        frameOut 0b11#2 false 0xA05F0003#32, frameOut 0b11#2 false 0x05FA0004#32]
      = [0x7F8000784#35, 0x118000008#35, 0x100000022#35, 0x502F8001E#35, 0x02FD00026#35] := by decide

/-- V4, frames captured. -/
theorem test_frames_in :
    [0x6F56DF77A#35, 0x0DD00A3BA#35, 0x000000001#35, 0x000000004#35, 0x7FFFFFFFF#35].map
        (fun f => (ackOf f, rdataOf f, classify (ackOf f)))
      = [(0b010#3, 0xDEADBEEF#32, .ok), (0b010#3, 0x1BA01477#32, .ok), (0b001#3, 0#32, .wait), (0b100#3, 0#32, .invalid),
        (0b111#3, 0xFFFFFFFF#32, .invalid)] := by decide

/-- V4, half-word lanes. -/
theorem test_lanes :
    [lane16 0x08000000#32 0x0201#16, lane16 0x08000002#32 0x0403#16, lane16 0x08000002#32 0xBEEF#16]
      = [0x00000201#32, 0x04030000#32, 0xBEEF0000#32] := by decide

/-- V7, the status decode. -/
theorem test_status_bytes :
    [0x00#32, 0x01#32, 0x04#32, 0x10#32, 0x14#32, 0x20#32, 0x21#32, 0x25#32, 0x34#32, 0x02#32, 0x08#32, 0x40#32,
        0xFFFFFFFF#32].map (fun sr => statusByte (decodeStatus sr))
      = [0x00#8, 0x01#8, 0x02#8, 0x02#8, 0x02#8, 0x04#8, 0x05#8, 0x07#8, 0x06#8, 0x00#8, 0x00#8, 0x00#8, 0x07#8] := by decide

/-- V7, the erase walk. -/
theorem test_sectors :
    sectorStarts params.toRawParams 0x08000200 2048 = [0x08000000, 0x08000400, 0x08000800]
      ∧ sectorStarts params.toRawParams 0x08000000 3072 = [0x08000000, 0x08000400, 0x08000800]
      ∧ sectorStarts params.toRawParams 0x080003FF 2 = [0x08000000, 0x08000400]
      ∧ sectorStarts params.toRawParams 0x08000400 1024 = [0x08000400] := by decide +kernel

/-- V7, the chunks of 2500 bytes. -/
theorem test_chunks :
    (List.range (chunkCount 2500)).map
        (fun k => (chunkAddr 0x08000000#32 k, (chunkOf (List.replicate 2500 0#8) k).length))
      = [(0x08000000#32, 1024), (0x08000400#32, 1024), (0x08000800#32, 452)] := by decide +kernel

/-- V9, error records. -/
theorem test_records :
    resultWord (.error ⟨.protocolError, .program, 0x08000400#32, 1⟩) = [0x02, 0x02, 0x00, 0x04, 0x00, 0x08, 0x01]
      ∧ resultWord (.error ⟨.transportError, .none, 0x20000008#32, 0⟩) = [0x01, 0x00, 0x08, 0x00, 0x00, 0x20, 0x00]
      ∧ resultWord (.error ⟨.flashTimeoutError, .erase, 0x08000400#32, 0⟩) = [0x06, 0x01, 0x00, 0x04, 0x00, 0x08, 0x00]
      ∧ resultWord (.error ⟨.noDeviceError, .none, 0xFFFFFFFF#32, 0⟩) = [0x03, 0x00, 0xFF, 0xFF, 0xFF, 0xFF, 0x00] := by
  decide

/-! ### Small states, and what a step on one shows. -/

/-- After power-on, with a transport that works. -/
def closed : State := { State.powerOn params with link := .working }
/-- A session, the TAP not yet reset. -/
def opened : State := { closed with isOpen := true }
/-- After a TAP reset. -/
def idle : State := { opened with tap := .rti }
/-- Bound to A. -/
def bound : State := { idle with device := some deviceA }
/-- Bound to A, AP 0 bank 0 selected. -/
def selected : State := { bound with selValid := true }
/-- The reference driver bound. -/
def driven : State := { selected with driver := some .ref }
/-- The flash unlocked. -/
def unlocked : State := { driven with flashUnlocked := true }

/-- An OK frame with a read word. -/
def ok (w : Word) : BitVec 35 := w ++ 0b010#3
/-- A WAIT frame. -/
def wait : BitVec 35 := 0b001#35
/-- `s`, with TDO answering these frames. -/
def answering (s : State) (fs : List (BitVec 35)) : State := { s with tdo := frameLevels fs }

/-- What `f` reads in the next state. -/
def after {α : Type} (f : State → α) : Outcome → Option α
  | .next t => some (f t)
  | .fault _ | .refused _ => none
/-- The result word. -/
def result (s : State) : List Byte := (s.result.map resultWord).getD []
/-- TMS and TDI at each rising edge of TCK, from the pin operations oldest first, with TMS and TDI at these levels before them (40_tap.md R146). -/
def edges : List PinEvent → Bool → Bool → List Symbol
  | [], _, _ => []
  | ⟨.setPin .tms l, .done⟩ :: rest, _, tdi => edges rest l tdi
  | ⟨.setPin .tdi l, .done⟩ :: rest, tms, _ => edges rest tms l
  | ⟨.setPin .tck true, .done⟩ :: rest, tms, tdi => ⟨tms, tdi⟩ :: edges rest tms tdi
  | _ :: rest, tms, tdi => edges rest tms tdi
/-- The clocks of a run. -/
def clocks (s : State) : List Symbol := edges s.trace.reverse false false
/-- The scans a target in Run-Test/Idle received. -/
def scanned (s : State) : List Scan := scansOf (clocks s)
/-- TMS and TDI of each clock. -/
def levels (s : State) : List (Nat × Nat) := (clocks s).map fun y => (y.tms.toNat, y.tdi.toNat)
/-- The refusal. -/
def refusal : Outcome → Option Refusal
  | .refused r => some r
  | .next _ | .fault _ => none

/-- A scan written as a number: the IR code, and the frame shifted in. -/
def sent (code : Nat) (f : Nat) : List Scan := [.ir (bitsOf 8 code), .dr (bitsOf 35 f)]

/-! ### The instructions, one step each (95_test_vectors.md V2 to V8). -/

theorem test_sessionOpen : after (fun t => (result t, t.isOpen, t.tap, t.pinTck)) (exec .sessionOpen closed)
    = some ([0x00], true, .unknown, none) := by decide +kernel
/-- 60_exceptions.md R306: a failed open changes nothing. -/
theorem test_sessionOpen_fails :
    after (fun t => (result t, t.isOpen, t.tap)) (exec .sessionOpen { idle with isOpen := false, link := .failsAfter 0 .working })
      = some ([0x01, 0x00, 0x00, 0x00, 0x00, 0x00, 0x00], false, .rti) := by decide +kernel
theorem test_sessionClose : after (fun t => (result t, t.isOpen, t.tap)) (exec .sessionClose idle)
    = some ([0x00], false, .rti) := by decide +kernel
/-- T1. -/
theorem test_tapReset :
    after (fun t => (levels t, t.trace.length, t.tap, [t.pinTck, t.pinTms, t.pinTdi])) (exec .tapReset opened)
      = some ([(1, 0), (1, 0), (1, 0), (1, 0), (1, 0), (0, 0)], 36, .rti, [some true, some false, some false]) := by
  decide +kernel
/-- T15. -/
theorem test_tapReset_closed : refusal (exec .tapReset closed) = some .closed := by decide +kernel
/-- T5. -/
theorem test_shiftIr :
    after (fun t => (levels t, t.trace.length, t.ir)) (exec (.shiftIr (bitsOf 8 0x0A)) idle)
      = some ([(1, 0), (1, 0), (0, 0), (0, 0), (0, 0), (0, 1), (0, 0), (0, 1), (0, 0), (0, 0), (0, 0), (1, 0), (1, 0), (0, 0)],
        84, some [false, true, false, true, false, false, false, false]) := by decide +kernel
/-- T4. -/
theorem test_shiftIr_one :
    after (fun t => (levels t, t.tap)) (exec (.shiftIr [true]) idle)
      = some ([(1, 0), (1, 0), (0, 0), (0, 0), (1, 1), (1, 0), (0, 0)], .rti) := by decide +kernel
/-- T8. -/
theorem test_shiftDr :
    after result (exec (.shiftDr (.low 9)) { idle with tdo := List.replicate 9 true })
      = some [0x00, 0x09, 0x00, 0xFF, 0x01] := by decide +kernel
/-- T16. -/
theorem test_shiftDr_fails :
    after (fun t => (result t, t.tap, t.ir, t.trace.length))
        (exec (.shiftDr (.low 3)) { idle with link := .failsAfter 26 .working })
      = some ([0x01, 0x00, 0x00, 0x00, 0x00, 0x00, 0x00], .unknown, none, 27) := by decide +kernel
/-- T10. -/
theorem test_readIdcode :
    after (fun t => (result t, t.ir, t.trace.length)) (exec .readIdcode { idle with tdo := bitsOf 32 0x1BA01477 })
      = some ([0x00, 0x77, 0x14, 0xA0, 0x1B], some (List.replicate 8 true), 338) := by decide +kernel
/-- T12. -/
theorem test_readIdcode_none :
    after (fun t => (result t, t.tap)) (exec .readIdcode { idle with tdo := List.replicate 32 true })
      = some ([0x03, 0x00, 0xFF, 0xFF, 0xFF, 0xFF, 0x00], .rti) := by decide +kernel
/-- V4, SELECT of AP 1 bank 0xF0. -/
theorem test_selectAp :
    after (fun t => (scanned t, t.selValid, t.selAp, t.selBank)) (exec (.selectAp 1#8 0xF4#32) (answering bound [ok 0]))
      = some (sent 0x0A 0x008000784, true, 1#8, 0xF0#8) := by decide +kernel
/-- S4: WAIT past the bound. -/
theorem test_selectAp_wait :
    after (fun t => (result t, (scanned t).length, t.selValid, t.tap))
        (exec (.selectAp 0#8 0#32) (answering selected [wait, wait, wait, wait]))
      = some ([0x02, 0x00, 0x00, 0x00, 0x00, 0x00, 0x01], 5, false, .rti) := by decide +kernel
/-- M1. -/
theorem test_apTransfer_read :
    after (fun t => (result t, scanned t, t.ir))
        (exec (.apTransfer false 0x20000000#32 0) (answering bound [ok 0, ok 0, ok 0, ok 0x77#32, ok 0xCAFEF00D#32]))
      = some ([0x00, 0x0D, 0xF0, 0xFE, 0xCA],
        sent 0x0A 0x000000004 ++ sent 0x0B 0x118000010 ++ sent 0x0B 0x100000002 ++ sent 0x0B 0x000000007
          ++ sent 0x0A 0x000000007, some (bitsOf 8 0x0A)) := by decide +kernel
/-- M3. -/
theorem test_apTransfer_write :
    after (fun t => (result t, scanned t))
        (exec (.apTransfer true 0x20000000#32 0x12345678#32) (answering selected [ok 0, ok 0, ok 0, ok 0]))
      = some ([0x00, 0x78, 0x56, 0x34, 0x12],
        sent 0x0B 0x118000010 ++ sent 0x0B 0x100000002 ++ sent 0x0B 0x091A2B3C6 ++ sent 0x0A 0x000000007) := by
  decide +kernel
/-- M15. -/
theorem test_readMemory :
    after result (exec (.readMemory 0x20000000#32 8#32)
        (answering selected [ok 0, ok 0, ok 0, ok 0x12345678#32, ok 0, ok 0, ok 0, ok 0xDEADBEEF#32]))
      = some [0x00, 0x08, 0x00, 0x00, 0x00, 0x78, 0x56, 0x34, 0x12, 0xEF, 0xBE, 0xAD, 0xDE] := by decide +kernel
/-- M7. -/
theorem test_readMemory_range : refusal (exec (.readMemory 0xFFFFFFFC#32 8#32) bound) = some .range := by decide +kernel
/-- M16. -/
theorem test_writeMemory_fails :
    after (fun t => (result t, (scanned t).length, t.selValid))
        (exec (.writeMemory 0x20000000#32 [1, 2, 3, 4, 5, 6, 7, 8])
          (answering selected [ok 0, ok 0, ok 0, ok 0, ok 0, ok 0, 0b100#35]))
      = some ([0x02, 0x00, 0x04, 0x00, 0x00, 0x20, 0x04], 14, false) := by decide +kernel
/-- P2 step 5, the DRW write of its second word. -/
theorem test_writeMemory :
    after (fun t => (scanned t).drop 4 |>.take 2)
        (exec (.writeMemory 0x20000004#32 [0xEF, 0xBE, 0xAD, 0xDE]) (answering selected [ok 0, ok 0, ok 0, ok 0]))
      = some (sent 0x0B 0x6F56DF77E) := by decide +kernel
/-- M12. -/
theorem test_coreHalt :
    after scanned (exec .coreHalt (answering selected [ok 0, ok 0, ok 0, ok 0]))
      = some (sent 0x0B 0x118000010 ++ sent 0x0B 0x700076F82 ++ sent 0x0B 0x502F8001E ++ sent 0x0A 0x000000007) := by
  decide +kernel
/-- P5 step 5: a wedged DP. -/
theorem test_coreHalt_wait :
    after (fun t => (result t, (clocks t).length, t.selValid))
        (exec .coreHalt (answering bound [wait, wait, wait, wait]))
      = some ([0x02, 0x00, 0xF0, 0xED, 0x00, 0xE0, 0x01], 174, false) := by decide +kernel
/-- M13. -/
theorem test_coreResume :
    after scanned (exec .coreResume (answering selected [ok 0, ok 0, ok 0, ok 0]))
      = some (sent 0x0B 0x118000010 ++ sent 0x0B 0x700076F82 ++ sent 0x0B 0x502F8000E ++ sent 0x0A 0x000000007) := by
  decide +kernel
/-- M14. -/
theorem test_coreReset :
    after (fun t => (scanned t, t.flashUnlocked, t.selValid)) (exec .coreReset (answering unlocked [ok 0, ok 0, ok 0, ok 0]))
      = some (sent 0x0B 0x118000010 ++ sent 0x0B 0x700076862 ++ sent 0x0B 0x02FD00026 ++ sent 0x0A 0x000000007, false, true) := by
  decide +kernel
/-- M17. -/
theorem test_deviceBind :
    after (fun t => (result t, t.device, t.driver, t.flashUnlocked, t.selValid)) (exec (.deviceBind 0x1BA01477#32) unlocked)
      = some ([0x00], some deviceA, none, false, false) := by decide +kernel
/-- M18. -/
theorem test_deviceBind_none :
    after (fun t => (result t, t.device)) (exec (.deviceBind 0x1BA01477#32) { bound with catalog := [] })
      = some ([0x04, 0x00, 0x77, 0x14, 0xA0, 0x1B, 0x00], some deviceA) := by decide +kernel
/-- F8: the name `stm32f103`. -/
theorem test_flashDetect :
    after (fun t => (result t, t.driver))
        (exec .flashDetect { bound with device := some { deviceA with
          name := [0x73, 0x74, 0x6D, 0x33, 0x32, 0x66, 0x31, 0x30, 0x33] } })
      = some ([0x00, 0x01], some .ref) := by decide +kernel
/-- F10: the name `xSTM32F1`. -/
theorem test_flashDetect_none :
    after (fun t => (result t, t.driver, t.flashUnlocked))
        (exec .flashDetect { unlocked with device := some { deviceA with
          name := [0x78, 0x53, 0x54, 0x4D, 0x33, 0x32, 0x46, 0x31] } })
      = some ([0x04, 0x00, 0x00, 0x00, 0x00, 0x00, 0x00], none, false) := by decide +kernel
/-- F12: the two keys, as DRW frames (R112). -/
theorem test_flashInit :
    after (fun t => (result t, t.flashUnlocked, scanned t)) (exec .flashInit (answering driven (List.replicate 8 (ok 0))))
      = some ([0x00], true, writeScans params.toRawParams .word 0x40022004#32 0x45670123#32
          ++ writeScans params.toRawParams .word 0x40022004#32 0xCDEF89AB#32) := by decide +kernel
theorem test_flashStatus :
    after result (exec .flashStatus (answering driven [ok 0, ok 0, ok 0, ok 0x25#32])) = some [0x00, 0x07] := by
  decide +kernel
/-- F13. -/
theorem test_flashErase :
    after (fun t => (result t, scanned t)) (exec (.flashErase 0x08000000#32 4#32) (answering unlocked (List.replicate 24 (ok 0))))
      = some ([0x00], readScans params.toRawParams 0x4002200C#32
          ++ writeScans params.toRawParams .word 0x40022014#32 0x08000000#32
          ++ writeScans params.toRawParams .word 0x40022010#32 0x02#32
          ++ writeScans params.toRawParams .word 0x40022010#32 0x42#32
          ++ readScans params.toRawParams 0x4002200C#32
          ++ writeScans params.toRawParams .word 0x40022010#32 0x00#32) := by decide +kernel
/-- F14: the second wait of the first sector times out. -/
theorem test_flashErase_timeout :
    after result (exec (.flashErase 0x08000200#32 2048#32)
        (answering unlocked (List.replicate 16 (ok 0)
          ++ [ok 0, ok 0, ok 0, ok 1, ok 0, ok 0, ok 0, ok 1, ok 0, ok 0, ok 0, ok 1])))
      = some [0x06, 0x01, 0x00, 0x00, 0x00, 0x08, 0x00] := by decide +kernel
/-- F21: the first half-word's wait finds an error; the page program is left on. -/
theorem test_flashProgram_status :
    after (fun t => (result t, t.flashUnlocked, (scanned t).length))
        (exec (.flashProgram 0x08000000#32 [1, 2, 3, 4])
          (answering unlocked (List.replicate 12 (ok 0) ++ [ok 0, ok 0, ok 0, ok 0x14#32])))
      = some ([0x08, 0x02, 0x00, 0x00, 0x00, 0x08, 0x14], true, 32) := by decide +kernel
/-- F15, its first four bytes: the half-word frames of V4. -/
theorem test_flashProgram :
    after (fun t => (result t, ((scanned t).drop 20).take 2, ((scanned t).drop 36).take 2))
        (exec (.flashProgram 0x08000000#32 [1, 2, 3, 4])
          (answering unlocked (List.replicate 31 (ok 0) ++ [ok 0x04030201#32])))
      = some ([0x00], sent 0x0B 0x00000100E, sent 0x0B 0x020180006) := by decide +kernel
/-- F19. -/
theorem test_flashVerify :
    after result (exec (.flashVerify 0x08000000#32 [0xFF, 0xFF, 0xFF, 0xFF])
        (answering driven [ok 0, ok 0, ok 0, ok 0xFFFFFFFF#32])) = some [0x00] := by decide +kernel
/-- F20. -/
theorem test_flashVerify_mismatch :
    after result (exec (.flashVerify 0x08000000#32 [0x00, 0x00, 0x00, 0x00])
        (answering driven [ok 0, ok 0, ok 0, ok 0xFFFFFFFF#32]))
      = some [0x07, 0x03, 0x00, 0x00, 0x00, 0x08, 0x00] := by decide +kernel
/-- K1 and K2: two entries with one id, the session closed. -/
theorem test_catalogFind :
    after result (exec (.catalogFind 0x2BA01477#32) { closed with catalog := [deviceA, deviceA] })
      = some [0x00, 0x01, 0x00, 0x00, 0x00, 0x00] := by decide +kernel
/-- K3. -/
theorem test_catalogFind_none : after result (exec (.catalogFind 0xFFFFFFFF#32) closed) = some [0x00, 0x00] := by
  decide +kernel
/-- K5. -/
theorem test_catalogAdd :
    after (fun t => (result t, t.catalog.map DeviceDescriptor.partId))
        (exec (.catalogAdd 0xFBA01477#32 0 0 false false [] [] []) closed)
      = some ([0x00], [0x0BA01477#28, 0x0BA01477#28]) := by decide +kernel

theorem test_irBypass : after scanned (exec .irBypass idle) = some [.ir (List.replicate 8 true)] := by decide +kernel
theorem test_irDpacc : after scanned (exec .irDpacc idle)
    = some [.ir [false, true, false, true, false, false, false, false]] := by decide +kernel
theorem test_irApacc : after scanned (exec .irApacc idle)
    = some [.ir [true, true, false, true, false, false, false, false]] := by decide +kernel
theorem test_dpSelectWrite :
    after (fun t => (scanned t, t.selValid, t.selAp, t.selBank)) (exec (.dpSelectWrite 0xFF0000F0#32) (answering idle [ok 0]))
      = some (sent 0x0A 0x7F8000784, true, 0xFF#8, 0xF0#8) := by decide +kernel
theorem test_dpRdbuffRead :
    after (fun t => (scanned t, result t)) (exec .dpRdbuffRead (answering idle [ok 0xDEADBEEF#32]))
      = some (sent 0x0A 0x000000007, [0x00, 0xEF, 0xBE, 0xAD, 0xDE]) := by decide +kernel
theorem test_apCswWrite :
    after scanned (exec (.apCswWrite 0x23000001#32) (answering idle [ok 0])) = some (sent 0x0B 0x118000008) := by
  decide +kernel
theorem test_apTarWrite :
    after scanned (exec (.apTarWrite 0x20000004#32) (answering idle [ok 0])) = some (sent 0x0B 0x100000022) := by
  decide +kernel
theorem test_apDrwWrite :
    after (fun t => (scanned t, result t)) (exec (.apDrwWrite 0xA05F0001#32) (answering idle [ok 0xDEADBEEF#32]))
      = some (sent 0x0B 0x502F8000E, [0x00]) := by decide +kernel
/-- S2: two WAITs, then the word. -/
theorem test_apDrwRead :
    after (fun t => (result t, (clocks t).length)) (exec .apDrwRead (answering idle [wait, wait, ok 0x12345678#32]))
      = some ([0x00, 0x78, 0x56, 0x34, 0x12], 134) := by decide +kernel
theorem test_tmsTapReset :
    after (fun t => (levels t, t.tap, t.ir)) (exec .tmsTapReset { opened with ir := some [true] })
      = some ([(1, 0), (1, 0), (1, 0), (1, 0), (1, 0), (0, 0)], .rti, some [true]) := by decide +kernel
theorem test_tmsIrEntry :
    after (fun t => (levels t, t.tap)) (exec .tmsIrEntry idle) = some ([(1, 0), (1, 0), (0, 0), (0, 0)], .shIr) := by
  decide +kernel
theorem test_tmsDrEntry :
    after (fun t => (levels t, t.tap)) (exec .tmsDrEntry idle) = some ([(1, 0), (0, 0), (0, 0)], .shDr) := by decide +kernel
theorem test_tmsShiftBody :
    after (fun t => (levels t, t.tap, t.result)) (exec (.tmsShiftBody [true, false, true])
        { opened with tap := .shDr, tdo := [true, true, false] })
      = some ([(0, 1), (0, 0), (1, 1)], .ex1Dr, some (.ok (.bits [true, true, false]))) := by decide +kernel
theorem test_tmsShiftBody_ir :
    after (fun t => (t.tap, t.result, t.samples)) (exec (.tmsShiftBody [true]) { opened with tap := .shIr })
      = some (.ex1Ir, some (.ok (.bits [])), 0) := by decide +kernel
theorem test_tmsScanExit :
    after (fun t => (levels t, t.tap)) (exec .tmsScanExit { opened with tap := .ex1Dr }) = some ([(1, 0), (0, 0)], .rti) := by
  decide +kernel

/-! ### The step, the configuration, the assembly and an expansion. -/

/-- A word of the host's runs as the next command. -/
theorem test_step_runs :
    after (fun t => (t.cmds, t.tap)) (step (opened.withFetchWord 8 0x10)) = some ([], .rti) := by decide +kernel
/-- 00_scope.md R8: a CSW base with a nonzero size field is refused. -/
theorem test_configure : refusal (configure { params.toRawParams with cswBase := 0x23000002#32 }) = some .config := by
  decide +kernel
/-- P2 step 5's line (30_encoding.md R130). -/
theorem test_assemble :
    assemble ⟨"AP_TRANSFER", [.write, .num 0x20000003, .num 0]⟩ = some (.apTransfer true 0x20000003#32 0)
      ∧ assemble ⟨"SHIFT_IR", [.num 3, .num 8]⟩ = none := by decide +kernel
/-- P1. -/
theorem test_pseudo_scan :
    after (fun t => (result t, t.tap, (clocks t).length)) (runPseudo .scan { closed with tdo := bitsOf 32 0x1BA01477 })
      = some ([0x00, 0x01, 0x00, 0x00, 0x00, 0x00], .rti, 57) := by decide +kernel

/-- 00_scope.md R10: the length of a file that no u32 holds is not wrapped. -/
theorem test_pseudo_flash_long : ∀ (file : List Byte) (s : State), 2 ^ 32 ≤ file.length →
    eraseAndProgram 0x08000000#32 file s = .refused .range := fun file s h => by
  rw [eraseAndProgram, if_neg (by omega)]
/-- 30_encoding.md R105: the index of a found entry. -/
theorem test_index_field : resultWord (.ok (.found (some 0x01020304))) = [0x00, 0x01, 0x04, 0x03, 0x02, 0x01] := by decide +kernel

/-! ### Witnesses: for every obligation with hypotheses, a state and operands that meet them together. -/

theorem next_of_after {o : Outcome} (h : (after (fun _ => ()) o).isSome = true) : ∃ t, o = .next t := by
  cases o with
  | next t => exact ⟨t, rfl⟩
  | fault f => cases f
  | refused r => cases h

/-- Frames that are all acknowledged. -/
theorem acksOk_listed {s : State} (fs : List (BitVec 35)) (n : Nat) (h : s.tdo = frameLevels fs) (hn : n ≤ fs.length)
    (ha : ∀ f ∈ fs, ackOf f = 0b010#3) : s.acksOk n = true := by
  simp only [State.acksOk, List.all_eq_true, List.mem_range, beq_iff_eq]
  intro j hj
  rw [State.frameAt_listed h (by omega)]
  exact ha _ (List.getElem_mem _)

/-- Frames that are all OK with the read word 0: ready, and reading back zeros. -/
theorem frameAt_zero {s : State} (n : Nat) (h : s.tdo = frameLevels (List.replicate n (ok 0))) {j : Nat} (hj : j < n) :
    s.frameAt j = ok 0 := by
  rw [State.frameAt_listed h (by simpa using hj)]; simp

theorem acksOk_zero {s : State} (n k : Nat) (h : s.tdo = frameLevels (List.replicate n (ok 0))) (hk : k ≤ n) :
    s.acksOk k = true :=
  acksOk_listed _ k h (by simpa using hk) fun f hf => by rw [List.eq_of_mem_replicate hf]; decide

theorem readyAt_zero {s : State} (n : Nat) (h : s.tdo = frameLevels (List.replicate n (ok 0))) {j : Nat} (hj : j < n) :
    s.readyAt j = true := by rw [State.readyAt, frameAt_zero n h hj]; decide

theorem readBack_zero {s : State} (n j k : Nat) (h : s.tdo = frameLevels (List.replicate n (ok 0))) (hk : j + 4 * k ≤ n) :
    s.readBack j k = List.replicate (4 * k) 0 := by
  induction k with
  | zero => rfl
  | succ k ih =>
    rw [State.readBack, List.range_succ, List.flatMap_append, ← State.readBack, ih (by omega)]
    simp only [List.flatMap_cons, List.flatMap_nil]
    rw [frameAt_zero n h (by omega), show 4 * (k + 1) = 4 * k + 4 by ring, List.replicate_add]
    exact congrArg _ (by decide)

theorem witness_CommandWordsDecodeEncode :
    (Instr.shiftIr []).WellFormed = true ∧ (Instr.shiftDr (.low 65535)).WellFormed = true
      ∧ (Instr.catalogAdd 0 0 0 true true (List.replicate 255 0x41#8) [] [⟨0, 0, 0⟩]).WellFormed = true
      ∧ (Instr.catalogAdd 0 0 0 true true (List.replicate 255 0x41#8) [] [⟨0, 0, 0⟩]).isCommand = true := by decide +kernel

theorem witness_DecodedWordsReencode : decodeCommand [0x11#8, 0x00#8, 0x00#8] = .ok (.shiftIr []) := by decide

theorem witness_WireWordsDecodeEncode :
    params.irDpacc ≠ params.irApacc ∧ params.irDpacc ≠ irBypassCode ∧ params.irApacc ≠ irBypassCode
      ∧ (Instr.dpSelectWrite 0xFF0000F0#32).WellFormed = true ∧ (Instr.dpSelectWrite 0xFF0000F0#32).isCommand = false
      ∧ (Instr.tmsShiftBody [true]).WellFormed = true ∧ (Instr.tmsShiftBody [true]).isCommand = false := by decide

/-- The ends of every gap of R102. -/
theorem witness_IllegalOpcodesRefused :
    (∀ op ∈ [0x00#8, 0x03#8, 0x0F#8, 0x14#8, 0x1F#8, 0x28#8, 0x2F#8, 0x36#8, 0x3F#8, 0x42#8, 0xFF#8],
      (op.toNat = 0x00 ∨ (0x03 ≤ op.toNat ∧ op.toNat ≤ 0x0F) ∨ (0x14 ≤ op.toNat ∧ op.toNat ≤ 0x1F)
        ∨ (0x28 ≤ op.toNat ∧ op.toNat ≤ 0x2F) ∨ (0x36 ≤ op.toNat ∧ op.toNat ≤ 0x3F) ∨ 0x42 ≤ op.toNat))
      ∧ ({ closed with cmds := [[0x00#8]] } : State).cmds = (0x00#8 :: []) :: [] := by decide

theorem witness_StepRunsDecodedCommand :
    (({ closed with cmds := [[0x01#8]] } : State).cmds = [[0x01#8]] ∧ decodeCommand [0x01#8] = .ok .sessionOpen)
      ∧ (({ closed with cmds := [[]] } : State).cmds = [[]] ∧ decodeCommand [] = .error .truncated)
      ∧ closed.cmds = [] := by decide

theorem witness_AssemblyRoundTrip :
    (Instr.apTransfer false 0x20000000#32 0).WellFormed = true ∧ (Instr.apTransfer false 0x20000000#32 0).isCommand = true
      ∧ ∀ addr data, Instr.apTransfer false 0x20000000#32 0 = .apTransfer false addr data → data = 0 :=
  ⟨rfl, rfl, fun _ _ h => by injection h with _ _ h; exact h.symm⟩

theorem witness_FrameLayout : (List.replicate 35 true).length = 35 := by decide

theorem witness_DataWordsAssemble : (0x23000000#32).toNat % 64 = 0 := by decide

theorem witness_ErrorWordsAreFaithful :
    resultWord (.error ⟨.alignmentError, .program, 0x08000002#32, 0⟩) = [0x05, 0x02, 0x02, 0x00, 0x00, 0x08, 0x00] := by decide

theorem unlocked_inv : unlocked.Inv :=
  ⟨rfl, .inl rfl, ⟨rfl, fun _ => ⟨rfl, rfl⟩⟩, ⟨fun _ => ⟨deviceA, rfl, by decide +kernel⟩, fun _ => rfl⟩, rfl,
    fun h => absurd h (by decide)⟩

theorem witness_StepKeepsInvariant :
    ({ unlocked with cmds := [[0x26#8]] } : State).Inv ∧ ∃ t, step { unlocked with cmds := [[0x26#8]] } = .next t :=
  ⟨unlocked_inv, next_of_after (by decide +kernel)⟩

/-- `opened` after the pin operations of a TAP reset. -/
def reset : State := match resetCycles opened with | .ok _ s => s | .raise _ s => s

theorem witness_StepKeepsMirrorRight :
    ({ reset with cmds := [[0x13#8]] } : State).tapAtRest ∧ ({ reset with cmds := [[0x13#8]] } : State).mirrorRight
      ∧ ({ reset with cmds := [[0x13#8]] } : State).tap = .rti
      ∧ ∃ t, step { reset with cmds := [[0x13#8]], tdo := List.replicate 32 true } = .next t := by
  have rti : reset.tap = .rti := by decide +kernel
  have seen : symbols reset.trace = [sy 1 0, sy 1 0, sy 1 0, sy 1 0, sy 1 0, sy 0 0] := by decide +kernel
  have right : ∀ q : TapState, q ≠ .unknown → tapAfter q [sy 1 0, sy 1 0, sy 1 0, sy 1 0, sy 1 0, sy 0 0] = .rti := by
    intro q; cases q <;> decide
  refine ⟨.inl rti, fun _ q h => ?_, rti, next_of_after (by decide +kernel)⟩
  show tapAfter q (symbols reset.trace) = reset.tap
  rw [rti, seen]; exact right q h

theorem witness_CatalogIsAppendOnly : ∃ t, step { closed with cmds := [[0x01#8]] } = .next t :=
  next_of_after (by decide +kernel)

theorem witness_PinDisciplineOfEveryInstruction : ∃ t, exec .tmsScanExit { opened with tap := .ex1Dr } = .next t :=
  next_of_after (by decide +kernel)

/-- Every clause's field can change. -/
theorem witness_FieldsHaveTheirWriters :
    after State.isOpen (exec .sessionOpen closed) = some true ∧ closed.isOpen = false
      ∧ after State.device (exec (.deviceBind 0x1BA01477#32) opened) = some (some deviceA) ∧ opened.device = none
      ∧ after State.driver (exec .flashDetect bound) = some (some .ref) ∧ bound.driver = none
      ∧ after State.flashUnlocked (exec .coreReset (answering unlocked [ok 0, ok 0, ok 0, ok 0])) = some false
      ∧ unlocked.flashUnlocked = true
      ∧ after (fun t => t.catalog.length) (exec (.catalogAdd 0 0 0 false false [] [] []) closed) = some 2
      ∧ closed.catalog.length = 1 := by decide +kernel

theorem witness_SelectShadowHasItsWriters :
    needsDevice .readIdcode = false ∧ Instr.readIdcode ≠ .sessionOpen
      ∧ (∃ t, exec .readIdcode { selected with tdo := List.replicate 32 true } = .next t) :=
  ⟨by decide, by decide, next_of_after (by decide +kernel)⟩

theorem witness_GateRefusals :
    (Instr.catalogFind 0#32).isCommand = true ∧ ({ closed with busy := true } : State).busy = true
      ∧ Instr.tapReset.isCommand = true ∧ closed.busy = false ∧ needsSession .tapReset = true ∧ closed.isOpen = false := by
  decide

theorem witness_SessionOpenCompletes :
    opened.busy = false ∧ opened.isOpen = true ∧ closed.busy = false ∧ closed.isOpen = false
      ∧ (closed.link.next closed.ops).1 = true
      ∧ (({ closed with link := .failsAfter 0 .free } : State).link.next closed.ops).1 = false := by decide

theorem witness_SessionCloseCompletes :
    opened.busy = false ∧ opened.isOpen = true ∧ needsSession .tapReset = true := by decide

theorem witness_FiveHighPulsesReachReset : TapState.paIr ≠ .unknown := by decide

theorem witness_ClockPinOrder : closed.link = .working := rfl

theorem witness_TapResetCompletes : SessionReady opened ∧ opened.tap = .unknown := ⟨⟨rfl, rfl, rfl⟩, rfl⟩

theorem idle_ready : ScanReady idle := ⟨⟨rfl, rfl, rfl⟩, rfl⟩

theorem witness_ShiftIrCompletes : ScanReady idle ∧ [true] ≠ [] := ⟨idle_ready, by decide⟩

theorem witness_ShiftDrCompletes : ScanReady idle ∧ 1 ≤ shiftLen (.low 1) ∧ 1 ≤ shiftLen (.bits [false]) :=
  ⟨idle_ready, by decide, by decide⟩

/-- An answer of each kind: a device, and both sentinels. -/
theorem witness_ReadIdcodeCompletes :
    ScanReady { idle with tdo := bitsOf 32 0x1BA01477 } ∧ ScanReady { idle with tdo := List.replicate 32 false }
      ∧ ScanReady { idle with tdo := List.replicate 32 true }
      ∧ BitVec.ofNat 32 (value (({ idle with tdo := bitsOf 32 0x1BA01477 } : State).tdoBits 32)) = 0x1BA01477#32
      ∧ BitVec.ofNat 32 (value (({ idle with tdo := List.replicate 32 false } : State).tdoBits 32)) = 0#32
      ∧ BitVec.ofNat 32 (value (({ idle with tdo := List.replicate 32 true } : State).tdoBits 32)) = 0xFFFFFFFF#32 :=
  ⟨⟨⟨rfl, rfl, rfl⟩, rfl⟩, ⟨⟨rfl, rfl, rfl⟩, rfl⟩, ⟨⟨rfl, rfl, rfl⟩, rfl⟩, by decide +kernel, by decide +kernel, by decide +kernel⟩

theorem witness_ScanPinOperationCounts : ScanReady idle ∧ [true] ≠ [] := ⟨idle_ready, by decide⟩

theorem witness_ScanRefusals :
    opened.busy = false ∧ opened.isOpen = true ∧ shiftLen (.low 0) = 0 ∧ shiftLen (.bits []) = 0 ∧ opened.tap = .unknown
      ∧ [true] ≠ [] ∧ shiftLen (.low 1) ≠ 0 ∧ needsDevice .coreHalt = true
      ∧ ({ opened with device := some deviceA } : State).device.isSome = true
      ∧ ({ opened with device := some deviceA } : State).tap = .unknown := by decide

/-- A failure at the first and at the last operation of a one-bit SHIFT_IR. -/
theorem witness_TransportFailureIsPrecise :
    idle.busy = false ∧ idle.isOpen = true ∧ idle.tap = .rti ∧ [true] ≠ []
      ∧ (({ idle with link := .failsAfter 0 .free } : State).link = .failsAfter 0 .free ∧ 0 < 6 * ([true].length + 6))
      ∧ (({ idle with link := .failsAfter 41 .free } : State).link = .failsAfter 41 .free ∧ 41 < 6 * ([true].length + 6)) := by
  decide

theorem witness_TransportErrorState :
    Instr.coreReset ≠ .sessionOpen
      ∧ after State.result (exec .coreReset { unlocked with link := .failsAfter 5 .working })
        = some (some (.error ⟨.transportError, .none, 0xE000ED0C#32, 0⟩)) := by decide +kernel

theorem witness_ProtocolErrorState :
    after State.result (exec .coreHalt (answering selected [0b111#35]))
      = some (some (.error ⟨.protocolError, .none, 0xE000EDF0#32, 7⟩)) := by decide +kernel

/-- No WAIT, and as many as are retried. -/
theorem witness_FrameRowsRetryWait :
    idle.isOpen = true ∧ idle.link = .working ∧ idle.tap = .rti
      ∧ frameAccess params.toRawParams .dpRdbuffRead = some (0x0A#8, 0b11#2, true, 0)
      ∧ frameAccess params.toRawParams (.dpSelectWrite 0x010000F0#32) = some (0x0A#8, 0b10#2, false, 0x010000F0#32)
      ∧ 3 ≤ params.waitRetryMax
      ∧ (∀ j < 3, ackOf ((answering idle [wait, wait, wait, ok 1]).frameAt j) = 0b001#3)
      ∧ ackOf ((answering idle [wait, wait, wait, ok 1]).frameAt 3) = 0b010#3
      ∧ ackOf ((answering idle [ok 1]).frameAt 0) = 0b010#3 := by decide +kernel

/-- An invalid acknowledgment at once, and a WAIT too many. -/
theorem witness_FrameRowsFail :
    frameAccess params.toRawParams .apDrwRead = some (0x0B#8, 0b11#2, true, 0)
      ∧ ackOf ((answering idle [0b100#35]).frameAt 0) ≠ 0b010#3 ∧ ackOf ((answering idle [0b100#35]).frameAt 0) ≠ 0b001#3
      ∧ 3 = params.waitRetryMax
      ∧ (∀ j < 3, ackOf ((answering idle [wait, wait, wait, wait]).frameAt j) = 0b001#3)
      ∧ ackOf ((answering idle [wait, wait, wait, wait]).frameAt 3) ≠ 0b010#3 := by decide +kernel

/-- `n` acknowledged frames with the read word 0. -/
def zeroFrames (s : State) (n : Nat) : State := answering s (List.replicate n (ok 0))

theorem zeroFrames_tdo (s : State) (n : Nat) : (zeroFrames s n).tdo = frameLevels (List.replicate n (ok 0)) := rfl

theorem bound_ready (n : Nat) : DapReady (zeroFrames bound n) := ⟨⟨⟨rfl, rfl, rfl⟩, rfl⟩, rfl⟩

theorem witness_SelectApCompletes : DapReady (zeroFrames bound 1) ∧ (zeroFrames bound 1).acksOk 1 = true :=
  ⟨bound_ready 1, acksOk_zero 1 1 rfl (by decide)⟩

theorem witness_ApTransferCompletes :
    DapReady (zeroFrames bound 5) ∧ (0x20000000#32).toNat % 4 = 0
      ∧ (zeroFrames bound 5).acksOk ((zeroFrames bound 5).selectCount + 4) = true :=
  ⟨bound_ready 5, by decide, acksOk_zero 5 5 rfl (by decide)⟩

/-- The last word of the address space, and no word at all. -/
theorem witness_ReadMemoryCompletes :
    DapReady (zeroFrames bound 5) ∧ (0xFFFFFFFC#32).toNat + (4#32).toNat ≤ 2 ^ 32 ∧ (0xFFFFFFFC#32).toNat % 4 = 0
      ∧ (4#32).toNat % 4 = 0 ∧ (4#32) ≠ 0
      ∧ (zeroFrames bound 5).acksOk ((zeroFrames bound 5).selectCount + (4#32).toNat) = true
      ∧ (zeroFrames bound 5).acksOk ((zeroFrames bound 5).selectCount + (0#32).toNat) = true :=
  ⟨bound_ready 5, by decide, by decide, by decide, by decide, acksOk_zero 5 _ rfl (by decide), acksOk_zero 5 _ rfl (by decide)⟩

theorem witness_WriteMemoryCompletes :
    DapReady (zeroFrames bound 5) ∧ (0xFFFFFFFC#32).toNat + ([1, 2, 3, 4] : List Byte).length ≤ 2 ^ 32
      ∧ (0xFFFFFFFC#32).toNat % 4 = 0 ∧ ([1, 2, 3, 4] : List Byte).length % 4 = 0
      ∧ (zeroFrames bound 5).acksOk ((zeroFrames bound 5).selectCount + ([1, 2, 3, 4] : List Byte).length) = true
      ∧ (zeroFrames bound 5).acksOk ((zeroFrames bound 5).selectCount + ([] : List Byte).length) = true :=
  ⟨bound_ready 5, by decide, by decide, by decide, acksOk_zero 5 _ rfl (by decide), acksOk_zero 5 _ rfl (by decide)⟩

theorem witness_CoreControlCompletes :
    DapReady (zeroFrames bound 5) ∧ (zeroFrames bound 5).acksOk ((zeroFrames bound 5).selectCount + 4) = true :=
  ⟨bound_ready 5, acksOk_zero 5 5 rfl (by decide)⟩

theorem witness_DeviceBindCompletes :
    opened.busy = false ∧ opened.isOpen = true ∧ catalogLookup opened 0x1BA01477#32 = some (0, deviceA)
      ∧ catalogLookup opened 0x0BA01478#32 = none := by decide

theorem witness_BindingRefusals :
    idle.busy = false ∧ idle.isOpen = true ∧ idle.device = none ∧ needsDevice .coreHalt = true
      ∧ (needsDriver .flashStatus = true ∧ bound.device.isSome = true ∧ bound.tap = .rti ∧ bound.driver = none)
      ∧ (needsUnlock (.flashErase 0 0) = true ∧ driven.driver = some .ref ∧ driven.flashUnlocked = false) := by decide

/-- A misaligned address at the top, a misaligned length, and the program step. -/
theorem witness_MisalignedOperandsRejected :
    (alignedOperand (.apTransfer false 0xFFFFFFFF#32 0) = some (0xFFFFFFFF#32, 4, .none)
        ∧ rangeOf (.apTransfer false 0xFFFFFFFF#32 0) = none ∧ (0xFFFFFFFF#32).toNat % 4 ≠ 0)
      ∧ (alignedOperand (.readMemory 0x20000000#32 6#32) = some (0x20000000#32, 6, .none)
        ∧ (0x20000000#32).toNat + 6 ≤ 2 ^ 32 ∧ 6 % 4 ≠ 0)
      ∧ (alignedOperand (.flashProgram 0x08000002#32 [1, 2, 3, 4]) = some (0x08000002#32, 4, .program)
        ∧ (0x08000002#32).toNat + 4 ≤ 2 ^ 32 ∧ (0x08000002#32).toNat % 4 ≠ 0)
      ∧ unlocked.busy = false ∧ unlocked.isOpen = true ∧ unlocked.device.isSome = true ∧ unlocked.tap = .rti
      ∧ unlocked.driver = some .ref ∧ unlocked.flashUnlocked = true := by decide

/-- One byte past the top. -/
theorem witness_RangePastTopRefused :
    rangeOf (.readMemory 0xFFFFFFFF#32 2#32) = some (0xFFFFFFFF#32, 2) ∧ 2 ^ 32 < (0xFFFFFFFF#32).toNat + 2
      ∧ rangeOf (.flashErase 0xFFFFFFFF#32 2#32) = some (0xFFFFFFFF#32, 2)
      ∧ unlocked.busy = false ∧ unlocked.isOpen = true ∧ unlocked.device.isSome = true ∧ unlocked.tap = .rti
      ∧ unlocked.driver = some .ref ∧ unlocked.flashUnlocked = true := by decide

/-- The first frame of a selection, and the last of an access. -/
theorem witness_AccessErrorCarriesAddress :
    soleAccess params.toRawParams .coreHalt = some 0xE000EDF0#32
      ∧ (0 < bound.selectCount + 4 ∧ (answering bound [0b000#35]).acksOk 0 = true
        ∧ ackOf ((answering bound [0b000#35]).frameAt 0) ≠ 0b010#3 ∧ ackOf ((answering bound [0b000#35]).frameAt 0) ≠ 0b001#3)
      ∧ (4 < bound.selectCount + 4 ∧ (answering bound [ok 0, ok 0, ok 0, ok 0, 0b111#35]).acksOk 4 = true
        ∧ ackOf ((answering bound [ok 0, ok 0, ok 0, ok 0, 0b111#35]).frameAt 4) = 0b111#3)
      ∧ needsDriver .coreHalt = false := by decide +kernel

theorem witness_ScanExpansionIdentifies : closed.busy = false ∧ closed.isOpen = false ∧ closed.link = .working :=
  ⟨rfl, rfl, rfl⟩

theorem witness_FlashDetectCompletes :
    idle.device = none ∧ idle.busy = false ∧ idle.isOpen = true
      ∧ bound.busy = false ∧ bound.isOpen = true ∧ bound.device = some deviceA
      ∧ params.refNamePattern.map foldByte <+: deviceA.name.map foldByte
      ∧ ¬ params.refNamePattern.map foldByte <+: ({ deviceA with name := [] } : DeviceDescriptor).name.map foldByte := by
  decide +kernel

theorem driven_ready (n : Nat) : FlashReady (zeroFrames driven n) := ⟨⟨⟨⟨rfl, rfl, rfl⟩, rfl⟩, rfl⟩, rfl⟩
theorem unlocked_ready (n : Nat) : FlashReady (zeroFrames unlocked n) := ⟨⟨⟨⟨rfl, rfl, rfl⟩, rfl⟩, rfl⟩, rfl⟩

theorem witness_FlashInitCompletes :
    FlashReady (zeroFrames driven 8) ∧ (zeroFrames driven 8).acksOk ((zeroFrames driven 8).selectCount + 8) = true :=
  ⟨driven_ready 8, acksOk_zero 8 8 rfl (by decide)⟩

theorem witness_FlashStatusCompletes :
    FlashReady (zeroFrames driven 4) ∧ (zeroFrames driven 4).acksOk ((zeroFrames driven 4).selectCount + 4) = true :=
  ⟨driven_ready 4, acksOk_zero 4 4 rfl (by decide)⟩

/-- The last byte of the address space, two sectors, and an empty range. -/
theorem witness_FlashEraseCompletes :
    FlashReady (zeroFrames unlocked 48) ∧ (zeroFrames unlocked 48).flashUnlocked = true
      ∧ (0xFFFFFFFF#32).toNat + (1#32).toNat ≤ 2 ^ 32 ∧ sectorStarts params.toRawParams 0xFFFFFFFF 1 = [0xFFFFFC00]
      ∧ sectorStarts params.toRawParams 0x080003FF 2 = [0x08000000, 0x08000400]
      ∧ (zeroFrames unlocked 48).acksOk ((zeroFrames unlocked 48).selectCount + 24 * 2) = true
      ∧ (∀ j < 2, (zeroFrames unlocked 48).readyAt ((zeroFrames unlocked 48).selectCount + 24 * j + 3) = true
        ∧ (zeroFrames unlocked 48).readyAt ((zeroFrames unlocked 48).selectCount + 24 * j + 19) = true) := by
  have sel : (zeroFrames unlocked 48).selectCount = 0 := rfl
  refine ⟨unlocked_ready 48, rfl, by decide, by decide +kernel, by decide +kernel, acksOk_zero 48 _ rfl (by omega),
    fun j hj => ⟨readyAt_zero 48 rfl (by omega), readyAt_zero 48 rfl (by omega)⟩⟩

theorem witness_EraseSectorsCoverTheRange : 0 < 1 := by decide

/-- Two chunks, of which only the first reads back as `data` when `last` is not 0. -/
def twoChunks (last : Byte) : List Byte := List.replicate 1024 0 ++ [0, 0, 0, last]

theorem chunkOf_append {xs ys : List Byte} (hx : xs.length = 1024) (hy : ys.length ≤ 1024) :
    chunkOf (xs ++ ys) 0 = xs ∧ chunkOf (xs ++ ys) 1 = ys := by
  simp [chunkOf, refPageSize, ← hx, List.take_of_length_le (hx ▸ hy : ys.length ≤ xs.length)]

theorem twoChunks_first (last : Byte) : chunkOf (twoChunks last) 0 = List.replicate 1024 0 :=
  (chunkOf_append List.length_replicate (by show 4 ≤ 1024; decide)).1

theorem twoChunks_second (last : Byte) : chunkOf (twoChunks last) 1 = [0, 0, 0, last] :=
  (chunkOf_append List.length_replicate (by show 4 ≤ 1024; decide)).2

/-- The frames of both chunks, all ready and reading zeros. -/
def twoChunkFrames : State := zeroFrames unlocked (chunkFrames 1024 + chunkFrames 4)

theorem twoChunkFrames_answered (n k : Nat) (h : k + chunkFrames n ≤ chunkFrames 1024 + chunkFrames 4) :
    twoChunkFrames.pageAnswered k n := by
  have tdo : twoChunkFrames.tdo = _ := zeroFrames_tdo _ _
  have c : chunkFrames n = 12 + 5 * n := rfl
  refine ⟨fun j hj => ?_, readyAt_zero _ tdo (by omega), fun i hi => readyAt_zero _ tdo (by omega)⟩
  rw [frameAt_zero _ tdo (by omega)]; decide

theorem twoChunkFrames_readBack (n k : Nat) (hn : n % 4 = 0) (h : k + chunkFrames n ≤ chunkFrames 1024 + chunkFrames 4) :
    twoChunkFrames.chunkReadBack k n = List.replicate n 0 := by
  have c : chunkFrames n = 12 + 5 * n := rfl
  rw [State.chunkReadBack, twoChunkFrames, readBack_zero _ _ _ (zeroFrames_tdo unlocked _) (by omega)]
  congr 1; omega

theorem twoChunks_operands (last : Byte) :
    FlashReady twoChunkFrames ∧ twoChunkFrames.flashUnlocked = true
      ∧ (0x08000000#32).toNat + (twoChunks last).length ≤ 2 ^ 32 ∧ (0x08000000#32).toNat % 4 = 0
      ∧ (twoChunks last).length % 4 = 0 ∧ chunkCount (twoChunks last).length = 2
      ∧ twoChunkFrames.acksOk twoChunkFrames.selectCount = true := by
  have len : (twoChunks last).length = 1028 := by rw [twoChunks, List.length_append, List.length_replicate]; rfl
  refine ⟨unlocked_ready _, rfl, ?_, by decide, by rw [len], by rw [len]; decide, rfl⟩
  rw [len]; decide

theorem witness_FlashProgramCompletes : ∀ k < 2,
    twoChunkFrames.pageAnswered (twoChunkFrames.selectCount + chunkFrames 1024 * k) (chunkOf (twoChunks 0) k).length
      ∧ twoChunkFrames.chunkReadBack (twoChunkFrames.selectCount + chunkFrames 1024 * k) (chunkOf (twoChunks 0) k).length
        = chunkOf (twoChunks 0) k := by
  have sel : twoChunkFrames.selectCount = 0 := rfl
  have c0 := twoChunks_first 0
  have c1 := twoChunks_second 0
  intro k hk
  obtain rfl | rfl : k = 0 ∨ k = 1 := by omega
  · rw [c0, sel, List.length_replicate]
    exact ⟨twoChunkFrames_answered _ _ (by decide), twoChunkFrames_readBack _ _ (by decide) (by decide)⟩
  · rw [c1, sel]
    exact ⟨twoChunkFrames_answered _ _ (by decide), twoChunkFrames_readBack _ _ (by decide) (by decide)⟩

/-- The second chunk is the first that reads back wrong. -/
theorem witness_ProgramStopsAtFirstMismatch :
    (∀ j ≤ 1, twoChunkFrames.pageAnswered (twoChunkFrames.selectCount + chunkFrames 1024 * j) (chunkOf (twoChunks 1) j).length)
      ∧ (∀ j < 1, twoChunkFrames.chunkReadBack (twoChunkFrames.selectCount + chunkFrames 1024 * j)
          (chunkOf (twoChunks 1) j).length = chunkOf (twoChunks 1) j)
      ∧ twoChunkFrames.chunkReadBack (twoChunkFrames.selectCount + chunkFrames 1024 * 1) (chunkOf (twoChunks 1) 1).length
        ≠ chunkOf (twoChunks 1) 1 := by
  have sel : twoChunkFrames.selectCount = 0 := rfl
  have c0 := twoChunks_first 1
  have c1 := twoChunks_second 1
  refine ⟨fun j hj => ?_, fun j hj => ?_, ?_⟩
  · obtain rfl | rfl : j = 0 ∨ j = 1 := by omega
    · rw [c0, sel, List.length_replicate]; exact twoChunkFrames_answered _ _ (by decide)
    · rw [c1, sel]; exact twoChunkFrames_answered _ _ (by decide)
  · obtain rfl : j = 0 := by omega
    rw [c0, sel, List.length_replicate]; exact twoChunkFrames_readBack _ _ (by decide) (by decide)
  · rw [c1, sel]
    show twoChunkFrames.chunkReadBack (0 + chunkFrames 1024 * 1) 4 ≠ [0, 0, 0, 1]
    rw [twoChunkFrames_readBack _ _ (by decide) (by decide)]; decide

/-- No byte to program. -/
theorem witness_FlashProgramCompletes_empty :
    FlashReady unlocked ∧ unlocked.flashUnlocked = true ∧ (0x08000000#32).toNat + ([] : List Byte).length ≤ 2 ^ 32 :=
  ⟨unlocked_ready 0, rfl, by decide⟩

theorem witness_FlashVerifyCompletes :
    FlashReady (zeroFrames driven 4) ∧ (0xFFFFFFFC#32).toNat + ([0, 0, 0, 0] : List Byte).length ≤ 2 ^ 32
      ∧ (0xFFFFFFFC#32).toNat % 4 = 0 ∧ ([0, 0, 0, 0] : List Byte).length % 4 = 0
      ∧ (zeroFrames driven 4).acksOk ((zeroFrames driven 4).selectCount + ([0, 0, 0, 0] : List Byte).length) = true
      ∧ (zeroFrames driven 4).readBack (zeroFrames driven 4).selectCount (([0, 0, 0, 0] : List Byte).length / 4) = [0, 0, 0, 0]
      ∧ (zeroFrames driven 4).acksOk ((zeroFrames driven 4).selectCount + ([] : List Byte).length) = true :=
  ⟨driven_ready 4, by decide, by decide, by decide, acksOk_zero 4 4 rfl (by decide),
    readBack_zero 4 0 1 rfl (by decide), acksOk_zero 4 0 rfl (by decide)⟩

/-- Status reads of which `n` are busy and the next has an error bit. -/
def busyReads (n : Nat) : List (BitVec 35) :=
  (List.replicate n [ok 0, ok 0, ok 0, ok 0x05#32]).flatten ++ [ok 0, ok 0, ok 0, ok 0x14#32]

theorem unlocked_answering (fs : List (BitVec 35)) : FlashReady (answering unlocked fs) := ⟨⟨⟨⟨rfl, rfl, rfl⟩, rfl⟩, rfl⟩, rfl⟩

theorem busyReads_length : ∀ n ∈ [0, 2, 3], (busyReads n).length = 4 * (n + 1) := by decide

theorem busyReads_ok : ∀ n ∈ [0, 2, 3], (busyReads n).all (fun f => ackOf f == 0b010#3) = true := by decide +kernel

theorem busyReads_acked (n : Nat) (hn : n ∈ [0, 2, 3]) (m : Nat) (hm : m ≤ 4 * (n + 1)) :
    (answering unlocked (busyReads n)).acksOk ((answering unlocked (busyReads n)).selectCount + m) = true := by
  have sel : (answering unlocked (busyReads n)).selectCount = 0 := rfl
  rw [sel, Nat.zero_add]
  exact acksOk_listed (busyReads n) m rfl (busyReads_length n hn ▸ hm) fun f hf => by
    simpa using List.all_eq_true.1 (busyReads_ok n hn) f hf

/-- Both commands, every poll busy. -/
theorem witness_BusyPollsTimeOut :
    FlashReady (answering unlocked (busyReads 3)) ∧ (answering unlocked (busyReads 3)).flashUnlocked = true
      ∧ pollsFirst (answering unlocked (busyReads 3)) (.flashErase 0x080003FF#32 1#32) = some (.erase, 0x08000000#32)
      ∧ pollsFirst (answering unlocked (busyReads 3)) (.flashProgram 0x08000004#32 [1, 2, 3, 4]) = some (.program, 0x08000004#32)
      ∧ (answering unlocked (busyReads 3)).acksOk
          ((answering unlocked (busyReads 3)).selectCount + 4 * params.waitReadyMax) = true
      ∧ (∀ j < params.waitReadyMax, srBusy (rdataOf ((answering unlocked (busyReads 3)).frameAt
          ((answering unlocked (busyReads 3)).selectCount + 4 * j + 3))) = true) :=
  ⟨unlocked_answering _, rfl, by decide, by decide, busyReads_acked 3 (by decide) 12 (by decide), by decide +kernel⟩

/-- The first poll, and the last one allowed. -/
theorem witness_LatchedErrorFails : ∀ n ∈ [0, 2],
    FlashReady (answering unlocked (busyReads n)) ∧ n < params.waitReadyMax
      ∧ pollsFirst (answering unlocked (busyReads n)) (.flashErase 0x080003FF#32 1#32) = some (.erase, 0x08000000#32)
      ∧ (answering unlocked (busyReads n)).acksOk ((answering unlocked (busyReads n)).selectCount + 4 * (n + 1)) = true
      ∧ (∀ j < n, srBusy (rdataOf ((answering unlocked (busyReads n)).frameAt
          ((answering unlocked (busyReads n)).selectCount + 4 * j + 3))) = true)
      ∧ srBusy (rdataOf ((answering unlocked (busyReads n)).frameAt
          ((answering unlocked (busyReads n)).selectCount + 4 * n + 3))) = false
      ∧ srError (rdataOf ((answering unlocked (busyReads n)).frameAt
          ((answering unlocked (busyReads n)).selectCount + 4 * n + 3))) = true := by
  have polls : ∀ n ∈ [0, 2], n < params.waitReadyMax
      ∧ pollsFirst (answering unlocked (busyReads n)) (.flashErase 0x080003FF#32 1#32) = some (.erase, 0x08000000#32)
      ∧ (∀ j < n, srBusy (rdataOf ((answering unlocked (busyReads n)).frameAt
          ((answering unlocked (busyReads n)).selectCount + 4 * j + 3))) = true)
      ∧ srBusy (rdataOf ((answering unlocked (busyReads n)).frameAt
          ((answering unlocked (busyReads n)).selectCount + 4 * n + 3))) = false
      ∧ srError (rdataOf ((answering unlocked (busyReads n)).frameAt
          ((answering unlocked (busyReads n)).selectCount + 4 * n + 3))) = true := by decide +kernel
  intro n hn
  have p := polls n hn
  have hn' : n ∈ [0, 2, 3] := by simp at hn ⊢; omega
  exact ⟨unlocked_answering _, p.1, p.2.1, busyReads_acked n hn' _ (le_refl _), p.2.2.1, p.2.2.2.1, p.2.2.2.2⟩

/-- A match behind an entry that does not match, and no match. -/
theorem witness_CatalogFindsFirstMatch :
    closed.busy = false
      ∧ catalogLookup { closed with catalog := [{ deviceA with partId := 1#28 }, deviceA] } 0xFBA01477#32 = some (1, deviceA)
      ∧ catalogLookup { closed with catalog := [] } 0xFBA01477#32 = none := by decide

theorem witness_CatalogAddAppends : closed.busy = false := rfl

theorem witness_IrRowsComplete :
    irCode params.toRawParams .irBypass = some 0xFF#8 ∧ irCode params.toRawParams .irDpacc = some 0x0A#8
      ∧ irCode params.toRawParams .irApacc = some 0x0B#8 ∧ idle.isOpen = true ∧ idle.link = .working ∧ idle.tap = .rti := by
  decide

theorem witness_TmsRowsComplete :
    opened.isOpen = true ∧ opened.link = .working ∧ tmsRow .tmsIrEntry = some [sy 1 0, sy 1 0, sy 0 0, sy 0 0]
      ∧ tmsRow (.tmsShiftBody [true]) = some [sy 1 1] ∧ Instr.tmsIrEntry ≠ .tmsShiftBody [] := by decide

theorem witness_ConfigurationChecked :
    params.toRawParams.valid = true ∧ ({ params.toRawParams with waitRetryMax := 0 } : RawParams).valid = false
      ∧ ({ params.toRawParams with refSectorSize := 3072 } : RawParams).valid = false
      ∧ ({ params.toRawParams with irApacc := 0x0A#8 } : RawParams).valid = false := by decide +kernel

end Sys2Proof.Tests
end

/-! The check of a configuration (00_scope.md R8): each test of `RawParams.valid` as the constraint it stands for, and what `configure` answers. -/

namespace Sys2Proof

theorem oneHot_iff {w : Word} : oneHot w = true ↔ ∃ k < 32, w = BitVec.twoPow 32 k := by
  simp [oneHot]

/-- The test for a power of two compares with the only candidate, the largest power not above the number. -/
theorem eq_two_pow_log2_iff {n : Nat} : n = 2 ^ Nat.log2 n ↔ ∃ k, n = 2 ^ k := by
  constructor
  · exact fun h => ⟨_, h⟩
  · rintro ⟨k, rfl⟩
    rw [Nat.log2_two_pow]

theorem and_low_six_eq_zero_iff {w : Word} : w &&& 0x3F#32 = 0 ↔ ∀ k < 6, w.getLsbD k = false := by
  have mask (k : Nat) : (0x3F#32).getLsbD k = decide (k < 6) := by
    by_cases hk : k < 32
    · revert k; decide
    · rw [BitVec.getLsbD_of_ge _ _ (by omega), decide_eq_false (by omega)]
  constructor
  · intro h k hk
    simpa [mask, hk] using congrArg (BitVec.getLsbD · k) h
  · intro h
    refine BitVec.eq_of_getLsbD_eq fun k _ => ?_
    by_cases hk : k < 6 <;> simp [mask, hk, h]

/-- The constraints of R8 as propositions, in the words of the rule. -/
def RawParams.MeetsConstraints (p : RawParams) : Prop :=
  1 ≤ p.waitRetryMax ∧ 1 ≤ p.waitReadyMax ∧ p.irDpacc ≠ p.irApacc
    ∧ (∀ m ∈ [p.crPg, p.crPer, p.crStrt], ∃ k < 32, m = BitVec.twoPow 32 k) ∧ [p.crPg, p.crPer, p.crStrt].Nodup
    ∧ (∃ k, p.refSectorSize = 2 ^ k) ∧ p.refSectorSize % 4 = 0 ∧ (∀ k < 6, p.cswBase.getLsbD k = false)
    ∧ (∀ a ∈ [p.flashKeyr, p.flashSr, p.flashCr, p.flashAr], a.toNat % 4 = 0)
    ∧ [p.flashKeyr, p.flashSr, p.flashCr, p.flashAr].Nodup

/-- The executable check decides exactly the constraints of R8. -/
theorem RawParams.valid_iff {p : RawParams} : p.valid = true ↔ p.MeetsConstraints := by
  have masks : (∀ m ∈ [p.crPg, p.crPer, p.crStrt], ∃ k < 32, m = BitVec.twoPow 32 k)
      ↔ oneHot p.crPg = true ∧ oneHot p.crPer = true ∧ oneHot p.crStrt = true := by
    simp [oneHot_iff]
  have distinct : [p.crPg, p.crPer, p.crStrt].Nodup
      ↔ p.crPg ≠ p.crPer ∧ p.crPg ≠ p.crStrt ∧ p.crPer ≠ p.crStrt := by
    simp [and_assoc]
  rw [MeetsConstraints, masks, distinct, ← eq_two_pow_log2_iff, ← and_low_six_eq_zero_iff]
  simp only [valid, Bool.and_eq_true, decide_eq_true_eq, bne_iff_ne, beq_iff_eq, List.all_eq_true, and_assoc]

end Sys2Proof

namespace Sys2Proof.Machine

theorem configure_of_valid {p : RawParams} (h : p.valid = true) :
    configure p = .next (State.powerOn { p with ok := h }) :=
  dif_pos h

theorem configure_of_not_valid {p : RawParams} (h : ¬ p.valid = true) : configure p = .refused .config :=
  dif_neg h

/-- Settles O60: the check is equivalent to the constraints, and `configure` branches on the check. -/
theorem configurationChecked : Obligations.ConfigurationChecked := by
  unfold Obligations.ConfigurationChecked
  intro p
  constructor
  · intro (meets : p.MeetsConstraints)
    have valid := RawParams.valid_iff.mpr meets
    exact ⟨{ p with ok := valid }, rfl, configure_of_valid valid⟩
  · intro (violates : ¬ p.MeetsConstraints)
    exact configure_of_not_valid (mt RawParams.valid_iff.mp violates)

end Sys2Proof.Machine

/-! The command gate as a refusal (40_tap.md R141; 10_state.md R33): what it refuses, and that every command asks it first. -/

namespace Sys2Proof.Machine

theorem gateRefusal_of_busy {needsOpen : Bool} {s : State} (busy : s.busy = true) :
    gateRefusal needsOpen s = some .busy :=
  if_pos busy

theorem gateRefusal_of_closed {s : State} (idle : s.busy = false) (closed : s.isOpen = false) :
    gateRefusal true s = some .closed := by
  simp [gateRefusal, idle, closed]

theorem command_of_gateRefusal {needsOpen : Bool} {check : State → Option Refusal} {body : State → Res Payload}
    {s : State} {r : Refusal} (gate : gateRefusal needsOpen s = some r) :
    command needsOpen check body s = .refused r := by
  simp [command, gate, orElse]

/-- SESSION_OPEN ends in its own way (R142), so it is no `command`, but it asks the same gate. -/
theorem execSessionOpen_of_gateRefusal {s : State} {r : Refusal} (gate : gateRefusal false s = some r) :
    execSessionOpen s = .refused r := by
  simp [execSessionOpen, gate, orElse]

/-- Every command asks the gate first, and asks it for an open session exactly when R33 says so. -/
theorem exec_of_gateRefusal {i : Instr} {s : State} {r : Refusal} (isCommand : i.isCommand = true)
    (gate : gateRefusal (needsSession i) s = some r) : exec i s = .refused r := by
  cases i with
  | sessionOpen => exact execSessionOpen_of_gateRefusal gate
  | irBypass | irDpacc | irApacc | dpSelectWrite | dpRdbuffRead | apCswWrite | apTarWrite | apDrwWrite | apDrwRead
  | tmsTapReset | tmsIrEntry | tmsDrEntry | tmsShiftBody | tmsScanExit => cases isCommand
  | _ =>
    simp only [exec]
    exact command_of_gateRefusal gate

/-- Settles O19: both clauses are answers of the gate, which every command asks first. -/
theorem gateRefusals : Obligations.GateRefusals := by
  unfold Obligations.GateRefusals
  intro i s isCommand
  constructor
  · intro busy
    exact exec_of_gateRefusal isCommand (gateRefusal_of_busy busy)
  · intro idle needs closed
    have gate : gateRefusal (needsSession i) s = some .closed := needs ▸ gateRefusal_of_closed idle closed
    exact exec_of_gateRefusal isCommand gate

end Sys2Proof.Machine

/-! Refusals and alignment errors of a command that passes the gate (40_tap.md R141; 60_exceptions.md R309), and the operand checks that cause them (20_memory.md R76 to R78). -/

namespace Sys2Proof.Machine

section CommandEnds

variable {s : State} {r : Refusal} {needsOpen : Bool} {check : State → Option Refusal} {body : State → Res Payload}

theorem orElse_of_none {a b : Option Refusal} (pass : a = none) : orElse a b = b := by
  rw [pass]; rfl

theorem eq_some_or_of_orElse {a b : Option Refusal} (h : orElse a b = some r) : a = some r ∨ b = some r := by
  cases a with
  | none => exact .inr h
  | some _ => exact .inl h

theorem gateRefusal_of_idle (idle : s.busy = false) (opened : s.isOpen = true) : gateRefusal needsOpen s = none := by
  simp [gateRefusal, idle, opened]

theorem command_of_check (idle : s.busy = false) (opened : s.isOpen = true) (refuses : check s = some r) :
    command needsOpen check body s = .refused r := by
  simp [command, orElse_of_none (gateRefusal_of_idle idle opened), refuses]

/-- A refusal comes from the gate or from the command's own check. -/
theorem gate_or_check_of_command_refused (h : command needsOpen check body s = .refused r) :
    gateRefusal needsOpen s = some r ∨ check s = some r := by
  rcases command_cases needsOpen check body s with ⟨r', checks, answer⟩ | ⟨-, -, answer⟩
  · obtain rfl : r' = r := by simpa [answer] using h
    exact eq_some_or_of_orElse checks
  · simp [answer] at h

theorem gateRefusal_eq_some (h : gateRefusal needsOpen s = some r) : r = .busy ∨ r = .closed := by
  unfold gateRefusal at h
  split at h
  · exact .inl (Option.some.inj h).symm
  · split at h
    · exact .inr (Option.some.inj h).symm
    · cases h

theorem dapCheck_eq_some (h : dapCheck s = some r) : r = .notBound ∨ r = .tapUnknown := by
  rcases eq_some_or_of_orElse h with unbound | unknown
  · exact .inl (Option.some.inj (Option.ite_none_right_eq_some.1 unbound).2).symm
  · exact .inr (Option.some.inj (Option.ite_none_left_eq_some.1 unknown).2).symm

/-- An AlignmentError updates nothing but the result (60_exceptions.md R308), so a body that begins with a failing alignment test leaves the state the command found. -/
theorem command_of_misaligned {misfit : Bool} {k : StepKind} {addr : Word} {work : State → Res Payload}
    (idle : s.busy = false) (opened : s.isOpen = true) (pass : check s = none) (bad : misfit = true) :
    command needsOpen check (fun t => if misfit then .raise (alignmentError k addr) t else work t) s
      = .next { s with result := some (.error (alignmentError k addr)) } := by
  rw [command_run idle (fun _ => opened) pass, if_pos bad]
  simp [complete, State.enterError, State.afterError, alignmentError, idle]

end CommandEnds

/-! ### The operand checks -/

section OperandChecks

variable {s : State} {addr : Word} {len : Nat}

theorem misaligned_true : misaligned addr = true ↔ addr.toNat % 4 ≠ 0 := by
  simp [misaligned]

theorem misalignedRange_true : misalignedRange addr len = true ↔ addr.toNat % 4 ≠ 0 ∨ len % 4 ≠ 0 := by
  simp [misalignedRange, misaligned, or_comm]

theorem rangeCheck_past_top (past : 2 ^ 32 < addr.toNat + len) : rangeCheck addr len = some .range :=
  if_pos past

theorem dapRangeCheck_past_top (device : s.device.isSome = true) (tap : s.tap = .rti)
    (past : 2 ^ 32 < addr.toNat + len) : dapRangeCheck addr len s = some .range := by
  rw [dapRangeCheck, orElse_of_none (dapCheck_none.2 ⟨device, tap⟩), rangeCheck_past_top past]

theorem flashRangeCheck_past_top {unlock : Bool} (device : s.device.isSome = true) (tap : s.tap = .rti)
    (driver : s.driver = some .ref) (unlocked : unlock = true → s.flashUnlocked = true)
    (past : 2 ^ 32 < addr.toNat + len) : flashRangeCheck unlock addr len s = some .range := by
  rw [flashRangeCheck, orElse_of_none (flashCheck_none.2 ⟨⟨device, tap⟩, driver, unlocked⟩), rangeCheck_past_top past]

end OperandChecks

/-- AP_TRANSFER checks the DAP precondition alone, so no state refuses its one address as a range. -/
theorem execApTransfer_ne_range (write : Bool) (addr data : Word) (s : State) :
    execApTransfer write addr data s ≠ .refused .range := by
  intro refused
  rcases gate_or_check_of_command_refused refused with gate | dap
  · rcases gateRefusal_eq_some gate with h | h <;> cases h
  · rcases dapCheck_eq_some dap with h | h <;> cases h

/-- Settles O42: each of the five commands passes its checks and then begins with the alignment test that fails. -/
theorem misalignedOperandsRejected : Obligations.MisalignedOperandsRejected := by
  unfold Obligations.MisalignedOperandsRejected
  intro s i addr len k operand idle opened device tap driver unlocked range bad
  cases i with
  | apTransfer write a data =>
    cases operand
    have badAddress : addr.toNat % 4 ≠ 0 := bad.resolve_right (by decide)
    simp only [exec]
    exact command_of_misaligned idle opened (dapCheck_none.2 ⟨device, tap⟩) (misaligned_true.2 badAddress)
  | readMemory a n =>
    cases operand
    simp only [exec]
    exact command_of_misaligned idle opened (dapRangeCheck_none.2 ⟨⟨device, tap⟩, range (Option.some_ne_none _)⟩)
      (misalignedRange_true.2 bad)
  | writeMemory a data =>
    cases operand
    simp only [exec]
    exact command_of_misaligned idle opened (dapRangeCheck_none.2 ⟨⟨device, tap⟩, range (Option.some_ne_none _)⟩)
      (misalignedRange_true.2 bad)
  | flashProgram a data =>
    cases operand
    have pass : flashRangeCheck true addr data.length s = none := flashRangeCheck_none.2
      ⟨⟨⟨device, tap⟩, driver rfl, fun _ => unlocked rfl⟩, range (Option.some_ne_none _)⟩
    simp only [exec]
    exact command_of_misaligned idle opened pass (misalignedRange_true.2 bad)
  | flashVerify a data =>
    cases operand
    have pass : flashRangeCheck false addr data.length s = none := flashRangeCheck_none.2
      ⟨⟨⟨device, tap⟩, driver rfl, nofun⟩, range (Option.some_ne_none _)⟩
    simp only [exec]
    exact command_of_misaligned idle opened pass (misalignedRange_true.2 bad)
  | _ => cases operand

/-- Settles O43: the range test is the last check of each of the five range commands, and AP_TRANSFER has none. -/
theorem rangePastTopRefused : Obligations.RangePastTopRefused := by
  unfold Obligations.RangePastTopRefused
  constructor
  · intro s i addr len operand idle opened device tap driver unlocked past
    cases i with
    | readMemory a n =>
      cases operand
      simp only [exec]
      exact command_of_check idle opened (dapRangeCheck_past_top device tap past)
    | writeMemory a data =>
      cases operand
      simp only [exec]
      exact command_of_check idle opened (dapRangeCheck_past_top device tap past)
    | flashErase a n =>
      cases operand
      simp only [exec]
      exact command_of_check idle opened
        (flashRangeCheck_past_top device tap (driver rfl) (fun _ => unlocked rfl) past)
    | flashProgram a data =>
      cases operand
      simp only [exec]
      exact command_of_check idle opened
        (flashRangeCheck_past_top device tap (driver rfl) (fun _ => unlocked rfl) past)
    | flashVerify a data =>
      cases operand
      simp only [exec]
      exact command_of_check idle opened (flashRangeCheck_past_top device tap (driver rfl) nofun past)
    | _ => cases operand
  · intro s write addr data
    exact execApTransfer_ne_range write addr data s

end Sys2Proof.Machine

/-! The words of 30_encoding.md as numbers: the command words R125 refuses, the frames of R112 and R113, and the data words of R116 to R118. -/

namespace Sys2Proof

/-- The opcodes of R102, in the order of its rows. -/
def commandOpcodes : List Nat :=
  [0x01, 0x02, 0x10, 0x11, 0x12, 0x13, 0x20, 0x21, 0x22, 0x23, 0x24, 0x25, 0x26, 0x27, 0x30, 0x31, 0x32, 0x33, 0x34, 0x35,
    0x40, 0x41]

theorem decodeCommand_of_not_mem_commandOpcodes {op : Byte} (outside : op.toNat ∉ commandOpcodes) (rest : List Byte) :
    decodeCommand (op :: rest) = .error .illegalOpcode := by
  simp only [commandOpcodes, List.mem_cons, List.not_mem_nil, or_false, not_or] at outside
  simp only [decodeCommand]
  split
  case h_23 => rfl
  all_goals omega

/-- The bits of a concatenation do not overlap, so its number is a sum. -/
theorem toNat_append_eq_add {m n : Nat} (x : BitVec m) (y : BitVec n) :
    (x ++ y).toNat = x.toNat * 2 ^ n + y.toNat := by
  rw [BitVec.toNat_append, ← Nat.shiftLeft_add_eq_or_of_lt y.isLt, Nat.shiftLeft_eq]

/-- `frame_out` as a number (R112). -/
theorem frameOut_toNat (a : BitVec 2) (rnw : Bool) (w : Word) :
    (frameOut a rnw w).toNat = w.toNat * 8 + a.toNat * 2 + rnw.toNat := by
  simp only [frameOut, toNat_append_eq_add, BitVec.toNat_ofBool]
  omega

end Sys2Proof

namespace Sys2Proof.Machine

theorem step_of_decodeCommand_error {s : State} {w : List Byte} {later : List (List Byte)} {why : DecodeReject}
    (next : s.cmds = w :: later) (rejects : decodeCommand w = .error why) : step s = .refused (.decode why) := by
  simp [step, State.fetch, next, rejects]

/-- Settles O5: the gaps of R125 hold no opcode of R102, and a step refuses what the decoder rejects. -/
theorem illegalOpcodesRefused : Obligations.IllegalOpcodesRefused := by
  unfold Obligations.IllegalOpcodesRefused
  intro s op rest later gap next
  have outside : op.toNat ∉ commandOpcodes := by
    simp only [commandOpcodes, List.mem_cons, List.not_mem_nil, or_false]
    omega
  exact step_of_decodeCommand_error next (decodeCommand_of_not_mem_commandOpcodes outside rest)

/-! ### Frames -/

theorem value_frameBits (a : BitVec 2) (rnw : Bool) (w : Word) :
    value (frameBits a rnw w) = w.toNat * 8 + a.toNat * 2 + rnw.toNat := by
  rw [frameBits, value_bitsOf accLen _ (frameOut a rnw w).isLt, frameOut_toNat]

/-- A captured frame loses no level, since 35 bits hold every number of 35 levels. -/
theorem captured_toNat {out : Bits} (length : out.length = 35) : (captured out).toNat = value out := by
  have bound : value out < 2 ^ 35 := length ▸ value_lt out
  rw [captured, BitVec.toNat_ofNat, Nat.mod_eq_of_lt bound]

theorem ackOf_toNat (f : BitVec 35) : (ackOf f).toNat = f.toNat % 8 := by
  simp [ackOf]

theorem rdataOf_toNat (f : BitVec 35) : (rdataOf f).toNat = f.toNat / 8 := by
  simp only [rdataOf, BitVec.extractLsb'_toNat, Nat.shiftRight_eq_div_pow]
  omega

/-- Settles O8: `frame_out` is a concatenation, and `ack` and `rdata` cut the captured number at 8. -/
theorem frameLayout : Obligations.FrameLayout := by
  unfold Obligations.FrameLayout
  intro a rnw w out
  refine ⟨frameBits_length a rnw w, value_frameBits a rnw w, fun length => ?_⟩
  rw [ackOf_toNat, rdataOf_toNat, captured_toNat length]
  exact ⟨rfl, rfl⟩

/-! ### Data words -/

/-- The fields of the select word (R116): the AP index, a zero field, the bank, a zero field. -/
theorem selWord_eq_append (ap : Byte) (reg : Word) :
    selWord ap reg = ap ++ 0#16 ++ reg.extractLsb' 4 4 ++ 0#4 := by
  apply BitVec.eq_of_getLsbD_eq
  intro i hi
  simp only [selWord, BitVec.getLsbD_append, BitVec.getLsbD_extractLsb']
  interval_cases i <;> simp

theorem selWord_toNat (ap : Byte) (reg : Word) :
    (selWord ap reg).toNat = ap.toNat * 2 ^ 24 + reg.toNat / 16 % 16 * 16 := by
  have bank : (reg.extractLsb' 4 4).toNat = reg.toNat / 16 % 16 := by
    rw [BitVec.extractLsb'_toNat, Nat.shiftRight_eq_div_pow]
  rw [selWord_eq_append]
  simp only [toNat_append_eq_add, bank, BitVec.toNat_ofNat]
  omega

/-- A word whose low six bits are zero takes a smaller number in them without a carry. -/
theorem or_toNat_of_low_six_zero {base w : Word} (low : base.toNat % 64 = 0) (small : w.toNat < 2 ^ 6) :
    (base ||| w).toNat = base.toNat + w.toNat := by
  obtain ⟨q, hq⟩ : ∃ q, base.toNat = 2 ^ 6 * q := Nat.dvd_of_mod_eq_zero low
  rw [BitVec.toNat_or, hq, Nat.two_pow_add_eq_or_of_lt small]

theorem cswWord_word_toNat {base : Word} (low : base.toNat % 64 = 0) :
    (cswWord base .word).toNat = base.toNat + 2 :=
  or_toNat_of_low_six_zero low (by decide)

theorem cswWord_half_toNat {base : Word} (low : base.toNat % 64 = 0) :
    (cswWord base .half).toNat = base.toNat + 1 :=
  or_toNat_of_low_six_zero low (by decide)

/-- Bit 1 of the address chooses the lane (R118). -/
theorem lane16_toNat (addr : Word) (h : BitVec 16) :
    (lane16 addr h).toNat = h.toNat * 2 ^ (16 * (addr.toNat / 2 % 2)) := by
  have lane : addr.getLsbD 1 = decide (addr.toNat / 2 % 2 = 1) := Nat.testBit_eq_decide_div_mod_eq
  have widened : (h.zeroExtend 32).toNat = h.toNat := BitVec.toNat_setWidth_of_le (by decide)
  rw [lane16, lane]
  rcases Nat.mod_two_eq_zero_or_one (addr.toNat / 2) with low | high
  · simp [low, widened]
  · have fits : h.toNat * 2 ^ 16 < 2 ^ 32 := by omega
    simpa [high, widened, Nat.shiftLeft_eq] using fits

/-- Settles O9: each word is put together from fields that do not overlap. -/
theorem dataWordsAssemble : Obligations.DataWordsAssemble := by
  unfold Obligations.DataWordsAssemble
  intro ap reg base addr h
  exact ⟨selWord_toNat ap reg, fun low => ⟨cswWord_word_toNat low, cswWord_half_toNat low⟩, lane16_toNat addr h⟩

end Sys2Proof.Machine

/-! The session commands (40_tap.md R142, R143): the gate of SESSION_OPEN, the two answers of the transport to it, and the state SESSION_CLOSE leaves. -/

namespace Sys2Proof.Machine

section SessionCommands

variable {s : State}

theorem pinOp_performed (op : PinOp) (answer : (s.link.next s.ops).1 = true) :
    pinOp op s = .ok () (s.advance.record op .done) :=
  if_pos answer

theorem pinOp_failing (op : PinOp) (answer : (s.link.next s.ops).1 = false) :
    pinOp op s = .raise transportError (s.advance.record op .failed) :=
  if_neg (Bool.eq_false_iff.1 answer)

theorem execSessionOpen_of_open (idle : s.busy = false) (opened : s.isOpen = true) :
    execSessionOpen s = .refused .alreadyOpen := by
  simp [execSessionOpen, orElse_of_none (gateRefusal_of_idle idle opened), opened]

/-- SESSION_OPEN asks the gate for no open session, so a closed and idle one passes it. -/
theorem execSessionOpen_of_closed (idle : s.busy = false) (closed : s.isOpen = false) :
    execSessionOpen s = .next (completeOpen (openLink { s with busy := true })) := by
  simp [execSessionOpen, gateRefusal, orElse, idle, closed]

theorem execSessionOpen_performed (idle : s.busy = false) (closed : s.isOpen = false)
    (answer : (s.link.next s.ops).1 = true) :
    execSessionOpen s = .next
      { (s.advance.record .openLink .done).openSession with result := some (.ok .empty), busy := false } := by
  rw [execSessionOpen_of_closed idle closed, openLink, pinOp_performed (s := { s with busy := true }) .openLink answer]
  rfl

theorem execSessionOpen_failing (idle : s.busy = false) (closed : s.isOpen = false)
    (answer : (s.link.next s.ops).1 = false) :
    execSessionOpen s = .next
      { s.advance.record .openLink .failed with result := some (.error transportError), busy := false } := by
  rw [execSessionOpen_of_closed idle closed, openLink, pinOp_failing (s := { s with busy := true }) .openLink answer]
  rfl

theorem execSessionClose_of_open (idle : s.busy = false) (opened : s.isOpen = true) :
    execSessionClose s
      = .next { s with isOpen := false, result := some (.ok .empty), trace := ⟨.closeLink, .done⟩ :: s.trace } := by
  rw [execSessionClose, command_run idle (fun _ => opened) rfl]
  simp [complete, closeLink, State.record, idle]

theorem isCommand_of_needsSession {i : Instr} (needs : needsSession i = true) : i.isCommand = true := by
  unfold needsSession at needs
  split at needs
  case h_4 => exact needs
  all_goals cases needs

end SessionCommands

/-- Settles O20: the gate decides the refusal, and the transport's one answer chooses between the two next states. -/
theorem sessionOpenCompletes : Obligations.SessionOpenCompletes := by
  unfold Obligations.SessionOpenCompletes
  intro s idle
  refine ⟨execSessionOpen_of_open idle, fun closed => ?_⟩
  cases answer : (s.link.next s.ops).1 with
  | true =>
    exact ⟨_, execSessionOpen_performed idle closed answer, rfl, rfl, rfl, rfl, rfl, rfl,
      fun _ => ⟨rfl, rfl, rfl, rfl, rfl, rfl, rfl, rfl, rfl, rfl, rfl, rfl, rfl, rfl⟩, nofun⟩
  | false =>
    exact ⟨_, execSessionOpen_failing idle closed answer, rfl, rfl, rfl, rfl, rfl, rfl, nofun,
      fun _ => ⟨rfl, closed, rfl, rfl, ⟨rfl, rfl, rfl⟩, rfl, rfl, rfl, rfl, rfl, rfl, rfl⟩⟩

/-- Settles O21: the state SESSION_CLOSE leaves is idle and closed, and the gate refuses there every command that needs a session. -/
theorem sessionCloseCompletes : Obligations.SessionCloseCompletes := by
  unfold Obligations.SessionCloseCompletes
  intro s idle opened t
  refine ⟨execSessionClose_of_open idle opened, fun i needs => ?_⟩
  have gate : gateRefusal (needsSession i) t = some .closed := needs ▸ gateRefusal_of_closed idle rfl
  exact exec_of_gateRefusal (isCommand_of_needsSession needs) gate

end Sys2Proof.Machine

/-! The pin operations of one TCK cycle (40_tap.md R146), as the trace keeps them. -/

namespace Sys2Proof.Machine

section ClockTrace

variable {s t : State} {b : Bool}

/-- A sample is the one GetPin of its cycle, answered with the level it returns; a cycle without one asks nothing. -/
theorem sampleTdo_ok_trace {sample : Bool} (h : sampleTdo sample s = .ok b t) :
    t.trace = (if sample then [⟨.getPin .tdo, .level b⟩] else []) ++ s.trace := by
  cases sample with
  | false =>
    obtain ⟨-, rfl⟩ : false = b ∧ s = t := by simpa [sampleTdo] using h
    rfl
  | true =>
    rcases getTdo_cases s with read | failed
    · obtain ⟨rfl, rfl⟩ : s.tdoBit 0 = b ∧ _ = t := by simpa [sampleTdo, read] using h
      rfl
    · simp [sampleTdo, failed] at h

/-- A cycle that is performed has issued the operations of R146, newest first. -/
theorem clock_ok_trace {c : Cycle} (h : clock c s = .ok b t) :
    t.trace =
      [⟨.delay s.cfg.tckHalfPeriodUs, .done⟩, ⟨.setPin .tck true, .done⟩]
        ++ (if c.sample then [⟨.getPin .tdo, .level b⟩] else [])
        ++ [⟨.delay s.cfg.tckHalfPeriodUs, .done⟩, ⟨.setPin .tdi c.tdi, .done⟩, ⟨.setPin .tms c.tms, .done⟩,
          ⟨.setPin .tck false, .done⟩] ++ s.trace := by
  simp only [clock, delay, Res.bind_eq_ok] at h
  obtain ⟨_, s1, tckLow, _, s2, tms, _, s3, tdi, _, s4, setup, b', s5, sampled, _, s6, tckHigh, _, s7, hold, ends⟩ := h
  obtain ⟨rfl, rfl⟩ : b' = b ∧ s7 = t := by simpa using ends
  obtain ⟨cfg4, trace4⟩ : s4.cfg = s.cfg ∧ s4.trace =
      [⟨.delay s.cfg.tckHalfPeriodUs, .done⟩, ⟨.setPin .tdi c.tdi, .done⟩, ⟨.setPin .tms c.tms, .done⟩,
        ⟨.setPin .tck false, .done⟩] ++ s.trace := by
    simp [pinOp_ok setup, setPin_ok tdi, setPin_ok tms, setPin_ok tckLow]
  have trace7 : s7.trace = [⟨.delay s5.cfg.tckHalfPeriodUs, .done⟩, ⟨.setPin .tck true, .done⟩] ++ s5.trace := by
    simp [pinOp_ok hold, setPin_ok tckHigh]
  have cfg5 : s5.cfg = s4.cfg := (sampleTdo_ok sampled).1.same.cfg
  rw [trace7, sampleTdo_ok_trace sampled, trace4, cfg5, cfg4]
  simp only [List.append_assoc]

end ClockTrace

/-- Settles O23: a working transport performs the cycle, whose operations, mirrors and sample are those of R146. -/
theorem clockPinOrder : Obligations.ClockPinOrder := by
  unfold Obligations.ClockPinOrder
  intro s c working
  obtain ⟨t, run, -, -⟩ := clock_working c working
  obtain ⟨-, tap, -, tck, tms, tdi, -⟩ := clock_ok run
  refine ⟨t, run, tap, ?_, tck, tms, tdi⟩
  rw [clock_ok_trace run]
  cases c.sample <;> rfl

end Sys2Proof.Machine

/-! DEVICE_BIND (41_dap.md R201): the two answers of the catalog search choose between its two next states. -/

namespace Sys2Proof.Machine

section DeviceBind

variable {s : State} {idcode : Word}

/-- An UnsupportedDeviceError updates nothing but the result (60_exceptions.md R308). -/
theorem complete_unsupportedDeviceError (addr : Word) (t : State) :
    complete (.raise (unsupportedDeviceError addr) t)
      = { t with result := some (.error (unsupportedDeviceError addr)), busy := false } := rfl

/-- DEVICE_BIND has no check of its own, so the TAP position and the old binding do not matter. -/
theorem execDeviceBind_of_found {k : Nat} {d : DeviceDescriptor} (idle : s.busy = false) (opened : s.isOpen = true)
    (found : catalogLookup s idcode = some (k, d)) :
    execDeviceBind idcode s = .next { s with
      device := some d, driver := none, flashUnlocked := false, selValid := false, result := some (.ok .empty) } := by
  have foundBusy : catalogLookup { s with busy := true } idcode = some (k, d) := found
  rw [execDeviceBind, command_run idle (fun _ => opened) rfl, foundBusy]
  simp [complete, idle]

theorem execDeviceBind_of_not_found (idle : s.busy = false) (opened : s.isOpen = true)
    (missing : catalogLookup s idcode = none) :
    execDeviceBind idcode s = .next { s with result := some (.error (unsupportedDeviceError idcode)) } := by
  have missingBusy : catalogLookup { s with busy := true } idcode = none := missing
  rw [execDeviceBind, command_run idle (fun _ => opened) rfl, missingBusy]
  simp [complete_unsupportedDeviceError, idle]

end DeviceBind

/-- Settles O40: the command writes the binding fields or the error alone, and in particular issues no pin operation. -/
theorem deviceBindCompletes : Obligations.DeviceBindCompletes := by
  unfold Obligations.DeviceBindCompletes
  intro s idcode idle opened
  exact ⟨fun _ _ => execDeviceBind_of_found idle opened, execDeviceBind_of_not_found idle opened⟩

end Sys2Proof.Machine

/-! FLASH_DETECT (42_flash.md R230): with a device bound, the driver pattern (R239) chooses between its two next states. -/

namespace Sys2Proof.Machine

/-- The executable test decides `<+:` on the folded names (R239). -/
theorem nameMatch_iff {name pattern : List Byte} :
    nameMatch name pattern = true ↔ pattern.map foldByte <+: name.map foldByte :=
  List.isPrefixOf_iff_prefix

section FlashDetect

variable {s : State} {d : DeviceDescriptor}

theorem execFlashDetect_of_unbound (idle : s.busy = false) (opened : s.isOpen = true) (unbound : s.device = none) :
    execFlashDetect s = .refused .notBound :=
  command_of_check idle opened (if_pos unbound)

/-- A bound device is all FLASH_DETECT checks, so the TAP position and the old driver do not matter. -/
theorem execFlashDetect_of_bound (idle : s.busy = false) (opened : s.isOpen = true) (bound : s.device = some d) :
    execFlashDetect s = .next (complete (
      if nameMatch d.name s.cfg.refNamePattern = true then
        .ok (.driver .ref) { s with busy := true, flashUnlocked := false, driver := some .ref }
      else .raise (unsupportedDeviceError 0) { s with busy := true, flashUnlocked := false, driver := none })) := by
  rw [execFlashDetect, command_run idle (fun _ => opened) (by simp [bound])]
  simp only [bound, Option.map_some, Option.some.injEq]

theorem execFlashDetect_of_match (idle : s.busy = false) (opened : s.isOpen = true) (bound : s.device = some d)
    (fits : nameMatch d.name s.cfg.refNamePattern = true) :
    execFlashDetect s = .next
      { s with driver := some .ref, flashUnlocked := false, result := some (.ok (.driver .ref)) } := by
  rw [execFlashDetect_of_bound idle opened bound, if_pos fits]
  simp [complete, idle]

theorem execFlashDetect_of_mismatch (idle : s.busy = false) (opened : s.isOpen = true) (bound : s.device = some d)
    (differs : ¬ nameMatch d.name s.cfg.refNamePattern = true) :
    execFlashDetect s = .next
      { s with driver := none, flashUnlocked := false, result := some (.error (unsupportedDeviceError 0)) } := by
  rw [execFlashDetect_of_bound idle opened bound, if_neg differs]
  simp [complete_unsupportedDeviceError, idle]

end FlashDetect

/-- Settles O46: the refusal is the command's own check, and the name test, which decides `<+:`, chooses between the two next states. -/
theorem flashDetectCompletes : Obligations.FlashDetectCompletes := by
  unfold Obligations.FlashDetectCompletes
  intro s idle opened
  refine ⟨execFlashDetect_of_unbound idle opened, fun d bound => ⟨fun fits => ?_, fun differs => ?_⟩⟩
  · exact execFlashDetect_of_match idle opened bound (nameMatch_iff.2 fits)
  · exact execFlashDetect_of_mismatch idle opened bound (mt nameMatch_iff.1 differs)

end Sys2Proof.Machine

/-! The catalog (43_catalog.md R280, R281): the loop of CatalogFind is the library's `List.findIdx?` for the masked part id, whose laws say which entry wins; neither command looks at the session. -/

namespace Sys2Proof.Machine

section CatalogSearch

variable {s : State} {idcode : Word}

/-- `PART_ID_MASK` keeps the low 28 bits (R122). -/
theorem toNat_partIdOf (w : Word) : (partIdOf w).toNat = w.toNat % 2 ^ 28 := by
  rw [partIdOf, BitVec.toNat_and, ← Nat.and_two_pow_sub_one_eq_mod]
  rfl

/-- An entry matches an `idcode` when its part id is the low 28 bits of it (R280). -/
def matchesId (idcode : Word) (d : DeviceDescriptor) : Bool :=
  d.partId.toNat == idcode.toNat % 2 ^ 28

/-- The loop masks the stored part id again, which changes nothing: it has 28 bits. -/
theorem masked_partId_eq_iff {d : DeviceDescriptor} :
    d.partId.zeroExtend 32 &&& partIdMask = partIdOf idcode ↔ matchesId idcode d = true := by
  have stored : (d.partId.zeroExtend 32 &&& partIdMask).toNat = d.partId.toNat := by
    have bound := d.partId.isLt
    rw [← partIdOf, toNat_partIdOf, BitVec.toNat_setWidth]
    omega
  rw [← BitVec.toNat_inj, stored, toNat_partIdOf, matchesId, beq_iff_eq]

theorem findFrom_index (i : Nat) (ds : List DeviceDescriptor) :
    (findFrom idcode i ds).map Prod.fst = (ds.findIdx? (matchesId idcode)).map (· + i) := by
  induction ds generalizing i with
  | nil => rfl
  | cons d ds ih =>
    rw [findFrom, List.findIdx?_cons]
    by_cases hit : matchesId idcode d = true
    · simp [masked_partId_eq_iff, hit]
    · simp [masked_partId_eq_iff, hit, ih, Function.comp_def, Nat.add_comm, Nat.add_left_comm]

theorem catalogLookup_index :
    (catalogLookup s idcode).map Prod.fst = s.catalog.findIdx? (matchesId idcode) := by
  simp [catalogLookup, findFrom_index]

/-- A found index holds an entry of the masked id, and no lower index does. -/
theorem lowest_of_catalogLookup_index {k : Nat} (found : (catalogLookup s idcode).map Prod.fst = some k) :
    (∃ d, s.catalog[k]? = some d ∧ d.partId.toNat = idcode.toNat % 2 ^ 28)
      ∧ ∀ j < k, ∀ d, s.catalog[j]? = some d → d.partId.toNat ≠ idcode.toNat % 2 ^ 28 := by
  rw [catalogLookup_index, List.findIdx?_eq_some_iff_getElem] at found
  obtain ⟨inside, hit, earlier⟩ := found
  refine ⟨⟨_, List.getElem?_eq_getElem inside, beq_iff_eq.1 hit⟩, fun j below d stands same => ?_⟩
  obtain ⟨_, rfl⟩ := List.getElem?_eq_some_iff.1 stands
  exact earlier j below (beq_iff_eq.2 same)

theorem partId_ne_of_catalogLookup_none (missing : (catalogLookup s idcode).map Prod.fst = none) :
    ∀ d ∈ s.catalog, d.partId.toNat ≠ idcode.toNat % 2 ^ 28 := by
  rw [catalogLookup_index, List.findIdx?_eq_none_iff] at missing
  exact fun d stored => beq_eq_false_iff_ne.1 (missing d stored)

end CatalogSearch

section CatalogCommands

variable {s : State}

theorem execCatalogFind_of_idle (idcode : Word) (idle : s.busy = false) :
    execCatalogFind idcode s
      = .next { s with result := some (.ok (.found ((catalogLookup s idcode).map Prod.fst))) } := by
  rw [execCatalogFind, command_run (needsOpen := false) idle nofun rfl]
  simp [complete, catalogLookup, idle]

theorem execCatalogAdd_of_idle (partId flashSize ramSize : Word) (fpu dsp : Bool) (name vendor : List Byte)
    (regions : List FlashRegion) (idle : s.busy = false) :
    execCatalogAdd partId flashSize ramSize fpu dsp name vendor regions s
      = .next { s with
        catalog := s.catalog ++ [newDescriptor partId flashSize ramSize fpu dsp name vendor regions],
        result := some (.ok .empty) } := by
  rw [execCatalogAdd, command_run (needsOpen := false) idle nofun rfl]
  simp [complete, idle]

end CatalogCommands

/-- Settles O56: the command answers the index of the search and writes nothing else, and the search finds the lowest match. -/
theorem catalogFindsFirstMatch : Obligations.CatalogFindsFirstMatch := by
  unfold Obligations.CatalogFindsFirstMatch
  intro s idcode idle
  exact ⟨_, execCatalogFind_of_idle idcode idle, fun _ => lowest_of_catalogLookup_index, partId_ne_of_catalogLookup_none⟩

/-- Settles O57: the entry is `newDescriptor`, whose part id is the operand cut to 28 bits. -/
theorem catalogAddAppends : Obligations.CatalogAddAppends := by
  unfold Obligations.CatalogAddAppends
  intro s partId flashSize ramSize fpu dsp name vendor regions idle
  exact ⟨newDescriptor partId flashSize ramSize fpu dsp name vendor regions, BitVec.toNat_setWidth .., rfl, rfl, rfl, rfl,
    rfl, rfl, rfl, execCatalogAdd_of_idle partId flashSize ramSize fpu dsp name vendor regions idle⟩

end Sys2Proof.Machine

/-! The power-on state (70_reset_and_hazards.md R340), and that the block waits while the command port is empty (00_scope.md R26). -/

namespace Sys2Proof.Machine

/-- Nothing but the empty port is asked: a session may be open and a device bound. -/
theorem step_of_cmds_nil {s : State} (empty : s.cmds = []) : step s = .next s := by
  simp [step, State.fetch, empty]

@[simp] theorem powerOn_cmds (p : Params) : (State.powerOn p).cmds = [] := rfl

/-- Settles O12: each field is the value `State.powerOn` gives it, and its empty port makes the step a wait. -/
theorem powerOnState : Obligations.PowerOnState := by
  unfold Obligations.PowerOnState
  intro p s
  have waits : step s = .next s := step_of_cmds_nil (powerOn_cmds p)
  exact ⟨rfl, rfl, rfl, rfl, rfl, rfl, rfl, rfl, rfl, rfl, rfl, rfl, rfl, rfl, rfl, waits⟩

end Sys2Proof.Machine

/-! The encoder and the command decoder are inverse to each other (30_encoding.md R100 to R104): one pair of lemmas for each format with fields. -/

namespace Sys2Proof

/-! ### What each format's decoder answers on the encoder's bytes -/

section FormatsDecode

theorem toNat_ofNat_length {α : Type} {n : Nat} {xs : List α} (fits : xs.length < 2 ^ n) :
    (BitVec.ofNat n xs.length).toNat = xs.length := by
  rw [BitVec.toNat_ofNat, Nat.mod_eq_of_lt fits]

theorem readU32_bytes_end (w : Word) : readU32 (bytesLe32 w) = .ok (w, []) := by
  simpa using readU32_bytes w []

theorem readBits_pack_end (bv : Bits) : readBits bv.length (pack bv) = .ok (bv, []) := by
  simpa using readBits_pack bv []

theorem decodeFsir_encoded {bits : Bits} (fits : bits.length < 2 ^ 16) :
    decodeFsir (bytesLe16 (BitVec.ofNat 16 bits.length) ++ pack bits) = .ok (.shiftIr bits) := by
  simp [decodeFsir, readU16_bytes, toNat_ofNat_length fits, readBits_pack_end, Bind.bind, Except.bind, finish]

theorem decodeFsdr_encoded_low {len : Nat} (fits : len < 2 ^ 16) :
    decodeFsdr (0x00#8 :: bytesLe16 (BitVec.ofNat 16 len)) = .ok (.shiftDr (.low len)) := by
  have read := readU16_bytes (BitVec.ofNat 16 len) []
  rw [List.append_nil] at read
  simpa [decodeFsdr, readU8, read, Bind.bind, Except.bind, finish] using fits

theorem decodeFsdr_encoded_bits {bv : Bits} (fits : bv.length < 2 ^ 16) :
    decodeFsdr (0x01#8 :: (bytesLe16 (BitVec.ofNat 16 bv.length) ++ pack bv)) = .ok (.shiftDr (.bits bv)) := by
  simp [decodeFsdr, readU8, readU16_bytes, toNat_ofNat_length fits, readBits_pack_end, Bind.bind, Except.bind, finish]

theorem decodeFsel_encoded (ap : Byte) (reg : Word) : decodeFsel (ap :: bytesLe32 reg) = .ok (.selectAp ap reg) := by
  simp [decodeFsel, readU8, readU32_bytes_end, Bind.bind, Except.bind, finish]

theorem decodeFxfer_encoded (write : Bool) (addr data : Word) :
    decodeFxfer (BitVec.ofNat 8 write.toNat :: (bytesLe32 addr ++ bytesLe32 data)) = .ok (.apTransfer write addr data) := by
  cases write <;>
    simp [decodeFxfer, readU8, readU32_bytes, readU32_bytes_end, Bind.bind, Except.bind, finish]

theorem decodeFw_encoded (mk : Word → Instr) (w : Word) : decodeFw mk (bytesLe32 w) = .ok (mk w) := by
  simp [decodeFw, readU32_bytes_end, Bind.bind, Except.bind, finish]

theorem decodeFal_encoded (mk : Word → Word → Instr) (addr len : Word) :
    decodeFal mk (bytesLe32 addr ++ bytesLe32 len) = .ok (mk addr len) := by
  simp [decodeFal, readU32_bytes, readU32_bytes_end, Bind.bind, Except.bind, finish]

theorem decodeFald_encoded (mk : Word → List Byte → Instr) (addr : Word) {data : List Byte}
    (fits : data.length < 2 ^ 32) : decodeFald mk (encodeFald addr data) = .ok (mk addr data) := by
  have read := readBytes_append data []
  rw [List.append_nil] at read
  simp [decodeFald, encodeFald, readU32_bytes, toNat_ofNat_length fits, read, Bind.bind, Except.bind, finish]

theorem readU8_cons (b : Byte) (r : List Byte) : readU8 (b :: r) = .ok (b, r) := rfl

/-- Bits 7 to 2 of the flags are zero, and the two low bits are the two booleans (R100). -/
theorem descFlags_bits (fpu dsp : Bool) :
    descFlags fpu dsp &&& 0xFC#8 = 0 ∧ (descFlags fpu dsp).getLsbD 0 = fpu ∧ (descFlags fpu dsp).getLsbD 1 = dsp := by
  revert fpu dsp; decide

theorem decodeFdesc_encoded (partId flashSize ramSize : Word) (fpu dsp : Bool) {name vendor : List Byte}
    {regions : List FlashRegion} (nameFits : name.length < 2 ^ 8) (vendorFits : vendor.length < 2 ^ 8)
    (regionsFit : regions.length < 2 ^ 8) :
    decodeFdesc (bytesLe32 partId ++ bytesLe32 flashSize ++ bytesLe32 ramSize ++ descFlags fpu dsp ::
      (counted name ++ counted vendor ++ BitVec.ofNat 8 regions.length :: regions.flatMap encodeRegion))
      = .ok (.catalogAdd partId flashSize ramSize fpu dsp name vendor regions) := by
  have regionsRead := readRegions_encode regions []
  rw [List.append_nil] at regionsRead
  obtain ⟨reserved, fpuBit, dspBit⟩ := descFlags_bits fpu dsp
  simp only [decodeFdesc, counted, List.append_assoc, List.cons_append, readU32_bytes, readU8_cons,
    toNat_ofNat_length nameFits, toNat_ofNat_length vendorFits, toNat_ofNat_length regionsFit, readBytes_append,
    regionsRead, Bind.bind, Except.bind, reserved, fpuBit, dspBit]
  rfl

end FormatsDecode

/-- Settles O1: the opcode chooses the format, and each format's decoder reads back the fields its encoder wrote. -/
theorem commandWordsDecodeEncode : Obligations.CommandWordsDecodeEncode := by
  unfold Obligations.CommandWordsDecodeEncode
  intro p i wellFormed isCommand
  cases i with
  | sessionOpen | sessionClose | tapReset | readIdcode | coreHalt | coreResume | coreReset | flashDetect | flashInit
  | flashStatus => exact ⟨_, rfl, rfl⟩
  | shiftIr bits => exact ⟨_, rfl, decodeFsir_encoded (of_decide_eq_true wellFormed)⟩
  | shiftDr src =>
    cases src with
    | low len => exact ⟨_, rfl, decodeFsdr_encoded_low (of_decide_eq_true wellFormed)⟩
    | bits bv => exact ⟨_, rfl, decodeFsdr_encoded_bits (of_decide_eq_true wellFormed)⟩
  | selectAp ap reg => exact ⟨_, rfl, decodeFsel_encoded ap reg⟩
  | apTransfer write addr data => exact ⟨_, rfl, decodeFxfer_encoded write addr data⟩
  | readMemory addr len => exact ⟨_, rfl, decodeFal_encoded .readMemory addr len⟩
  | flashErase addr len => exact ⟨_, rfl, decodeFal_encoded .flashErase addr len⟩
  | writeMemory addr data => exact ⟨_, rfl, decodeFald_encoded .writeMemory addr (of_decide_eq_true wellFormed)⟩
  | flashProgram addr data => exact ⟨_, rfl, decodeFald_encoded .flashProgram addr (of_decide_eq_true wellFormed)⟩
  | flashVerify addr data => exact ⟨_, rfl, decodeFald_encoded .flashVerify addr (of_decide_eq_true wellFormed)⟩
  | deviceBind idcode => exact ⟨_, rfl, decodeFw_encoded .deviceBind idcode⟩
  | catalogFind idcode => exact ⟨_, rfl, decodeFw_encoded .catalogFind idcode⟩
  | catalogAdd partId flashSize ramSize fpu dsp name vendor regions =>
    simp only [Instr.WellFormed, Bool.and_eq_true, decide_eq_true_eq] at wellFormed
    obtain ⟨⟨nameFits, vendorFits⟩, regionsFit⟩ := wellFormed
    exact ⟨_, rfl, decodeFdesc_encoded partId flashSize ramSize fpu dsp nameFits vendorFits regionsFit⟩
  | irBypass | irDpacc | irApacc | dpSelectWrite | dpRdbuffRead | apCswWrite | apTarWrite | apDrwWrite | apDrwRead
  | tmsTapReset | tmsIrEntry | tmsDrEntry | tmsShiftBody | tmsScanExit => cases isCommand

end Sys2Proof

namespace Sys2Proof

/-! ### What a format's decoder that answers has read -/

section FormatsReencode

variable {bs : List Byte} {i : Instr}

theorem bind_eq_ok_iff {α β : Type} {x : Except DecodeReject α} {f : α → Except DecodeReject β} {b : β} :
    (x >>= f) = .ok b ↔ ∃ a, x = .ok a ∧ f a = .ok b := by
  cases x <;> simp [Bind.bind, Except.bind]

theorem ofNat_length_eq {α : Type} {n : Nat} {xs : List α} {w : BitVec n} (h : xs.length = w.toNat) :
    BitVec.ofNat n xs.length = w := by
  rw [h, BitVec.ofNat_toNat, BitVec.setWidth_eq]

theorem decodeFsir_ok (h : decodeFsir bs = .ok i) :
    ∃ bits : Bits, i = .shiftIr bits ∧ bits.length < 2 ^ 16
      ∧ bs = bytesLe16 (BitVec.ofNat 16 bits.length) ++ pack bits := by
  simp only [decodeFsir, bind_eq_ok_iff, Prod.exists] at h
  obtain ⟨len, r, readLen, bits, r', readField, ends⟩ := h
  obtain ⟨rfl, rfl⟩ := finish_ok ends
  obtain ⟨rfl, length⟩ := readBits_ok readField
  exact ⟨bits, rfl, length ▸ len.isLt, by rw [readU16_ok readLen, ofNat_length_eq length, List.append_nil]⟩

theorem flags_bit0_clear {flags : Byte} (reserved : flags &&& 0xFE#8 = 0) (clear : flags.getLsbD 0 = false) :
    flags = 0x00#8 := by
  revert flags; decide

theorem flags_bit0_set {flags : Byte} (reserved : flags &&& 0xFE#8 = 0) (set : flags.getLsbD 0 = true) :
    flags = 0x01#8 := by
  revert flags; decide

theorem decodeFsdr_ok (h : decodeFsdr bs = .ok i) :
    (∃ len < 2 ^ 16, i = .shiftDr (.low len) ∧ bs = 0x00#8 :: bytesLe16 (BitVec.ofNat 16 len))
      ∨ ∃ bv : Bits, i = .shiftDr (.bits bv) ∧ bv.length < 2 ^ 16
        ∧ bs = 0x01#8 :: (bytesLe16 (BitVec.ofNat 16 bv.length) ++ pack bv) := by
  simp only [decodeFsdr, bind_eq_ok_iff, Prod.exists] at h
  obtain ⟨flags, r, readFlags, len, r', readLen, h⟩ := h
  rw [readU8_ok readFlags, readU16_ok readLen]
  by_cases reserved : flags &&& 0xFE#8 = 0
  · cases hasBits : flags.getLsbD 0 with
    | false =>
      simp only [reserved, hasBits, bne_self_eq_false, Bool.false_eq_true, if_false] at h
      obtain ⟨rfl, rfl⟩ := finish_ok h
      refine .inl ⟨len.toNat, len.isLt, rfl, ?_⟩
      rw [flags_bit0_clear reserved hasBits, BitVec.ofNat_toNat, BitVec.setWidth_eq, List.append_nil]
    | true =>
      simp only [reserved, hasBits, bne_self_eq_false, Bool.false_eq_true, if_false, if_true] at h
      obtain ⟨⟨bv, r''⟩, readField, ends⟩ := bind_eq_ok_iff.1 h
      obtain ⟨rfl, rfl⟩ := finish_ok ends
      obtain ⟨rfl, length⟩ := readBits_ok readField
      refine .inr ⟨bv, rfl, length ▸ len.isLt, ?_⟩
      rw [flags_bit0_set reserved hasBits, ofNat_length_eq length, List.append_nil]
  · simp only [bne_iff_ne, ne_eq, reserved, not_false_eq_true, if_true, reduceCtorEq] at h

theorem decodeFsel_ok (h : decodeFsel bs = .ok i) :
    ∃ ap reg, i = .selectAp ap reg ∧ bs = ap :: bytesLe32 reg := by
  simp only [decodeFsel, bind_eq_ok_iff, Prod.exists] at h
  obtain ⟨ap, r, readAp, reg, r', readReg, ends⟩ := h
  obtain ⟨rfl, rfl⟩ := finish_ok ends
  exact ⟨ap, reg, rfl, by rw [readU8_ok readAp, readU32_ok readReg, List.append_nil]⟩

/-- A `write` byte of at most 1 is the byte of the boolean it stands for. -/
theorem writeByte_of_le_one {write : Byte} (small : ¬ 1 < write.toNat) :
    BitVec.ofNat 8 (write == 1#8).toNat = write := by
  revert write; decide

theorem decodeFxfer_ok (h : decodeFxfer bs = .ok i) :
    ∃ write addr data, i = .apTransfer write addr data
      ∧ bs = BitVec.ofNat 8 write.toNat :: (bytesLe32 addr ++ bytesLe32 data) := by
  simp only [decodeFxfer, bind_eq_ok_iff, Prod.exists] at h
  obtain ⟨write, r, readWrite, addr, r', readAddr, data, r'', readData, h⟩ := h
  by_cases big : 1 < write.toNat
  · simp [big] at h
  · simp only [big, if_false] at h
    obtain ⟨rfl, rfl⟩ := finish_ok h
    refine ⟨write == 1#8, addr, data, rfl, ?_⟩
    rw [readU8_ok readWrite, readU32_ok readAddr, readU32_ok readData, writeByte_of_le_one big, List.append_nil]

theorem decodeFw_ok {mk : Word → Instr} (h : decodeFw mk bs = .ok i) : ∃ w, i = mk w ∧ bs = bytesLe32 w := by
  simp only [decodeFw, bind_eq_ok_iff, Prod.exists] at h
  obtain ⟨w, r, read, ends⟩ := h
  obtain ⟨rfl, rfl⟩ := finish_ok ends
  exact ⟨w, rfl, by rw [readU32_ok read, List.append_nil]⟩

theorem decodeFal_ok {mk : Word → Word → Instr} (h : decodeFal mk bs = .ok i) :
    ∃ addr len, i = mk addr len ∧ bs = bytesLe32 addr ++ bytesLe32 len := by
  simp only [decodeFal, bind_eq_ok_iff, Prod.exists] at h
  obtain ⟨addr, r, readAddr, len, r', readLen, ends⟩ := h
  obtain ⟨rfl, rfl⟩ := finish_ok ends
  exact ⟨addr, len, rfl, by rw [readU32_ok readAddr, readU32_ok readLen, List.append_nil]⟩

theorem decodeFald_ok {mk : Word → List Byte → Instr} (h : decodeFald mk bs = .ok i) :
    ∃ addr data, i = mk addr data ∧ data.length < 2 ^ 32 ∧ bs = encodeFald addr data := by
  simp only [decodeFald, bind_eq_ok_iff, Prod.exists] at h
  obtain ⟨addr, r, readAddr, len, r', readLen, data, r'', readData, ends⟩ := h
  obtain ⟨rfl, rfl⟩ := finish_ok ends
  obtain ⟨rfl, length⟩ := readBytes_ok readData
  refine ⟨addr, data, rfl, length ▸ len.isLt, ?_⟩
  rw [readU32_ok readAddr, readU32_ok readLen, encodeFald, ofNat_length_eq length, List.append_nil, List.append_assoc]

theorem descFlags_of_reserved {flags : Byte} (reserved : flags &&& 0xFC#8 = 0) :
    descFlags (flags.getLsbD 0) (flags.getLsbD 1) = flags := by
  revert flags; decide

theorem decodeFdesc_ok (h : decodeFdesc bs = .ok i) :
    ∃ partId flashSize ramSize fpu dsp name vendor regions,
      i = .catalogAdd partId flashSize ramSize fpu dsp name vendor regions
      ∧ name.length < 2 ^ 8 ∧ vendor.length < 2 ^ 8 ∧ regions.length < 2 ^ 8
      ∧ bs = bytesLe32 partId ++ bytesLe32 flashSize ++ bytesLe32 ramSize ++ descFlags fpu dsp ::
        (counted name ++ counted vendor ++ BitVec.ofNat 8 regions.length :: regions.flatMap encodeRegion) := by
  simp only [decodeFdesc, bind_eq_ok_iff, Prod.exists] at h
  obtain ⟨partId, _, readPart, flashSize, _, readFlash, ramSize, _, readRam, flags, _, readFlags, nameLen, _, readNameLen,
    name, _, readName, vendorLen, _, readVendorLen, vendor, _, readVendor, count, _, readCount, regions, _, readRegion,
    h⟩ := h
  by_cases reserved : flags &&& 0xFC#8 = 0
  · simp only [reserved, bne_self_eq_false, Bool.false_eq_true, if_false] at h
    obtain ⟨rfl, rfl⟩ := finish_ok h
    obtain ⟨rfl, nameLength⟩ := readBytes_ok readName
    obtain ⟨rfl, vendorLength⟩ := readBytes_ok readVendor
    obtain ⟨rfl, regionsLength⟩ := readRegions_ok readRegion
    refine ⟨partId, flashSize, ramSize, _, _, name, vendor, regions, rfl, nameLength ▸ nameLen.isLt,
      vendorLength ▸ vendorLen.isLt, regionsLength ▸ count.isLt, ?_⟩
    rw [readU32_ok readPart, readU32_ok readFlash, readU32_ok readRam, readU8_ok readFlags, readU8_ok readNameLen,
      readU8_ok readVendorLen, readU8_ok readCount, descFlags_of_reserved reserved, counted, counted,
      ofNat_length_eq nameLength, ofNat_length_eq vendorLength, ofNat_length_eq regionsLength]
    simp only [List.append_assoc, List.cons_append, List.append_nil]
  · simp only [bne_iff_ne, ne_eq, reserved, not_false_eq_true, if_true, reduceCtorEq] at h

end FormatsReencode

/-- Settles O2: the opcode chooses the format, whose decoder answers on the bytes its encoder writes and on no others. -/
theorem decodedWordsReencode : Obligations.DecodedWordsReencode := by
  unfold Obligations.DecodedWordsReencode
  intro p bytes i decodes
  cases bytes with
  | nil => cases decodes
  | cons op bs =>
    have byteOf {n : Nat} (h : op.toNat = n) : op = BitVec.ofNat 8 n := by rw [← h, BitVec.ofNat_toNat, BitVec.setWidth_eq]
    have bare {j : Instr} {code : Byte} (hop : op = code) (encoded : encode p j = .command [code])
        (wellFormed : j.WellFormed = true) (isCommand : j.isCommand = true) (h : finish j bs = .ok i) :
        encode p i = .command (op :: bs) ∧ i.WellFormed = true ∧ i.isCommand = true := by
      obtain ⟨rfl, rfl⟩ := finish_ok h
      exact ⟨hop ▸ encoded, wellFormed, isCommand⟩
    simp only [decodeCommand] at decodes
    split at decodes
    case h_4 h =>
      obtain ⟨bits, rfl, fits, rfl⟩ := decodeFsir_ok decodes
      exact ⟨by rw [byteOf h]; rfl, decide_eq_true fits, rfl⟩
    case h_5 h =>
      rcases decodeFsdr_ok decodes with ⟨len, fits, rfl, rfl⟩ | ⟨bv, rfl, fits, rfl⟩
      · exact ⟨by rw [byteOf h]; rfl, decide_eq_true fits, rfl⟩
      · exact ⟨by rw [byteOf h]; rfl, decide_eq_true fits, rfl⟩
    case h_7 h =>
      obtain ⟨ap, reg, rfl, rfl⟩ := decodeFsel_ok decodes
      exact ⟨by rw [byteOf h]; rfl, rfl, rfl⟩
    case h_8 h =>
      obtain ⟨write, addr, data, rfl, rfl⟩ := decodeFxfer_ok decodes
      exact ⟨by rw [byteOf h]; rfl, rfl, rfl⟩
    case h_9 h | h_18 h =>
      obtain ⟨addr, len, rfl, rfl⟩ := decodeFal_ok decodes
      exact ⟨by rw [byteOf h]; rfl, rfl, rfl⟩
    case h_10 h | h_19 h | h_20 h =>
      obtain ⟨addr, data, rfl, fits, rfl⟩ := decodeFald_ok decodes
      exact ⟨by rw [byteOf h]; rfl, decide_eq_true fits, rfl⟩
    case h_14 h | h_21 h =>
      obtain ⟨w, rfl, rfl⟩ := decodeFw_ok decodes
      exact ⟨by rw [byteOf h]; rfl, rfl, rfl⟩
    case h_22 h =>
      obtain ⟨partId, flashSize, ramSize, fpu, dsp, name, vendor, regions, rfl, nameFits, vendorFits, regionsFit, rfl⟩ :=
        decodeFdesc_ok decodes
      have wellFormed : (Instr.catalogAdd partId flashSize ramSize fpu dsp name vendor regions).WellFormed = true := by
        simp only [Instr.WellFormed, decide_eq_true nameFits, decide_eq_true vendorFits, decide_eq_true regionsFit,
          Bool.and_self]
      exact ⟨by rw [byteOf h]; rfl, wellFormed, rfl⟩
    case h_23 => cases decodes
    all_goals exact bare (byteOf ‹_›) rfl rfl rfl decodes

end Sys2Proof

/-! The wire words (30_encoding.md R110 to R115), the vectors of the command words, the assembly lines (R130) and the error words (R105). -/

namespace Sys2Proof

/-! ### Frames -/

section Frames

variable (a : BitVec 2) (rnw : Bool) (w : Word)

theorem header_lt : a.toNat * 2 + rnw.toNat < 8 := by
  have := a.isLt
  have := rnw.toNat_le
  omega

theorem frameOut_data : (frameOut a rnw w).extractLsb' 3 32 = w := by
  apply BitVec.eq_of_toNat_eq
  have bound := w.isLt
  have low := header_lt a rnw
  rw [BitVec.extractLsb'_toNat, frameOut_toNat, Nat.shiftRight_eq_div_pow]
  omega

/-- The header of a frame: A[3:2] above RnW (R112). -/
theorem frameOut_header : (frameOut a rnw w).toNat % 8 = a.toNat * 2 + rnw.toNat := by
  have low := header_lt a rnw
  rw [frameOut_toNat]
  omega

theorem emitted_of_wellFormed {i : Instr} (wellFormed : i.WellFormed = true) : emitted i = .ok i := if_pos wellFormed

end Frames

/-! ### Sequences of cycles -/

section Cycles

/-- A shift body ends with TMS high, where every fixed sequence of R110 ends with TMS low. -/
theorem bodySymbols_last_tms {tdi : Bits} (nonempty : tdi ≠ []) :
    (bodySymbols tdi).getLast?.map Symbol.tms = some true := by
  induction tdi with
  | nil => exact absurd rfl nonempty
  | cons b bs ih =>
    by_cases last : bs = []
    · subst last; rfl
    · have more : bodySymbols bs ≠ [] := by
        rw [← List.length_pos_iff, Machine.bodySymbols_length]
        exact List.length_pos_iff.2 last
      rw [Machine.bodySymbols_cons b last, List.getLast?_cons_of_ne_nil more, ih last]

theorem bodySymbols_ne_lowSymbols {tdi : Bits} {tms : List Bool} (nonempty : tdi ≠ [])
    (low : (lowSymbols tms).getLast?.map Symbol.tms = some false) : bodySymbols tdi ≠ lowSymbols tms := by
  intro same
  rw [← same, bodySymbols_last_tms nonempty] at low
  cases low

theorem decodeCycles_bodySymbols {tdi : Bits} (nonempty : tdi ≠ []) (fits : tdi.length < 2 ^ 16) :
    decodeCycles (bodySymbols tdi) = .ok (.tmsShiftBody tdi) := by
  have body : bodySymbols tdi ≠ [] ∧ (bodySymbols tdi).length < 2 ^ 16
      ∧ bodySymbols tdi = bodySymbols ((bodySymbols tdi).map Symbol.tdi) := by
    rw [Machine.bodySymbols_tdi, ← List.length_pos_iff, Machine.bodySymbols_length]
    exact ⟨List.length_pos_iff.2 nonempty, fits, rfl⟩
  rw [decodeCycles, if_neg (bodySymbols_ne_lowSymbols nonempty rfl), if_neg (bodySymbols_ne_lowSymbols nonempty rfl),
    if_neg (bodySymbols_ne_lowSymbols nonempty rfl), if_neg (bodySymbols_ne_lowSymbols nonempty rfl), if_pos body,
    Machine.bodySymbols_tdi]

end Cycles

/-- Settles O3: an IR code is told by its value, a frame by its header, a sequence by its symbols. -/
theorem wireWordsDecodeEncode : Obligations.WireWordsDecodeEncode := by
  unfold Obligations.WireWordsDecodeEncode
  intro p i dpaccApacc dpaccBypass apaccBypass wellFormed isRow
  cases i with
  | irBypass => simp [encode, decode, decodeIr, dpaccBypass.symm, apaccBypass.symm]
  | irDpacc => simp [encode, decode, decodeIr]
  | irApacc => simp [encode, decode, decodeIr, dpaccApacc.symm]
  | dpSelectWrite data =>
    simp [encode, decode, decodeFrame, frameOut_header, frameOut_data, emitted_of_wellFormed wellFormed]
  | apCswWrite data =>
    simp [encode, decode, decodeFrame, frameOut_header, frameOut_data, emitted_of_wellFormed wellFormed]
  | dpRdbuffRead | apTarWrite | apDrwWrite | apDrwRead =>
    simp [encode, decode, decodeFrame, frameOut_header, frameOut_data]
  | tmsTapReset | tmsIrEntry | tmsDrEntry | tmsScanExit => rfl
  | tmsShiftBody tdi =>
    simp only [Instr.WellFormed, Bool.and_eq_true, decide_eq_true_eq] at wellFormed
    exact decodeCycles_bodySymbols (List.length_pos_iff.1 wellFormed.1) wellFormed.2
  | sessionOpen | sessionClose | tapReset | shiftIr | shiftDr | readIdcode | selectAp | apTransfer | readMemory
  | writeMemory | coreHalt | coreResume | coreReset | deviceBind | flashDetect | flashInit | flashStatus | flashErase
  | flashProgram | flashVerify | catalogFind | catalogAdd => cases isRow

/-- Settles O4: the decoder computes on each of the six words. -/
theorem sampleWordsDecode : Obligations.SampleWordsDecode := by
  unfold Obligations.SampleWordsDecode
  exact ⟨rfl, rfl, rfl, rfl, rfl, rfl⟩

end Sys2Proof

namespace Sys2Proof.Machine

/-! ### Assembly operands -/

theorem asmField_toNat {n : Nat} (w : BitVec n) : asmField n w.toNat = some w := by
  simp [asmField, w.isLt]

theorem asmBits_value (bv : Bits) : asmBits bv.length (value bv) = some bv := by
  rw [asmBits, if_pos (value_lt bv), bitsOf_value bv _ (le_refl _)]
  simp

/-- Settles O7: each line's operands are numbers that fit their fields, so `assemble` reads them back and keeps the well-formed command. -/
theorem assemblyRoundTrip : Obligations.AssemblyRoundTrip := by
  unfold Obligations.AssemblyRoundTrip
  intro i wellFormed isCommand unused
  have keep {o : Option Instr} (read : o = some i) : o.filter Instr.WellFormed = some i := by
    rw [read, Option.filter_some, if_pos wellFormed]
  cases i with
  | sessionOpen | sessionClose | tapReset | readIdcode | coreHalt | coreResume | coreReset | flashDetect | flashInit
  | flashStatus | catalogAdd => exact ⟨_, rfl, keep rfl⟩
  | shiftIr bits => exact ⟨_, rfl, keep (by simp [asmBits_value])⟩
  | shiftDr src =>
    cases src with
    | low len => exact ⟨_, rfl, keep rfl⟩
    | bits bv => exact ⟨_, rfl, keep (by simp [asmBits_value])⟩
  | apTransfer write addr data =>
    cases write with
    | true => exact ⟨_, rfl, keep (by simp [asmField_toNat])⟩
    | false =>
      obtain rfl := unused addr data rfl
      exact ⟨_, rfl, keep (by simp [asmField_toNat])⟩
  | selectAp | readMemory | writeMemory | deviceBind | flashErase | flashProgram | flashVerify | catalogFind =>
    exact ⟨_, rfl, keep (by simp [asmField_toNat])⟩
  | irBypass | irDpacc | irApacc | dpSelectWrite | dpRdbuffRead | apCswWrite | apTarWrite | apDrwWrite | apDrwRead
  | tmsTapReset | tmsIrEntry | tmsDrEntry | tmsShiftBody | tmsScanExit => cases isCommand

/-! ### Error words -/

theorem errorByte_injective : Function.Injective errorByte :=
  Function.LeftInverse.injective (g := fun b => ErrorCode.ofNat (b.toNat - 1)) fun c => by cases c <;> rfl

theorem stepByte_injective : Function.Injective stepByte :=
  Function.LeftInverse.injective (g := fun b => StepKind.ofNat b.toNat) fun k => by cases k <;> rfl

theorem bytesLe32_injective {v w : Word} (same : bytesLe32 v = bytesLe32 w) : v = w := by
  simpa [readU32_bytes_end] using congrArg readU32 same

/-- The bytes of a field are its digits to the base 2^8, the low one first (00_scope.md R12). -/
theorem bytesLe32_digits (w : Word) :
    ∃ b0 b1 b2 b3 : Byte, bytesLe32 w = [b0, b1, b2, b3]
      ∧ w.toNat = b0.toNat + 2 ^ 8 * b1.toNat + 2 ^ 16 * b2.toNat + 2 ^ 24 * b3.toNat := by
  refine ⟨_, _, _, _, rfl, ?_⟩
  have bound := w.isLt
  simp only [BitVec.extractLsb'_toNat, Nat.shiftRight_eq_div_pow]
  omega

/-- Settles O10: the tables of codes and steps are injective, and the four bytes of an address are its digits. -/
theorem errorWordsAreFaithful : Obligations.ErrorWordsAreFaithful := by
  unfold Obligations.ErrorWordsAreFaithful
  intro e
  constructor
  · obtain ⟨b0, b1, b2, b3, bytes, digits⟩ := bytesLe32_digits e.addr
    refine ⟨errorByte e.code, stepByte e.step, b0, b1, b2, b3, ?_, ?_, ?_, digits⟩
    · simp [resultWord, bytes]
    · cases e.code <;> decide
    · cases e.step <;> decide
  · intro e' same
    simp only [resultWord, List.cons.injEq] at same
    obtain ⟨code, step, fields⟩ := same
    obtain ⟨addr, detail⟩ := List.append_inj fields rfl
    cases e; cases e'
    simp only [ErrorRecord.mk.injEq]
    exact ⟨errorByte_injective code, stepByte_injective step, bytesLe32_injective addr, List.singleton_injective detail⟩

end Sys2Proof.Machine

/-! What every instruction can do to the state, said once: the relation `Effect` has a constructor for each kind of effect, and `exec_effect` finds the one an instruction had. The statements about every instruction and about every step follow from it by cases (10_state.md R32, R35; 40_tap.md R154; 60_exceptions.md R306, R307). -/

namespace Sys2Proof.Machine

section Ends

variable {s t u : State} {needsOpen : Bool} {check : State → Option Refusal} {body : State → Res Payload}

/-- The state at the end of a body: its value or its error is the result. -/
def ended : Res Payload → State
  | .ok p t => { t with result := some (.ok p) }
  | .raise e t => t.enterError e

@[simp] theorem ended_ok (p : Payload) (t : State) : ended (.ok p t) = { t with result := some (.ok p) } := rfl
@[simp] theorem ended_raise (e : ErrorRecord) (t : State) : ended (.raise e t) = t.enterError e := rfl
@[simp] theorem Res.state_ok {α : Type} (a : α) (t : State) : (Res.ok a t).state = t := rfl
@[simp] theorem Res.state_raise {α : Type} (e : ErrorRecord) (t : State) : (Res.raise e t : Res α).state = t := rfl

theorem complete_eq_ended (r : Res Payload) : complete r = { ended r with busy := false } := by
  cases r <;> rfl

theorem ended_of_internalStep (h : internalStep check body s = .next t) :
    s.isOpen = true ∧ check s = none ∧ t = ended (body s) := by
  obtain ⟨opened, pass, ⟨p, u, run, rfl⟩ | ⟨e, u, run, rfl⟩⟩ := internalStep_next h
  · exact ⟨opened, pass, by rw [run]; rfl⟩
  · exact ⟨opened, pass, by rw [run]; rfl⟩

theorem ended_of_command (h : command true check body s = .next t) :
    s.busy = false ∧ s.isOpen = true ∧ check s = none
      ∧ t = { ended (body { s with busy := true }) with busy := false } := by
  obtain ⟨idle, opened, pass, rfl⟩ := command_next h
  exact ⟨idle, opened rfl, pass, complete_eq_ended _⟩

end Ends

/-! ### Effects on the wire -/

section OnTheWire

variable {s t u : State} {check : State → Option Refusal} {body : State → Res Payload}

/-- A TransportError ended the instruction (60_exceptions.md R306). -/
structure Lost (t : State) : Prop where
  tap : t.tap = .unknown
  ir : t.ir = none
  selValid : t.selValid = false
  result : ∃ e, t.result = some (.error e) ∧ e.code = .transportError

/-- The SELECT shadow is the same, or has become invalid. -/
structure KeepsShadow (s t : State) : Prop where
  selAp : t.selAp = s.selAp
  selBank : t.selBank = s.selBank
  selValid : t.selValid = true → s.selValid = true

/-- An instruction that scans is at rest: the target came along, and a ProtocolError has made the shadow invalid (60_exceptions.md R307). -/
structure Rested (s t : State) : Prop where
  tap : t.tap = .rti
  sent : ∃ ys, Sent s t ys ∧ tapAfter .rti ys = .rti
  error : ∀ e, t.result = some (.error e) → e.code ≠ .transportError ∧ (e.code = .protocolError → t.selValid = false)

/-- What any work on the wire keeps. -/
structure WireOnly (s t : State) : Prop where
  isOpen : s.isOpen = true
  same : SameBinding s t
  bank : s.selBank &&& 0x0F#8 = 0 → t.selBank &&& 0x0F#8 = 0
  trace : ∃ new, t.trace = new ++ s.trace ∧ (new.all fun e => e.op.allowed) = true

/-- An instruction made of scans: it starts in Run-Test/Idle and comes back, or is lost. -/
structure Scanned (s t : State) : Prop extends WireOnly s t where
  start : s.tap = .rti
  ends : Lost t ∨ Rested s t

/-- An instruction made of TCK cycles that need not come back to Run-Test/Idle. -/
structure Clocked (s t : State) : Prop extends WireOnly s t where
  shadow : KeepsShadow s t
  ends : Lost t ∨ ∃ p, t.result = some (.ok p)

theorem Lost.of_transportError {e : ErrorRecord} (code : e.code = .transportError) (u : State) : Lost (u.enterError e) :=
  ⟨by simp [code], by simp [code], by simp [code], e, rfl, code⟩

theorem WireOnly.enterError (opened : s.isOpen = true) (grown : Grown s u) (e : ErrorRecord) :
    WireOnly s (u.enterError e) where
  isOpen := opened
  same := by
    obtain ⟨cfg, isOpen, busy, device, driver, unlocked, catalog, cmds⟩ := grown.same
    constructor <;> simpa
  bank := by simpa using grown.bank
  trace := by simpa using grown.trace

theorem WireOnly.withResult (opened : s.isOpen = true) (grown : Grown s u) (r : Option CommandResult) :
    WireOnly s { u with result := r } :=
  ⟨opened, { grown.same with }, grown.bank, grown.trace⟩

theorem Res.Visits.ended_scanned {r : Res Payload} (visits : r.Visits s) (opened : s.isOpen = true) (start : s.tap = .rti) :
    Scanned s (ended r) := by
  cases r with
  | ok p u =>
    have visit : Visit s u := visits
    obtain ⟨rest, sent⟩ := visit.rest start
    exact ⟨.withResult opened visit.toGrown _, start, .inr ⟨rest, sent, nofun⟩⟩
  | raise e u =>
    obtain ⟨grown, visit⟩ := visits
    refine ⟨.enterError opened grown e, start, ?_⟩
    by_cases code : e.code = .transportError
    · exact .inl (.of_transportError code u)
    · obtain ⟨rest, ys, sent, back⟩ := (visit code).rest start
      have sentToo : Sent s (u.enterError e) ys := by simpa [Sent] using sent
      refine .inr ⟨by simpa [code] using rest, ⟨ys, sentToo, back⟩, fun e' same => ?_⟩
      obtain rfl : e = e' := by simpa using same
      exact ⟨code, fun protocol => by simp [protocol]⟩

/-- A command's body runs busy, which its end undoes. -/
theorem WireOnly.ofBusy (idle : s.busy = false) (h : WireOnly { s with busy := true } t) :
    WireOnly s { t with busy := false } :=
  ⟨h.isOpen, { h.same with busy := idle.symm }, h.bank, h.trace⟩

theorem Scanned.ofBusy (idle : s.busy = false) (h : Scanned { s with busy := true } t) :
    Scanned s { t with busy := false } :=
  ⟨.ofBusy idle h.toWireOnly, h.start, h.ends.imp (fun lost => { lost with }) fun rested => { rested with }⟩

theorem command_scanned (h : command true check body s = .next t) (start : check s = none → s.tap = .rti)
    (visits : check s = none → (body { s with busy := true }).Visits { s with busy := true }) : Scanned s t := by
  obtain ⟨idle, opened, pass, rfl⟩ := ended_of_command h
  exact .ofBusy idle ((visits pass).ended_scanned opened (start pass))

theorem internalStep_scanned (h : internalStep tapCheck body s = .next t) (visits : (body s).Visits s) : Scanned s t := by
  obtain ⟨opened, pass, rfl⟩ := ended_of_internalStep h
  exact visits.ended_scanned opened (tapCheck_none.1 pass)

theorem KeepsShadow.ended {r : Res Payload} (h : SameShadow s r.state) : KeepsShadow s (ended r) := by
  obtain ⟨valid, ap, bank⟩ := h
  cases r with
  | ok p u => exact ⟨ap, bank, fun v => valid ▸ v⟩
  | raise e u =>
    refine ⟨by simpa using ap, by simpa using bank, fun v => valid ▸ ?_⟩
    have kept : (u.afterError e.code).selValid = true := v
    rw [State.afterError_selValid] at kept
    split at kept
    · cases kept
    · exact kept

theorem command_keepsShadow (h : command true check body s = .next t)
    (shadow : SameShadow { s with busy := true } (body { s with busy := true }).state) : KeepsShadow s t := by
  obtain ⟨-, -, -, rfl⟩ := ended_of_command h
  exact { KeepsShadow.ended shadow with }

theorem internalStep_keepsShadow (h : internalStep check body s = .next t) (shadow : SameShadow s (body s).state) :
    KeepsShadow s t := by
  obtain ⟨-, -, rfl⟩ := ended_of_internalStep h
  exact .ended shadow

theorem Clocked.performed (opened : s.isOpen = true) (grown : Grown s u) (shadow : SameShadow s u) (p : Payload) :
    Clocked s { u with result := some (.ok p) } :=
  ⟨.withResult opened grown _, .ended (r := .ok p u) shadow, .inr ⟨p, rfl⟩⟩

theorem Clocked.failed (opened : s.isOpen = true) (grown : Grown s u) (shadow : SameShadow s u) :
    Clocked s (u.enterError transportError) :=
  ⟨.enterError opened grown _, .ended (r := .raise transportError u) shadow, .inl (.of_transportError rfl u)⟩

theorem clocked_of_runCycles {cs : List Cycle} {value : Bits → Payload} (opened : s.isOpen = true) :
    Clocked s (ended ((runCycles cs s).bind fun out u => .ok (value out) u)) := by
  cases run : runCycles cs s with
  | ok out u =>
    have pins := (runCycles_ok run).1
    exact .performed opened pins.grown pins.shadow (value out)
  | raise e u =>
    obtain ⟨rfl, pins⟩ := runCycles_raise run
    exact .failed opened pins.grown pins.shadow

theorem execTmsTapReset_clocked (h : execTmsTapReset s = .next t) : Clocked s t := by
  rw [execTmsTapReset] at h
  obtain ⟨opened, -, rfl⟩ := ended_of_internalStep h
  obtain ⟨u, run, grown, shadow, -⟩ | ⟨u, run, grown, shadow⟩ := resetCycles_cases s
  · simp only [run, Res.bind_ok, ended_ok]
    exact .performed opened grown shadow _
  · simp only [run, Res.bind_raise, ended_raise]
    exact .failed opened grown shadow

/-- TAP_RESET is lost, or the target has seen the reset sequence (40_tap.md R147). -/
theorem execTapReset_clocked (h : execTapReset s = .next t) :
    Clocked s t ∧ (Lost t ∨ t.tap = .rti ∧ t.ir = none ∧ t.selValid = false ∧ Sent s t (lowSymbols tmsTapReset)) := by
  rw [execTapReset] at h
  obtain ⟨idle, opened, -, rfl⟩ := ended_of_command h
  obtain ⟨u, run, grown, shadow, tap, sent, -⟩ | ⟨u, run, grown, shadow⟩ := resetCycles_cases { s with busy := true }
  · dsimp only
    rw [run]
    have wire : WireOnly s (ended (.ok .empty { u with ir := none, selValid := false, busy := false })) :=
      ⟨opened, { grown.same with busy := idle.symm }, grown.bank, grown.trace⟩
    exact ⟨⟨wire, ⟨shadow.selAp, shadow.selBank, nofun⟩, .inr ⟨.empty, rfl⟩⟩, .inr ⟨tap, rfl, rfl, sent⟩⟩
  · have clocked : Clocked { s with busy := true } (u.enterError transportError) := .failed opened grown shadow
    have lost : Lost (u.enterError transportError) := .of_transportError rfl u
    simp only [run, Res.bind_raise, ended_raise]
    exact ⟨⟨.ofBusy idle clocked.toWireOnly, { clocked.shadow with }, .inl { lost with }⟩, .inl { lost with }⟩

end OnTheWire

end Sys2Proof.Machine

namespace Sys2Proof.Machine

/-! ### The effect of an instruction -/

/-- What the instruction `i` did when it took `s` to `t`. -/
inductive Effect (s : State) : Instr → State → Prop where
  | opens (idle : s.busy = false) :
    Effect s .sessionOpen
      { (s.advance.record .openLink .done).openSession with result := some (.ok .empty), busy := false }
  | opensNot (idle : s.busy = false) :
    Effect s .sessionOpen { s.advance.record .openLink .failed with result := some (.error transportError), busy := false }
  | closes :
    Effect s .sessionClose
      { s with isOpen := false, result := some (.ok .empty), trace := ⟨.closeLink, .done⟩ :: s.trace }
  | binds (idcode : Word) (d : DeviceDescriptor) :
    Effect s (.deviceBind idcode)
      { s with device := some d, driver := none, flashUnlocked := false, selValid := false, result := some (.ok .empty) }
  | bindsNot (idcode : Word) :
    Effect s (.deviceBind idcode) { s with result := some (.error (unsupportedDeviceError idcode)) }
  | detects (d : DeviceDescriptor) (bound : s.device = some d) (fits : nameMatch d.name s.cfg.refNamePattern = true) :
    Effect s .flashDetect
      { s with driver := some .ref, flashUnlocked := false, result := some (.ok (.driver .ref)) }
  | detectsNot :
    Effect s .flashDetect
      { s with driver := none, flashUnlocked := false, result := some (.error (unsupportedDeviceError 0)) }
  | finds (idcode : Word) (p : Payload) : Effect s (.catalogFind idcode) { s with result := some (.ok p) }
  | adds (partId flashSize ramSize : Word) (fpu dsp : Bool) (name vendor : List Byte) (regions : List FlashRegion)
      (d : DeviceDescriptor) :
    Effect s (.catalogAdd partId flashSize ramSize fpu dsp name vendor regions)
      { s with catalog := s.catalog ++ [d], result := some (.ok .empty) }
  | scans (i : Instr) {t : State} (scanned : Scanned s t) (device : needsDevice i = true → s.device.isSome = true)
      (shadow : needsDevice i = false → (∀ data, i ≠ .dpSelectWrite data) → KeepsShadow s t) : Effect s i t
  | locks (i : Instr) (b : Bool) {t : State} (writer : i = .coreReset ∨ i = .flashInit)
      (scanned : Scanned { s with flashUnlocked := b } t) (device : s.device.isSome = true)
      (driver : b = true → s.driver = some .ref) : Effect s i t
  | resets {t : State} (clocked : Clocked s t)
      (ends : Lost t ∨ t.tap = .rti ∧ t.ir = none ∧ t.selValid = false ∧ Sent s t (lowSymbols tmsTapReset)) :
    Effect s .tapReset t
  | clocks (i : Instr) {t : State} (row : i.isCommand = false) (clocked : Clocked s t) : Effect s i t

section Effects

variable {s t : State}

theorem execSessionOpen_effect (h : execSessionOpen s = .next t) : Effect s .sessionOpen t := by
  rw [execSessionOpen] at h
  split at h
  · cases h
  · next pass =>
    have idle : s.busy = false := by
      cases busy : s.busy with
      | false => rfl
      | true => rw [gateRefusal_of_busy busy] at pass; cases pass
    obtain rfl := (Host.Outcome.next.inj h).symm
    rcases pinOp_cases .openLink { s with busy := true } with run | run <;> rw [openLink, run]
    · exact .opens idle
    · exact .opensNot idle

theorem execSessionClose_effect (h : execSessionClose s = .next t) : Effect s .sessionClose t := by
  obtain ⟨idle, opened, -⟩ := ended_of_command h
  rw [execSessionClose_of_open idle opened] at h
  cases h
  exact .closes

theorem execDeviceBind_effect {idcode : Word} (h : execDeviceBind idcode s = .next t) :
    Effect s (.deviceBind idcode) t := by
  obtain ⟨idle, opened, -⟩ := ended_of_command h
  cases found : catalogLookup s idcode with
  | none =>
    rw [execDeviceBind_of_not_found idle opened found] at h
    cases h
    exact .bindsNot idcode
  | some entry =>
    rw [execDeviceBind_of_found idle opened found] at h
    cases h
    exact .binds idcode entry.2

theorem execFlashDetect_effect (h : execFlashDetect s = .next t) : Effect s .flashDetect t := by
  obtain ⟨idle, opened, pass, -⟩ := ended_of_command h
  cases bound : s.device with
  | none => rw [if_pos bound] at pass; cases pass
  | some d =>
    by_cases fits : nameMatch d.name s.cfg.refNamePattern = true
    · rw [execFlashDetect_of_match idle opened bound fits] at h
      cases h
      exact .detects d bound fits
    · rw [execFlashDetect_of_mismatch idle opened bound fits] at h
      cases h
      exact .detectsNot

theorem execCatalogFind_effect {idcode : Word} (h : execCatalogFind idcode s = .next t) :
    Effect s (.catalogFind idcode) t := by
  rw [execCatalogFind_of_idle idcode (command_next h).1] at h
  cases h
  exact .finds idcode _

theorem execCatalogAdd_effect {partId flashSize ramSize : Word} {fpu dsp : Bool} {name vendor : List Byte}
    {regions : List FlashRegion} (h : execCatalogAdd partId flashSize ramSize fpu dsp name vendor regions s = .next t) :
    Effect s (.catalogAdd partId flashSize ramSize fpu dsp name vendor regions) t := by
  rw [execCatalogAdd_of_idle partId flashSize ramSize fpu dsp name vendor regions (command_next h).1] at h
  cases h
  exact .adds ..

/-! ### The bodies of the instructions that scan -/

theorem Res.Visits.answer {α : Type} {r : Res α} {f : α → Payload} (h : r.Visits s) :
    (r.bind fun a u => .ok (f a) u).Visits s :=
  h.bind fun _ _ _ => .ok _ _

theorem shiftBits_ne_nil {src : DrSource} (positive : shiftLen src ≠ 0) : shiftTdi src ≠ [] := by
  cases src <;> simpa [shiftLen, shiftTdi, zeros] using positive

theorem readIdcode_visits :
    ((scanIr (irBits irBypassCode) s).bind fun _ s =>
      (scanDr (zeros idcodeLen) s).bind fun out s =>
      if sentinel (BitVec.ofNat 32 (value out)) then .raise (noDeviceError (BitVec.ofNat 32 (value out))) s
      else .ok (.word (BitVec.ofNat 32 (value out))) s : Res Payload).Visits s := by
  refine (scanIr_visits (irBits_ne_nil _) s).bind fun _ u _ => (scanDr_visits (by decide) u).bind fun out v _ => ?_
  split
  · exact .raise _ v
  · exact .ok _ v

theorem execShiftIr_effect {bits : Bits} (h : execShiftIr bits s = .next t) : Effect s (.shiftIr bits) t := by
  have nonempty (pass : shiftCheck bits.length s = none) : bits ≠ [] := by
    simpa using (shiftCheck_none.1 pass).1
  exact .scans _ (command_scanned h (fun pass => (shiftCheck_none.1 pass).2) fun pass =>
      (scanIr_visits (nonempty pass) _).answer) nofun
    fun _ _ => command_keepsShadow h (Res.bind_shadow (scanIr_shadow ..) fun _ u _ => .refl u)

theorem execShiftDr_effect {src : DrSource} (h : execShiftDr src s = .next t) : Effect s (.shiftDr src) t :=
  .scans _ (command_scanned h (fun pass => (shiftCheck_none.1 pass).2) fun pass =>
      (scanDr_visits (shiftBits_ne_nil (shiftCheck_none.1 pass).1) _).answer) nofun
    fun _ _ => command_keepsShadow h (Res.bind_shadow (runCycles_shadow ..) fun _ u _ => .refl u)

theorem execReadIdcode_effect (h : execReadIdcode s = .next t) : Effect s .readIdcode t := by
  refine .scans _ (command_scanned h tapCheck_none.1 fun _ => readIdcode_visits) nofun fun _ _ => ?_
  refine command_keepsShadow h (Res.bind_shadow (scanIr_shadow ..) fun _ u _ =>
    Res.bind_shadow (runCycles_shadow ..) fun out v _ => ?_)
  split
  · exact .refl v
  · exact .refl v

/-- A command that needs a device leaves the shadow to the selection. -/
theorem command_dap_effect {i : Instr} {check : State → Option Refusal} {body : State → Res Payload}
    (needs : needsDevice i = true) (pre : check s = none → s.device.isSome = true ∧ s.tap = .rti)
    (visits : ∀ u, (body u).Visits u) (h : command true check body s = .next t) : Effect s i t := by
  obtain ⟨-, -, pass, -⟩ := ended_of_command h
  exact .scans i (command_scanned h (fun pass => (pre pass).2) fun _ => visits _) (fun _ => (pre pass).1)
    fun needsNot => by simp [needs] at needsNot

theorem execSelectAp_effect {ap : Byte} {reg : Word} (h : execSelectAp ap reg s = .next t) :
    Effect s (.selectAp ap reg) t := by
  refine command_dap_effect rfl dapCheck_none.1 (fun u => ?_) h
  exact (selectBody_visits ap reg u).answer

theorem execCoreHalt_effect (h : execCoreHalt s = .next t) : Effect s .coreHalt t := by
  refine command_dap_effect rfl dapCheck_none.1 (fun u => ?_) h
  exact (memWrite_visits _ _ u).answer

theorem execCoreResume_effect (h : execCoreResume s = .next t) : Effect s .coreResume t := by
  refine command_dap_effect rfl dapCheck_none.1 (fun u => ?_) h
  exact (memWrite_visits _ _ u).answer

theorem execFlashStatus_effect (h : execFlashStatus s = .next t) : Effect s .flashStatus t := by
  refine command_dap_effect rfl (fun pass => (flashCheck_none.1 pass).1) (fun u => ?_) h
  exact (memRead_visits _ u).answer

theorem execApTransfer_effect {write : Bool} {addr data : Word} (h : execApTransfer write addr data s = .next t) :
    Effect s (.apTransfer write addr data) t := by
  refine command_dap_effect rfl dapCheck_none.1 (fun u => ?_) h
  split
  · exact .raise _ u
  · split
    · exact (memWrite_visits addr data u).answer
    · exact (memRead_visits addr u).answer

theorem execReadMemory_effect {addr len : Word} (h : execReadMemory addr len s = .next t) :
    Effect s (.readMemory addr len) t := by
  refine command_dap_effect rfl (fun pass => (dapRangeCheck_none.1 pass).1) (fun u => ?_) h
  split
  · exact .raise _ u
  · exact (readWords_visits _ addr u).answer

theorem execWriteMemory_effect {addr : Word} {data : List Byte} (h : execWriteMemory addr data s = .next t) :
    Effect s (.writeMemory addr data) t := by
  refine command_dap_effect rfl (fun pass => (dapRangeCheck_none.1 pass).1) (fun u => ?_) h
  split
  · exact .raise _ u
  · exact (writeWords_visits addr data u).answer

theorem execFlashErase_effect {addr len : Word} (h : execFlashErase addr len s = .next t) :
    Effect s (.flashErase addr len) t := by
  refine command_dap_effect rfl (fun pass => (flashRangeCheck_none.1 pass).1.1) (fun u => ?_) h
  split
  · exact .ok _ u
  · exact (eraseWalk_visits _ _ _ u).answer

theorem execFlashProgram_effect {addr : Word} {data : List Byte} (h : execFlashProgram addr data s = .next t) :
    Effect s (.flashProgram addr data) t := by
  refine command_dap_effect rfl (fun pass => (flashRangeCheck_none.1 pass).1.1) (fun u => ?_) h
  split
  · exact .raise _ u
  · exact (programWalk_visits _ addr data u).answer

theorem execFlashVerify_effect {addr : Word} {data : List Byte} (h : execFlashVerify addr data s = .next t) :
    Effect s (.flashVerify addr data) t := by
  refine command_dap_effect rfl (fun pass => (flashRangeCheck_none.1 pass).1.1) (fun u => ?_) h
  split
  · exact .raise _ u
  · refine (Res.Visits.relabel (atStep_code _ _) (verify_visits addr data u)).bind fun same v _ => ?_
    split
    · exact .ok _ v
    · exact .raise _ v

/-- CORE_RESET runs as if the flash had been locked before it (41_dap.md R200). -/
theorem execCoreReset_effect (h : execCoreReset s = .next t) : Effect s .coreReset t := by
  rw [execCoreReset] at h
  obtain ⟨idle, opened, pass, rfl⟩ := ended_of_command h
  obtain ⟨device, start⟩ := dapCheck_none.1 pass
  have visits := (memWrite_visits aircrAddr aircrSysreset { s with busy := true, flashUnlocked := false }).answer
    (f := fun _ => .empty)
  exact .locks _ false (.inl rfl)
    (.ofBusy (s := { s with flashUnlocked := false }) idle (visits.ended_scanned opened start)) device nofun

theorem Visit.withUnlock {u : State} (h : Visit s u) (b : Bool) :
    Visit { s with flashUnlocked := b } { u with flashUnlocked := b } :=
  { h with same := { h.same with flashUnlocked := rfl } }

/-- FLASH_INIT runs as if the flash had been locked before it, or, when both keys are written, unlocked (42_flash.md R232). -/
theorem execFlashInit_effect (h : execFlashInit s = .next t) : Effect s .flashInit t := by
  rw [execFlashInit] at h
  obtain ⟨idle, opened, pass, rfl⟩ := ended_of_command h
  obtain ⟨⟨device, start⟩, driver, -⟩ := flashCheck_none.1 pass
  have key1 := memWrite_visits s.cfg.flashKeyr s.cfg.flashKey1 { s with busy := true, flashUnlocked := false }
  have locked {e : ErrorRecord} {u : State}
      (visits : (Res.raise e u : Res Payload).Visits { s with busy := true, flashUnlocked := false }) :
      Effect s .flashInit { ended (.raise e u) with busy := false } :=
    .locks _ false (.inr rfl)
      (.ofBusy (s := { s with flashUnlocked := false }) idle (visits.ended_scanned opened start)) device nofun
  dsimp only
  cases run1 : memWrite s.cfg.flashKeyr s.cfg.flashKey1 { s with busy := true, flashUnlocked := false } with
  | raise e u =>
    rw [run1] at key1
    exact locked key1
  | ok _ u =>
    rw [run1] at key1
    have key2 := memWrite_visits u.cfg.flashKeyr u.cfg.flashKey2 u
    rw [Res.bind_ok]
    cases run2 : memWrite u.cfg.flashKeyr u.cfg.flashKey2 u with
    | raise e v =>
      rw [run2] at key2
      exact locked ⟨key1.toGrown.trans key2.1, fun code => key1.trans (key2.2 code)⟩
    | ok _ v =>
      rw [run2] at key2
      have visit : Visit { s with busy := true, flashUnlocked := true } { v with flashUnlocked := true } :=
        (key1.trans key2).withUnlock true
      have scanned := Res.Visits.ended_scanned (r := .ok .empty { v with flashUnlocked := true }) visit opened start
      exact .locks _ true (.inr rfl) (.ofBusy (s := { s with flashUnlocked := true }) idle scanned) device fun _ => driver

/-! ### The rows that scan -/

theorem irStep_effect {i : Instr} {code : Byte} (needsNot : needsDevice i = false) (h : irStep code s = .next t) :
    Effect s i t :=
  .scans i (internalStep_scanned h (scanIr_visits (irBits_ne_nil code) s).answer)
    (fun needs => by simp [needs] at needsNot)
    fun _ _ => internalStep_keepsShadow h (Res.bind_shadow (scanIr_shadow ..) fun _ u _ => .refl u)

theorem writeStep_effect {i : Instr} {access : State → Res Word} (h : writeStep access s = .next t)
    (needsNot : needsDevice i = false) (visits : (access s).Visits s) (shadow : SameShadow s (access s).state) :
    Effect s i t :=
  .scans i (internalStep_scanned h visits.answer) (fun needs => by simp [needs] at needsNot)
    fun _ _ => internalStep_keepsShadow h (Res.bind_shadow shadow fun _ u _ => .refl u)

theorem readStep_effect {i : Instr} {access : State → Res Word} (h : readStep access s = .next t)
    (needsNot : needsDevice i = false) (visits : (access s).Visits s) (shadow : SameShadow s (access s).state) :
    Effect s i t :=
  .scans i (internalStep_scanned h visits.answer) (fun needs => by simp [needs] at needsNot)
    fun _ _ => internalStep_keepsShadow h (Res.bind_shadow shadow fun _ u _ => .refl u)

/-- DP_SELECT_WRITE holds the selection, so it has no claim on the shadow. -/
theorem execDpSelectWrite_effect {data : Word} (h : execDpSelectWrite data s = .next t) :
    Effect s (.dpSelectWrite data) t :=
  .scans _ (internalStep_scanned h (selectBody_visits _ _ s).answer) nofun fun _ other => absurd rfl (other data)

theorem cycleStep_effect {i : Instr} {ys : List Symbol} (row : i.isCommand = false) (h : cycleStep ys s = .next t) :
    Effect s i t := by
  obtain ⟨opened, -, rfl⟩ := ended_of_internalStep h
  exact .clocks i row (clocked_of_runCycles (value := fun _ => .empty) opened)

theorem execTmsShiftBody_effect {tdi : Bits} (h : execTmsShiftBody tdi s = .next t) : Effect s (.tmsShiftBody tdi) t := by
  obtain ⟨opened, -, rfl⟩ := ended_of_internalStep h
  exact .clocks _ rfl (clocked_of_runCycles (value := .bits) opened)

/-- Every instruction that answers a next state had one of the effects. -/
theorem exec_effect {i : Instr} (h : exec i s = .next t) : Effect s i t := by
  cases i with
  | sessionOpen => exact execSessionOpen_effect h
  | sessionClose => exact execSessionClose_effect h
  | tapReset =>
    obtain ⟨clocked, ends⟩ := execTapReset_clocked h
    exact .resets clocked ends
  | shiftIr bits => exact execShiftIr_effect h
  | shiftDr src => exact execShiftDr_effect h
  | readIdcode => exact execReadIdcode_effect h
  | selectAp ap reg => exact execSelectAp_effect h
  | apTransfer write addr data => exact execApTransfer_effect h
  | readMemory addr len => exact execReadMemory_effect h
  | writeMemory addr data => exact execWriteMemory_effect h
  | coreHalt => exact execCoreHalt_effect h
  | coreResume => exact execCoreResume_effect h
  | coreReset => exact execCoreReset_effect h
  | deviceBind idcode => exact execDeviceBind_effect h
  | flashDetect => exact execFlashDetect_effect h
  | flashInit => exact execFlashInit_effect h
  | flashStatus => exact execFlashStatus_effect h
  | flashErase addr len => exact execFlashErase_effect h
  | flashProgram addr data => exact execFlashProgram_effect h
  | flashVerify addr data => exact execFlashVerify_effect h
  | catalogFind idcode => exact execCatalogFind_effect h
  | catalogAdd => exact execCatalogAdd_effect h
  | irBypass | irDpacc | irApacc => exact irStep_effect rfl h
  | dpSelectWrite data => exact execDpSelectWrite_effect h
  | dpRdbuffRead | apDrwRead => exact readStep_effect h rfl (scan35_visits ..) (scan35_shadow ..)
  | apCswWrite | apTarWrite | apDrwWrite => exact writeStep_effect h rfl (scan35_visits ..) (scan35_shadow ..)
  | tmsTapReset => exact .clocks _ rfl (execTmsTapReset_clocked h)
  | tmsIrEntry | tmsDrEntry | tmsScanExit => exact cycleStep_effect rfl h
  | tmsShiftBody tdi => exact execTmsShiftBody_effect h

end Effects

end Sys2Proof.Machine

/-! The statements about every instruction and about every step, each by cases on the effect. -/

namespace Sys2Proof.Machine

section Steps

variable {s t : State}

theorem step_of_decodeCommand_ok {w : List Byte} {later : List (List Byte)} {i : Instr} (next : s.cmds = w :: later)
    (decodes : decodeCommand w = .ok i) : step s = exec i { s with cmds := later } := by
  simp [step, State.fetch, next, decodes]

/-- Settles O6: the three answers of the port. -/
theorem stepRunsDecodedCommand : Obligations.StepRunsDecodedCommand := by
  unfold Obligations.StepRunsDecodedCommand
  intro s
  exact ⟨fun _ _ _ => step_of_decodeCommand_ok, fun _ _ _ => step_of_decodeCommand_error, step_of_cmds_nil⟩

/-- A step waits or performs one host command. -/
theorem step_next (h : step s = .next t) :
    t = s ∨ ∃ i later, i.isCommand = true ∧ Effect { s with cmds := later } i t := by
  cases port : s.cmds with
  | nil =>
    rw [step_of_cmds_nil port] at h
    exact .inl (Host.Outcome.next.inj h).symm
  | cons w later =>
    cases decodes : decodeCommand w with
    | error why => rw [step_of_decodeCommand_error port decodes] at h; cases h
    | ok i =>
      rw [step_of_decodeCommand_ok port decodes] at h
      exact .inr ⟨i, later, (decodedWordsReencode {} w i decodes).2.2, exec_effect h⟩

end Steps

/-! ### Frames of every instruction -/

/-- Settles O15: the one command that writes the catalog appends to it. -/
theorem catalogIsAppendOnly : Obligations.CatalogIsAppendOnly := by
  unfold Obligations.CatalogIsAppendOnly
  intro s t h
  have kept {u : State} (same : u.catalog = s.catalog) : ∃ new, u.catalog = s.catalog ++ new := ⟨[], by simp [same]⟩
  rcases step_next h with rfl | ⟨i, later, -, effect⟩
  · exact kept rfl
  cases effect with
  | adds partId flashSize ramSize fpu dsp name vendor regions d => exact ⟨[d], rfl⟩
  | scans _ scanned => exact kept scanned.same.catalog
  | locks _ _ _ scanned => exact kept scanned.same.catalog
  | resets clocked => exact kept clocked.same.catalog
  | clocks _ _ clocked => exact kept clocked.same.catalog
  | _ => exact kept rfl

/-- Settles O16: work on the wire only drives TCK, TMS and TDI and reads TDO; the session commands issue one operation each. -/
theorem pinDisciplineOfEveryInstruction : Obligations.PinDisciplineOfEveryInstruction := by
  unfold Obligations.PinDisciplineOfEveryInstruction
  intro i s t h
  cases exec_effect h with
  | opens | opensNot | closes => exact ⟨[_], rfl, rfl⟩
  | scans _ scanned => exact scanned.trace
  | locks _ _ _ scanned => exact scanned.trace
  | resets clocked => exact clocked.trace
  | clocks _ _ clocked => exact clocked.trace
  | _ => exact ⟨[], rfl, rfl⟩

/-- Settles O17: by the effects, of which each writes the fields R32 gives to its command. -/
theorem fieldsHaveTheirWriters : Obligations.FieldsHaveTheirWriters := by
  unfold Obligations.FieldsHaveTheirWriters
  intro i s t h
  cases exec_effect h with
  | opens idle => exact ⟨rfl, rfl, idle.symm, fun _ => .inl rfl, fun _ => .inl rfl, fun _ => .inl rfl, fun _ => .inl rfl, absurd rfl⟩
  | opensNot idle => exact ⟨rfl, rfl, idle.symm, absurd rfl, absurd rfl, absurd rfl, absurd rfl, absurd rfl⟩
  | closes => exact ⟨rfl, rfl, rfl, fun _ => .inr rfl, absurd rfl, absurd rfl, absurd rfl, absurd rfl⟩
  | binds idcode d =>
    exact ⟨rfl, rfl, rfl, absurd rfl, fun _ => .inr ⟨_, rfl⟩, fun _ => .inr (.inr ⟨_, rfl⟩),
      fun _ => .inr (.inr (.inr (.inr ⟨_, rfl⟩))), absurd rfl⟩
  | detects | detectsNot =>
    exact ⟨rfl, rfl, rfl, absurd rfl, absurd rfl, fun _ => .inr (.inl rfl), fun _ => .inr (.inr (.inr (.inl rfl))), absurd rfl⟩
  | bindsNot | finds => exact ⟨rfl, rfl, rfl, absurd rfl, absurd rfl, absurd rfl, absurd rfl, absurd rfl⟩
  | adds =>
    exact ⟨rfl, rfl, rfl, absurd rfl, absurd rfl, absurd rfl, absurd rfl, fun _ => ⟨_, _, _, _, _, _, _, _, rfl⟩⟩
  | scans _ scanned =>
    obtain ⟨cfg, isOpen, busy, device, driver, unlocked, catalog, cmds⟩ := scanned.same
    exact ⟨cfg, cmds, busy, absurd isOpen, absurd device, absurd driver, absurd unlocked, absurd catalog⟩
  | locks _ _ writer scanned =>
    obtain ⟨cfg, isOpen, busy, device, driver, -, catalog, cmds⟩ := scanned.same
    refine ⟨cfg, cmds, busy, absurd isOpen, absurd device, absurd driver, fun _ => ?_, absurd catalog⟩
    rcases writer with rfl | rfl
    · exact .inr (.inr (.inl rfl))
    · exact .inr (.inl rfl)
  | resets clocked =>
    obtain ⟨cfg, isOpen, busy, device, driver, unlocked, catalog, cmds⟩ := clocked.same
    exact ⟨cfg, cmds, busy, absurd isOpen, absurd device, absurd driver, absurd unlocked, absurd catalog⟩
  | clocks _ _ clocked =>
    obtain ⟨cfg, isOpen, busy, device, driver, unlocked, catalog, cmds⟩ := clocked.same
    exact ⟨cfg, cmds, busy, absurd isOpen, absurd device, absurd driver, absurd unlocked, absurd catalog⟩

/-- Settles O18: TCK cycles and scans alone keep the shadow, and DEVICE_BIND only makes it invalid. -/
theorem selectShadowHasItsWriters : Obligations.SelectShadowHasItsWriters := by
  unfold Obligations.SelectShadowHasItsWriters
  intro i s t h needsNot notOpen notSelect
  have kept {u : State} (shadow : KeepsShadow s u) :
      u.selAp = s.selAp ∧ u.selBank = s.selBank ∧ (u.selValid = true → s.selValid = true) :=
    ⟨shadow.selAp, shadow.selBank, shadow.selValid⟩
  cases exec_effect h with
  | opens | opensNot => exact absurd rfl notOpen
  | binds => exact ⟨rfl, rfl, nofun⟩
  | scans _ _ _ shadow => exact kept (shadow needsNot notSelect)
  | locks _ _ writer => rcases writer with rfl | rfl <;> cases needsNot
  | resets clocked => exact kept clocked.shadow
  | clocks _ _ clocked => exact kept clocked.shadow
  | _ => exact ⟨rfl, rfl, id⟩

/-! ### After an error -/

/-- Settles O31: of the instructions that can end in TransportError, all but SESSION_OPEN are then lost. -/
theorem transportErrorState : Obligations.TransportErrorState := by
  unfold Obligations.TransportErrorState
  intro i s t e notOpen h result code
  have lost {u : State} (same : SameBinding u t) (opened : u.isOpen = true) (ends : Lost t) :
      t.tap = .unknown ∧ t.ir = none ∧ t.selValid = false ∧ t.isOpen = true
        ∧ t.device = u.device ∧ t.driver = u.driver ∧ t.catalog = u.catalog :=
    ⟨ends.tap, ends.ir, ends.selValid, same.isOpen.trans opened, same.device, same.driver, same.catalog⟩
  have scannedLost {u : State} (scanned : Scanned u t) : Lost t :=
    scanned.ends.resolve_right fun rested => (rested.error e result).1 code
  have clockedLost {u : State} (clocked : Clocked u t) : Lost t :=
    clocked.ends.resolve_right fun ⟨p, ok⟩ => by simp [ok] at result
  cases exec_effect h with
  | opens | opensNot => exact absurd rfl notOpen
  | closes | binds | detects | finds | adds => cases result
  | bindsNot | detectsNot => cases result; cases code
  | scans _ scanned => exact lost scanned.same scanned.isOpen (scannedLost scanned)
  | locks _ _ _ scanned => exact (lost scanned.same scanned.isOpen (scannedLost scanned) :)
  | resets clocked => exact lost clocked.same clocked.isOpen (clockedLost clocked)
  | clocks _ _ clocked => exact lost clocked.same clocked.isOpen (clockedLost clocked)

/-- Settles O32: only an instruction made of scans can end in ProtocolError, and it is then at rest. -/
theorem protocolErrorState : Obligations.ProtocolErrorState := by
  unfold Obligations.ProtocolErrorState
  intro i s t e h result code
  have notLost : ¬ Lost t := fun ⟨_, _, _, e', other, transport⟩ => by
    obtain rfl : e' = e := by simpa [other] using result
    simp [code] at transport
  have rested {u : State} (scanned : Scanned u t) :
      t.selValid = false ∧ t.tap = .rti ∧ t.isOpen = true ∧ t.device = u.device ∧ t.driver = u.driver
        ∧ t.catalog = u.catalog := by
    have rest := scanned.ends.resolve_left notLost
    exact ⟨(rest.error e result).2 code, rest.tap, scanned.same.isOpen.trans scanned.isOpen, scanned.same.device,
      scanned.same.driver, scanned.same.catalog⟩
  have notClocked {u : State} (clocked : Clocked u t) : False := by
    obtain ⟨p, ok⟩ := clocked.ends.resolve_left notLost
    simp [ok] at result
  cases exec_effect h with
  | opens | closes | binds | detects | finds | adds => cases result
  | opensNot | bindsNot | detectsNot => cases result; cases code
  | scans _ scanned => exact rested scanned
  | locks _ _ _ scanned => exact (rested scanned :)
  | resets clocked => exact (notClocked clocked).elim
  | clocks _ _ clocked => exact (notClocked clocked).elim

/-! ### The invariant between commands -/

/-- The bank of a shadow that names none. -/
theorem bank_zero_low : (0 : Byte) &&& 0x0F#8 = 0 := by decide

/-- Settles O13: nothing is driven, bound or selected, and the position is UNKNOWN. -/
theorem resetMeetsInvariant : Obligations.ResetMeetsInvariant := by
  unfold Obligations.ResetMeetsInvariant
  refine ⟨rfl, fun p => ⟨⟨rfl, .inr rfl, ⟨bank_zero_low, nofun⟩, ⟨nofun, nofun⟩, rfl, nofun⟩, .inr rfl, absurd rfl⟩⟩

section Invariant

variable {s t : State}

/-- Work on the wire that ends lost or in Run-Test/Idle keeps the invariant, when a shadow it leaves valid has a device. -/
theorem WireOnly.inv (wire : WireOnly s t) (inv : s.Inv)
    (ends : Lost t ∨ t.tap = .rti ∧ (t.selValid = true → s.device.isSome = true)) : t.Inv := by
  obtain ⟨idle, -, ⟨bank, -⟩, ⟨named, unlocked⟩, pins, -⟩ := inv
  obtain ⟨new, trace, allowed⟩ := wire.trace
  have driver : t.driverSound := by
    rw [State.driverSound, wire.same.driver, wire.same.device, wire.same.cfg, wire.same.flashUnlocked]
    exact ⟨named, unlocked⟩
  have disciplined : t.pinsDisciplined = true := by
    rw [State.pinsDisciplined, trace, List.all_append, allowed]
    exact pins
  refine ⟨wire.same.busy.trans idle, ?_, ⟨wire.bank bank, ?_⟩, driver, disciplined, ?_⟩
  · exact ends.elim (fun lost => .inr lost.tap) fun rest => .inl rest.1
  · intro valid
    rcases ends with lost | ⟨tap, device⟩
    · simp [lost.selValid] at valid
    · exact ⟨tap, by rw [wire.same.device]; exact device valid⟩
  · intro known
    rcases ends with lost | ⟨tap, -⟩
    · simp [lost.ir] at known
    · exact tap

theorem Effect.inv {i : Instr} (effect : Effect s i t) (isCommand : i.isCommand = true) (inv : s.Inv) : t.Inv := by
  have ⟨idle, rest, ⟨bank, selected⟩, ⟨named, unlocked⟩, pins, ir⟩ := inv
  cases effect with
  | opens => exact ⟨rfl, .inr rfl, ⟨bank_zero_low, nofun⟩, ⟨nofun, nofun⟩, pins, nofun⟩
  | opensNot => exact ⟨rfl, rest, ⟨bank, selected⟩, ⟨named, unlocked⟩, pins, ir⟩
  | closes | bindsNot | finds | adds => exact ⟨idle, rest, ⟨bank, selected⟩, ⟨named, unlocked⟩, pins, ir⟩
  | binds => exact ⟨idle, rest, ⟨bank, nofun⟩, ⟨nofun, nofun⟩, pins, ir⟩
  | detects d bound fits => exact ⟨idle, rest, ⟨bank, selected⟩, ⟨fun _ => ⟨d, bound, fits⟩, nofun⟩, pins, ir⟩
  | detectsNot => exact ⟨idle, rest, ⟨bank, selected⟩, ⟨nofun, nofun⟩, pins, ir⟩
  | scans _ scanned device shadow =>
    refine scanned.inv inv (scanned.ends.imp_right fun rested => ⟨rested.tap, fun valid => ?_⟩)
    cases needs : needsDevice i with
    | true => exact device needs
    | false =>
      have notSelect : ∀ data, i ≠ .dpSelectWrite data := by rintro data rfl; cases isCommand
      exact (selected ((shadow needs notSelect).selValid valid)).2
  | locks _ b _ scanned device driver =>
    have inv' : State.Inv { s with flashUnlocked := b } :=
      ⟨idle, rest, ⟨bank, selected⟩, ⟨named, driver⟩, pins, ir⟩
    exact scanned.inv inv' (scanned.ends.imp_right fun rested => ⟨rested.tap, fun _ => device⟩)
  | resets clocked ends =>
    refine clocked.inv inv (ends.imp_right fun ⟨tap, _, invalid, _⟩ => ⟨tap, fun valid => ?_⟩)
    simp [invalid] at valid
  | clocks _ row => simp [isCommand] at row

end Invariant

/-- Settles O11: every effect of a host command keeps the invariant. -/
theorem stepKeepsInvariant : Obligations.StepKeepsInvariant := by
  unfold Obligations.StepKeepsInvariant
  intro s t inv h
  rcases step_next h with rfl | ⟨i, later, isCommand, effect⟩
  · exact inv
  · exact effect.inv isCommand inv

/-! ### The TAP mirror -/

/-- Settles O22: sixteen positions, evaluated. -/
theorem fiveHighPulsesReachReset : Obligations.FiveHighPulsesReachReset := by
  unfold Obligations.FiveHighPulsesReachReset
  intro q known
  cases q with
  | unknown => exact absurd rfl known
  | _ => exact ⟨rfl, rfl⟩

section Mirror

variable {s t : State}

theorem TapState.next_ne_unknown {q : TapState} (known : q ≠ .unknown) (tms : Bool) : q.next tms ≠ .unknown := by
  cases q with
  | unknown => exact absurd rfl known
  | _ => cases tms <;> decide

theorem tapAfter_ne_unknown {q : TapState} (known : q ≠ .unknown) (ys : List Symbol) : tapAfter q ys ≠ .unknown := by
  induction ys generalizing q with
  | nil => exact known
  | cons y ys ih => exact ih (TapState.next_ne_unknown known y.tms)

/-- An instruction that came back to Run-Test/Idle took the target along (40_tap.md R154). -/
theorem Scanned.mirrorRight (scanned : Scanned s t) (right : s.mirrorRight) : t.tapAtRest ∧ t.mirrorRight := by
  rcases scanned.ends with lost | rested
  · exact ⟨.inr lost.tap, fun claims => absurd lost.tap claims⟩
  · refine ⟨.inl rested.tap, fun _ q known => ?_⟩
    obtain ⟨ys, sent, back⟩ := rested.sent
    have before : tapAfter q (symbols s.trace) = .rti := scanned.start ▸ right (by simp [scanned.start]) q known
    rw [sent, tapAfter_append, before, back, rested.tap]

theorem Effect.mirrorRight {i : Instr} (effect : Effect s i t) (isCommand : i.isCommand = true) (rest : s.tapAtRest)
    (right : s.mirrorRight) : t.tapAtRest ∧ t.mirrorRight := by
  cases effect with
  | opens => exact ⟨.inr rfl, absurd rfl⟩
  | scans _ scanned => exact scanned.mirrorRight right
  | locks _ _ _ scanned => exact scanned.mirrorRight right
  | resets _ ends =>
    rcases ends with lost | ⟨tap, -, -, sent⟩
    · exact ⟨.inr lost.tap, fun claims => absurd lost.tap claims⟩
    · refine ⟨.inl tap, fun _ q known => ?_⟩
      have reset := (fiveHighPulsesReachReset _ (tapAfter_ne_unknown known (symbols s.trace))).2
      rw [sent, tapAfter_append, reset, tap]
  | clocks _ row => simp [isCommand] at row
  | _ => exact ⟨rest, right⟩

end Mirror

/-- Settles O14: a host command comes back to Run-Test/Idle with the target or claims no position; SESSION_OPEN and the commands without scans issue no clock. -/
theorem stepKeepsMirrorRight : Obligations.StepKeepsMirrorRight := by
  unfold Obligations.StepKeepsMirrorRight
  intro s t rest right h
  rcases step_next h with rfl | ⟨i, later, isCommand, effect⟩
  · exact ⟨rest, right⟩
  · exact effect.mirrorRight isCommand rest right

end Sys2Proof.Machine

/-! The TAP commands under a working transport (40_tap.md R147 to R156): one lemma per command says what it leaves, and the statements read it off. -/

namespace Sys2Proof.Machine

/-! ### How an instruction that is performed ends -/

section Ends

variable {s u : State} {needsOpen : Bool} {check : State → Option Refusal} {body : State → Res Payload}

theorem command_ok {p : Payload} (idle : s.busy = false) (opened : s.isOpen = true) (pass : check s = none)
    (run : body { s with busy := true } = .ok p u) :
    command needsOpen check body s = .next { u with result := some (.ok p), busy := false } := by
  rw [command_run idle (fun _ => opened) pass, run]
  rfl

theorem command_raise {e : ErrorRecord} (idle : s.busy = false) (opened : s.isOpen = true) (pass : check s = none)
    (run : body { s with busy := true } = .raise e u) :
    command needsOpen check body s = .next { u.enterError e with busy := false } := by
  rw [command_run idle (fun _ => opened) pass, run]
  rfl

theorem internalStep_ok {p : Payload} (opened : s.isOpen = true) (pass : check s = none) (run : body s = .ok p u) :
    internalStep check body s = .next { u with result := some (.ok p) } := by
  rw [internalStep_run opened pass, run]

theorem internalStep_raise {e : ErrorRecord} (opened : s.isOpen = true) (pass : check s = none)
    (run : body s = .raise e u) : internalStep check body s = .next (u.enterError e) := by
  rw [internalStep_run opened pass, run]

theorem SameBinding.ofBusy {t : State} (same : SameBinding { s with busy := true } t) (idle : s.busy = false) :
    SameBinding s { t with busy := false } :=
  { same with busy := idle.symm }

end Ends

/-! ### Counting pin operations (40_tap.md R156) -/

section Counts

variable {s t : State}

theorem opTotal_append (xs ys : List Cycle) : opTotal (xs ++ ys) = opTotal xs + opTotal ys := by
  simp [opTotal]

theorem opTotal_cyclesOf (sample : Bool) (ys : List Symbol) :
    opTotal (cyclesOf sample ys) = (6 + sample.toNat) * ys.length := by
  simp [opTotal, cyclesOf, Function.comp_def, Cycle.opCount, Nat.mul_comm]

theorem opTotal_irCycles (bits : Bits) : opTotal (irCycles bits) = 6 * (bits.length + 6) := by
  simp [irCycles, irSymbols, opTotal_cyclesOf, bodySymbols_length, lowSymbols, tmsIrEntry, tmsScanExit]

theorem opTotal_drCycles (bits : Bits) : opTotal (drCycles bits) = 6 * (bits.length + 5) + bits.length := by
  simp [drCycles, opTotal_append, opTotal_cyclesOf, bodySymbols_length, lowSymbols, tmsDrEntry, tmsScanExit]
  omega

/-! ### What a scan or a reset that is performed has sent -/

theorem cyclesOf_unsampled (ys : List Symbol) : ∀ c ∈ cyclesOf false ys, c.sample = false := by
  simp only [cyclesOf, List.mem_map, forall_exists_index, and_imp]
  rintro c y - rfl
  rfl

theorem scanIr_ok {bits : Bits} {a : Unit} (h : scanIr bits s = .ok a t) :
    Sent s t (irSymbols bits) ∧ t.trace.length = s.trace.length + 6 * (bits.length + 6) ∧ t.tdo = s.tdo := by
  obtain ⟨out, u, run, ends⟩ := Res.bind_eq_ok.1 h
  obtain rfl : { u with ir := some bits } = t := by simpa using ends
  obtain ⟨-, -, sent, count⟩ := runCycles_ok run
  rw [irCycles_symbols] at sent
  exact ⟨sent, opTotal_irCycles bits ▸ count, (runCycles_unsampled (cyclesOf_unsampled _) run).1⟩

theorem scanDr_ok {bits out : Bits} (h : scanDr bits s = .ok out t) :
    Sent s t (drSymbols bits) ∧ t.trace.length = s.trace.length + (6 * (bits.length + 5) + bits.length) := by
  obtain ⟨-, -, sent, count⟩ := runCycles_ok h
  exact ⟨drCycles_symbols bits ▸ sent, opTotal_drCycles bits ▸ count⟩

/-- What a TAP reset that is performed leaves (40_tap.md R147). -/
structure TapReset (s t : State) : Prop where
  link : t.link = .working
  tap : t.tap = .rti
  sent : Sent s t (lowSymbols tmsTapReset)
  count : t.trace.length = s.trace.length + 36
  pinTck : t.pinTck = some true
  pinTms : t.pinTms = some false
  pinTdi : t.pinTdi = some false
  tdo : t.tdo = s.tdo
  samples : t.samples = s.samples
  ir : t.ir = s.ir
  shadow : SameShadow s t
  same : SameBinding s t

theorem resetCycles_working (working : s.link = .working) : ∃ t, resetCycles s = .ok () t ∧ TapReset s t := by
  obtain ⟨u, high, workingU, -⟩ := runCycles_working (cyclesOf false (lowSymbols (tmsTapReset.take 5))) working
  obtain ⟨t, low, workingT, -⟩ :=
    runCycles_working (s := { u with tap := .tlr }) (cyclesOf false (lowSymbols (tmsTapReset.drop 5))) workingU
  obtain ⟨pinsU, -, sentU, countU⟩ := runCycles_ok high
  obtain ⟨pinsT, tapT, sentT, countT⟩ := runCycles_ok low
  obtain ⟨tdoU, samplesU, -⟩ := runCycles_unsampled (cyclesOf_unsampled _) high
  obtain ⟨tdoT, samplesT, -⟩ := runCycles_unsampled (cyclesOf_unsampled _) low
  obtain ⟨tck, tms, tdi⟩ := runCycles_append_pins (cs := []) (c := ⟨false, false, false⟩) low
  rw [cyclesOf_symbols] at tapT sentT sentU
  rw [opTotal_cyclesOf] at countT countU
  have sent : Sent u t (lowSymbols (tmsTapReset.drop 5)) := sentT
  have same : SameBinding u t := { pinsT.same with }
  have shadow : SameShadow u t := { pinsT.shadow with }
  refine ⟨t, by simp only [resetCycles, high, low, Res.bind_ok], workingT, tapT, sentU.trans sent, ?_, tck, tms, tdi,
    tdoT.trans tdoU, samplesT.trans samplesU, pinsT.ir.trans pinsU.ir, pinsU.shadow.trans shadow, pinsU.same.trans same⟩
  exact countT.trans (congrArg (· + 6) countU)

end Counts

/-! ### The TAP commands -/

section TapCommands

variable {s : State}

theorem execTapReset_working (ready : SessionReady s) :
    ∃ u, TapReset { s with busy := true } u
      ∧ execTapReset s
        = .next { u with ir := none, selValid := false, result := some (.ok .empty), busy := false } := by
  obtain ⟨u, run, reset⟩ := resetCycles_working (s := { s with busy := true }) ready.link
  refine ⟨u, reset, ?_⟩
  rw [execTapReset]
  exact command_ok (u := { u with ir := none, selValid := false }) ready.busy ready.isOpen rfl (by rw [run]; rfl)

/-- Settles O24: the reset sequence leads to Run-Test/Idle from every position, and the command forgets the IR and the selection. -/
theorem tapResetCompletes : Obligations.TapResetCompletes := by
  unfold Obligations.TapResetCompletes
  intro s ready
  obtain ⟨u, reset, run⟩ := execTapReset_working ready
  exact ⟨_, run, rfl, reset.tap, rfl, rfl, reset.sent, reset.pinTck, reset.pinTms, reset.pinTdi, reset.tdo,
    reset.shadow.selAp, reset.shadow.selBank, { reset.same.ofBusy ready.busy with }⟩

theorem execShiftIr_working {bits : Bits} (ready : ScanReady s) (nonempty : bits ≠ []) :
    ∃ u, scanIr bits { s with busy := true } = .ok () u
      ∧ execShiftIr bits s = .next { u with result := some (.ok .empty), busy := false } := by
  obtain ⟨u, run, -⟩ := scanIr_working (s := { s with busy := true }) nonempty ready.link ready.tap
  have pass : shiftCheck bits.length s = none := shiftCheck_none.2 ⟨by simpa using nonempty, ready.tap⟩
  refine ⟨u, run, ?_⟩
  rw [execShiftIr]
  exact command_ok ready.busy ready.isOpen pass (by rw [run]; rfl)

/-- Settles O25: the command is one IR scan, which samples nothing. -/
theorem shiftIrCompletes : Obligations.ShiftIrCompletes := by
  unfold Obligations.ShiftIrCompletes
  intro s bits ready nonempty
  obtain ⟨u, scan, run⟩ := execShiftIr_working ready nonempty
  obtain ⟨u', scan', ran, ir, shadow⟩ := scanIr_working (s := { s with busy := true }) nonempty ready.link ready.tap
  obtain rfl : u = u' := by simpa [scan] using scan'
  obtain ⟨sent, -, tdo⟩ := scanIr_ok scan
  exact ⟨_, run, rfl, ir, ran.tap, sent, ran.sentScans, tdo, { shadow with }, { ran.same.ofBusy ready.busy with }⟩

theorem shiftTdi_length (src : DrSource) : (shiftTdi src).length = shiftLen src := by
  cases src <;> simp [shiftTdi, shiftLen, zeros]

theorem execShiftDr_working {src : DrSource} (ready : ScanReady s) (positive : 1 ≤ shiftLen src) :
    ∃ u, scanDr (shiftTdi src) { s with busy := true } = .ok (s.tdoBits (shiftLen src)) u
      ∧ Ran { s with busy := true } u (shiftLen src) [.dr (shiftTdi src)] ∧ u.ir = s.ir
      ∧ SameShadow { s with busy := true } u
      ∧ execShiftDr src s
        = .next { u with result := some (.ok (.bits (s.tdoBits (shiftLen src)))), busy := false } := by
  have nonempty : shiftTdi src ≠ [] := shiftBits_ne_nil (by omega)
  obtain ⟨u, run, ran, ir, shadow⟩ := scanDr_working (s := { s with busy := true }) nonempty ready.link ready.tap
  rw [shiftTdi_length] at run ran
  have pass : shiftCheck (shiftLen src) s = none := shiftCheck_none.2 ⟨by omega, ready.tap⟩
  refine ⟨u, run, ran, ir, shadow, ?_⟩
  rw [execShiftDr]
  exact command_ok ready.busy ready.isOpen pass (by rw [run]; rfl)

/-- Settles O26: the command is one DR scan of its bits or of zeros. -/
theorem shiftDrCompletes : Obligations.ShiftDrCompletes := by
  unfold Obligations.ShiftDrCompletes
  intro s src ready positive
  obtain ⟨u, scan, ran, ir, shadow, run⟩ := execShiftDr_working ready positive
  have sent := (scanDr_ok scan).1
  refine ⟨_, run, rfl, by simp [State.tdoBits], ran.tap, ir, ?_, ran.tdo, { shadow with },
    { ran.same.ofBusy ready.busy with }⟩
  cases src <;> exact sent

theorem sentinel_iff {v : Word} : sentinel v = true ↔ v = 0#32 ∨ v = 0xFFFFFFFF#32 := by
  simp [sentinel]

theorem irBits_bypass : irBits irBypassCode = List.replicate 8 true := by decide

/-- The answer of READ_IDCODE to the sampled word (40_tap.md R152). -/
def idcodeResult (v : Word) : CommandResult :=
  if v = 0#32 ∨ v = 0xFFFFFFFF#32 then .error (noDeviceError v) else .ok (.word v)

/-- What the two scans of READ_IDCODE leave (40_tap.md R152, R156). -/
structure IdcodeRead (s u : State) : Prop where
  ran : Ran s u 32 [.ir (List.replicate 8 true), .dr (List.replicate 32 false)]
  ir : u.ir = some (List.replicate 8 true)
  shadow : SameShadow s u
  sent : Sent s u (irSymbols (List.replicate 8 true) ++ drSymbols (List.replicate 32 false))
  count : u.trace.length = s.trace.length + 338

theorem State.tdoBits_congr {t : State} (same : ∀ k, t.tdoBit k = s.tdoBit k) (n : Nat) : t.tdoBits n = s.tdoBits n :=
  congrArg (List.map · (List.range n)) (funext same)

theorem idcodeScans_working (working : s.link = .working) (tap : s.tap = .rti) :
    ∃ u v, scanIr (irBits irBypassCode) s = .ok () u ∧ scanDr (zeros idcodeLen) u = .ok (s.tdoBits 32) v
      ∧ IdcodeRead s v := by
  obtain ⟨u, bypass, ranU, irU, shadowU⟩ := scanIr_working (irBits_ne_nil irBypassCode) working tap
  obtain ⟨v, read, ranV, irV, shadowV⟩ := scanDr_working (tdi := zeros idcodeLen) (by decide) ranU.link ranU.tap
  have levels : u.tdoBits 32 = s.tdoBits 32 := State.tdoBits_congr (fun k => by rw [ranU.tdo, Nat.zero_add]) 32
  obtain ⟨sentU, countU, -⟩ := scanIr_ok bypass
  obtain ⟨sentV, countV⟩ := scanDr_ok read
  rw [irBits_bypass] at ranU irU sentU countU
  exact ⟨u, v, bypass, levels ▸ read, ranU.trans ranV, irV.trans irU, shadowU.trans shadowV, sentU.trans sentV, by
    simp [countV, countU, zeros, idcodeLen]⟩

/-- A NoDeviceError updates nothing but the result (60_exceptions.md R308), so both answers leave the same state. -/
theorem execReadIdcode_working (ready : ScanReady s) :
    ∃ u, IdcodeRead { s with busy := true } u
      ∧ execReadIdcode s
        = .next { u with result := some (idcodeResult (BitVec.ofNat 32 (value (s.tdoBits 32)))), busy := false } := by
  obtain ⟨w, u, bypass, read, done⟩ := idcodeScans_working (s := { s with busy := true }) ready.link ready.tap
  refine ⟨u, done, ?_⟩
  have levels : State.tdoBits { s with busy := true } 32 = s.tdoBits 32 := rfl
  rw [levels] at read
  have pass : tapCheck s = none := tapCheck_none.2 ready.tap
  rw [execReadIdcode]
  by_cases none : sentinel (BitVec.ofNat 32 (value (s.tdoBits 32))) = true
  · rw [idcodeResult, if_pos (sentinel_iff.1 none)]
    refine command_raise (e := noDeviceError _) (u := u) ready.busy ready.isOpen pass ?_
    rw [bypass, Res.bind_ok, read, Res.bind_ok, if_pos none]
  · rw [idcodeResult, if_neg (mt sentinel_iff.2 none)]
    refine command_ok (u := u) ready.busy ready.isOpen pass ?_
    rw [bypass, Res.bind_ok, read, Res.bind_ok, if_neg none]

/-- Settles O27: the two scans, and the answer to the word they sampled. -/
theorem readIdcodeCompletes : Obligations.ReadIdcodeCompletes := by
  unfold Obligations.ReadIdcodeCompletes
  intro s ready v
  obtain ⟨u, done, run⟩ := execReadIdcode_working ready
  exact ⟨_, run, rfl, done.ir, done.ran.tap, done.ran.sentScans, { done.shadow with },
    { done.ran.same.ofBusy ready.busy with }⟩

/-- Settles O28: six operations a cycle, and one more for each sample. -/
theorem scanPinOperationCounts : Obligations.ScanPinOperationCounts := by
  unfold Obligations.ScanPinOperationCounts
  intro s bits ready nonempty
  have positive : 1 ≤ shiftLen (.bits bits) := List.length_pos_iff.2 nonempty
  obtain ⟨u1, reset, run1⟩ := execTapReset_working ready.toSessionReady
  obtain ⟨u2, scan2, run2⟩ := execShiftIr_working ready nonempty
  obtain ⟨u3, scan3, -, -, -, run3⟩ := execShiftDr_working ready positive
  obtain ⟨u4, done, run4⟩ := execReadIdcode_working ready
  exact ⟨⟨_, run1, reset.count⟩, ⟨_, run2, (scanIr_ok scan2).2.1⟩, ⟨_, run3, (scanDr_ok scan3).2⟩, ⟨_, run4, done.count⟩⟩

end TapCommands

end Sys2Proof.Machine

/-! The refusals of the commands that need a device, a driver, the unlock or a known position (40_tap.md R145; 41_dap.md R181; 42_flash.md R231). -/

namespace Sys2Proof.Machine

section Refusals

variable {s : State} {r : Refusal}

theorem orElse_of_some {a b : Option Refusal} (refuses : a = some r) : orElse a b = some r := by
  rw [refuses]; rfl

theorem tapCheck_of_unknown (unknown : s.tap = .unknown) : tapCheck s = some .tapUnknown :=
  if_neg (by simp [unknown])

theorem shiftCheck_of_zero {len : Nat} (zero : len = 0) : shiftCheck len s = some .zeroLen :=
  orElse_of_some (if_pos zero)

theorem shiftCheck_of_unknown {len : Nat} (positive : len ≠ 0) (unknown : s.tap = .unknown) :
    shiftCheck len s = some .tapUnknown := by
  rw [shiftCheck, orElse_of_none (if_neg positive), tapCheck_of_unknown unknown]

theorem dapCheck_of_unbound (unbound : s.device = none) : dapCheck s = some .notBound :=
  orElse_of_some (if_pos unbound)

theorem dapCheck_of_unknown (bound : s.device.isSome = true) (unknown : s.tap = .unknown) :
    dapCheck s = some .tapUnknown := by
  have device : ¬ s.device = none := Option.isSome_iff_ne_none.1 bound
  rw [dapCheck, orElse_of_none (if_neg device), tapCheck_of_unknown unknown]

theorem flashCheck_of_no_driver {unlock : Bool} (bound : s.device.isSome = true) (tap : s.tap = .rti)
    (noDriver : s.driver = none) : flashCheck unlock s = some .noDriver := by
  rw [flashCheck, orElse_of_none (dapCheck_none.2 ⟨bound, tap⟩), noDriver]
  rfl

theorem flashCheck_of_locked (bound : s.device.isSome = true) (tap : s.tap = .rti) (driver : s.driver = some .ref)
    (locked : s.flashUnlocked = false) : flashCheck true s = some .locked := by
  rw [flashCheck, orElse_of_none (dapCheck_none.2 ⟨bound, tap⟩), orElse_of_none (if_pos driver), locked]
  rfl

/-- Every command that needs a device is refused what the DAP precondition refuses (41_dap.md R181). -/
theorem exec_of_dapCheck {i : Instr} (needs : needsDevice i = true) (idle : s.busy = false) (opened : s.isOpen = true)
    (refuses : dapCheck s = some r) : exec i s = .refused r := by
  cases i with
  | selectAp | apTransfer | coreHalt | coreResume | coreReset =>
    simp only [exec]
    exact command_of_check idle opened refuses
  | readMemory | writeMemory =>
    simp only [exec]
    exact command_of_check idle opened (orElse_of_some refuses)
  | flashInit | flashStatus =>
    simp only [exec]
    exact command_of_check idle opened (orElse_of_some refuses)
  | flashErase | flashProgram | flashVerify =>
    simp only [exec]
    exact command_of_check idle opened (orElse_of_some (orElse_of_some refuses))
  | _ => cases needs

/-- Every command that needs a driver is refused what the flash precondition refuses (42_flash.md R231). -/
theorem exec_of_flashCheck {i : Instr} (needs : needsDriver i = true) (idle : s.busy = false) (opened : s.isOpen = true)
    (refuses : flashCheck (needsUnlock i) s = some r) : exec i s = .refused r := by
  cases i with
  | flashInit | flashStatus =>
    simp only [exec]
    exact command_of_check idle opened refuses
  | flashErase | flashProgram | flashVerify =>
    simp only [exec]
    exact command_of_check idle opened (orElse_of_some refuses)
  | _ => cases needs

theorem needsDriver_of_needsUnlock {i : Instr} (needs : needsUnlock i = true) : needsDriver i = true := by
  cases i with
  | flashErase | flashProgram => rfl
  | _ => cases needs

end Refusals

/-- Settles O29: the length is checked before the position, and both before any pin operation. -/
theorem scanRefusals : Obligations.ScanRefusals := by
  unfold Obligations.ScanRefusals
  intro s idle opened
  refine ⟨?_, fun src zero => ?_, fun unknown => ⟨?_, ?_, ?_, ?_⟩⟩
  · simp only [exec]
    exact command_of_check idle opened (shiftCheck_of_zero rfl)
  · simp only [exec]
    exact command_of_check idle opened (shiftCheck_of_zero zero)
  · intro bits nonempty
    simp only [exec]
    exact command_of_check idle opened (shiftCheck_of_unknown (by simpa using nonempty) unknown)
  · intro src positive
    simp only [exec]
    exact command_of_check idle opened (shiftCheck_of_unknown positive unknown)
  · simp only [exec]
    exact command_of_check idle opened (tapCheck_of_unknown unknown)
  · intro i needs bound
    exact exec_of_dapCheck needs idle opened (dapCheck_of_unknown bound unknown)

/-- Settles O41: the three preconditions in the order the checks have. -/
theorem bindingRefusals : Obligations.BindingRefusals := by
  unfold Obligations.BindingRefusals
  intro s i idle opened
  refine ⟨fun needs unbound => ?_, fun needs bound tap noDriver => ?_, fun needs bound tap driver locked => ?_⟩
  · rcases needs with needs | rfl
    · exact exec_of_dapCheck needs idle opened (dapCheck_of_unbound unbound)
    · exact execFlashDetect_of_unbound idle opened unbound
  · exact exec_of_flashCheck needs idle opened (flashCheck_of_no_driver bound tap noDriver)
  · exact exec_of_flashCheck (needsDriver_of_needsUnlock needs) idle opened
      (needs ▸ flashCheck_of_locked bound tap driver locked)

end Sys2Proof.Machine

/-! An error is precise (60_exceptions.md R310): what a step costs in pin operations, and where it stops when the transport fails one of them. -/

namespace Sys2Proof.Machine

section Precision

variable {α β : Type} {s t u : State}

/-- Between `s` and `t` exactly `n` operations were issued, and none failed. -/
def Performed (s t : State) (n : Nat) : Prop :=
  ∃ earlier, t.trace = earlier ++ s.trace ∧ earlier.length = n ∧ ∀ e ∈ earlier, e.answer ≠ .failed

theorem Performed.refl (s : State) : Performed s s 0 := ⟨[], rfl, rfl, nofun⟩

theorem Performed.trans {m n : Nat} (h : Performed s t m) (k : Performed t u n) : Performed s u (m + n) := by
  obtain ⟨xs, hx, rfl, noX⟩ := h
  obtain ⟨ys, hy, rfl, noY⟩ := k
  refine ⟨ys ++ xs, by rw [hy, hx, List.append_assoc], by rw [List.length_append, Nat.add_comm], fun e he => ?_⟩
  exact (List.mem_append.1 he).elim (noY e) (noX e)

/-- The step takes `k` operations: with fewer to come before a failure it stops at the failing one. -/
def Res.Costs (s : State) (k : Nat) (r : Res α) : Prop :=
  ∀ n rest, s.link = .failsAfter n rest →
    (k ≤ n ∧ ∃ a t, r = .ok a t ∧ t.link = .failsAfter (n - k) rest ∧ Performed s t k)
      ∨ (n < k ∧ ∃ t u op, r = .raise transportError t ∧ t.link = rest ∧ Performed s u n ∧ t.trace = ⟨op, .failed⟩ :: u.trace)

theorem Res.Costs.free (a : α) (link : t.link = s.link) (trace : t.trace = s.trace) : (Res.ok a t).Costs s 0 :=
  fun n _ h => .inl ⟨n.zero_le, a, t, rfl, link.trans h, [], trace, rfl, nofun⟩

theorem Res.Costs.bind {k m : Nat} {r : Res α} {f : α → State → Res β} (h : r.Costs s k) (hf : ∀ a t, (f a t).Costs t m) :
    (r.bind f).Costs s (k + m) := by
  intro n rest link
  rcases h n rest link with ⟨enough, a, t, rfl, linkT, done⟩ | ⟨short, t, u, op, rfl, linkT, done, trace⟩
  · rcases hf a t _ _ linkT with ⟨enough', b, v, run, linkV, done'⟩ | ⟨short', v, u, op, run, linkV, done', trace⟩
    · exact .inl ⟨by omega, b, v, run, by rwa [Nat.sub_sub] at linkV, done.trans done'⟩
    · refine .inr ⟨by omega, v, u, op, run, linkV, ?_, trace⟩
      have all := done.trans done'
      rwa [Nat.add_sub_cancel' enough] at all
  · exact .inr ⟨by omega, t, u, op, rfl, linkT, done, trace⟩

theorem Res.Costs.cast {k m : Nat} {r : Res α} (h : r.Costs s k) (same : k = m) : r.Costs s m := same ▸ h

theorem pinOp_costs (op : PinOp) (s : State) : (pinOp op s).Costs s 1 := by
  intro n rest link
  cases n with
  | zero =>
    exact .inr ⟨by omega, s.advance.record op .failed, s, op, pinOp_failing op (by rw [link]; rfl), by simp [link, Link.next],
      .refl s, rfl⟩
  | succ n =>
    exact .inl ⟨by omega, (), s.advance.record op .done, pinOp_performed op (by rw [link]; rfl), by simp [link, Link.next],
      [⟨op, .done⟩], rfl, rfl, by simp⟩

theorem setPin_costs (p : Pin) (l : Bool) (s : State) : (setPin p l s).Costs s 1 :=
  (pinOp_costs _ s).bind fun _ t => .free () (State.driven_link t p l) (State.driven_trace t p l)

theorem getTdo_costs (s : State) : (getTdo s).Costs s 1 := by
  intro n rest link
  cases n with
  | zero =>
    exact .inr ⟨by omega, s.advance.record (.getPin .tdo) .failed, s, .getPin .tdo, by simp [getTdo, link, Link.next],
      by simp [link, Link.next], .refl s, rfl⟩
  | succ n =>
    exact .inl ⟨by omega, s.tdoBit 0, (s.advance.record (.getPin .tdo) (.level (s.tdoBit 0))).sampled,
      by simp [getTdo, link, Link.next], by simp [link, Link.next], [⟨.getPin .tdo, .level (s.tdoBit 0)⟩], rfl, rfl,
      by simp⟩

theorem sampleTdo_costs (sample : Bool) (s : State) : (sampleTdo sample s).Costs s sample.toNat := by
  cases sample with
  | false => exact .free false rfl rfl
  | true => exact getTdo_costs s

/-- A cycle takes six operations, or seven with a sample (40_tap.md R146). -/
theorem clock_costs (c : Cycle) (s : State) : (clock c s).Costs s c.opCount := by
  have hold (u : State) : (delay u.cfg.tckHalfPeriodUs (u.clocked c.tms)).Costs u 1 := pinOp_costs _ (u.clocked c.tms)
  refine Res.Costs.cast ((setPin_costs .tck false s).bind fun _ s => (setPin_costs .tms c.tms s).bind fun _ s =>
    (setPin_costs .tdi c.tdi s).bind fun _ s => (pinOp_costs (.delay s.cfg.tckHalfPeriodUs) s).bind fun _ s =>
    (sampleTdo_costs c.sample s).bind fun b s => (setPin_costs .tck true s).bind fun _ s =>
    (hold s).bind fun _ _ => .free b rfl rfl) ?_
  simp only [Cycle.opCount]
  omega

theorem runCycles_costs (cs : List Cycle) (s : State) : (runCycles cs s).Costs s (opTotal cs) := by
  induction cs generalizing s with
  | nil => exact .free [] rfl rfl
  | cons c cs ih =>
    refine Res.Costs.cast ((clock_costs c s).bind fun b t => (ih t).bind fun out u => .free _ rfl rfl) ?_
    simp [opTotal]

theorem scanIr_costs (bits : Bits) (s : State) : (scanIr bits s).Costs s (6 * (bits.length + 6)) := by
  rw [← opTotal_irCycles, scanIr]
  refine (runCycles_costs (irCycles bits) s).bind (m := 0) fun _ t => ?_
  exact .free () rfl rfl

end Precision

/-- Settles O30: the scan costs more operations than the transport performs, so it stops at the failing one. -/
theorem transportFailureIsPrecise : Obligations.TransportFailureIsPrecise := by
  unfold Obligations.TransportFailureIsPrecise
  intro s bits n rest idle opened tap nonempty link short
  rcases scanIr_costs bits { s with busy := true } n rest link with
    ⟨enough, -⟩ | ⟨-, t, u, op, run, linkT, ⟨earlier, trace, length, performed⟩, last⟩
  · omega
  have visits := scanIr_visits nonempty { s with busy := true }
  rw [run] at visits
  have pass : shiftCheck bits.length s = none := shiftCheck_none.2 ⟨by simpa using nonempty, tap⟩
  have stops : execShiftIr bits s = .next { t.enterError transportError with busy := false } := by
    rw [execShiftIr]
    exact command_raise idle opened pass (by rw [run]; rfl)
  exact ⟨_, stops, rfl, linkT, rfl, rfl, rfl, { visits.1.same.ofBusy idle with }, op, earlier, by rw [← trace]; exact last,
    length, performed⟩

end Sys2Proof.Machine

/-! The scan expansion (30_encoding.md R133) and the IR and TMS rows run alone (R110, R111; log entry 8). -/

namespace Sys2Proof.Machine

section Expansion

variable {s t : State} {i : Instr} {k : State → Outcome}

theorem issue_of_next (run : exec i s = .next t) (succeeds : t.failed = false) : issue i k s = k t := by
  simp [issue, run, succeeds]

theorem issue_of_failed (run : exec i s = .next t) (fails : t.failed = true) : issue i k s = .next t := by
  simp [issue, run, fails]

theorem catalogLookup_congr (same : t.catalog = s.catalog) (idcode : Word) :
    catalogLookup t idcode = catalogLookup s idcode := by
  rw [catalogLookup, same, catalogLookup]

/-- What the scan expansion answers to the sampled word (30_encoding.md R133). -/
def scanResult (s : State) (v : Word) : CommandResult :=
  if v = 0#32 ∨ v = 0xFFFFFFFF#32 then .error (noDeviceError v)
  else .ok (.found ((catalogLookup s v).map Prod.fst))

/-- When the session opens and the TAP is reset, READ_IDCODE's error stops the expansion, and its word is looked up. -/
theorem runPseudo_scan {t0 t1 u : State} {v : Word} (opens : exec .sessionOpen s = .next t0) (opened : t0.failed = false)
    (resets : exec .tapReset t0 = .next t1) (reset : t1.failed = false) (reads : exec .readIdcode t1 = .next u)
    (idle : u.busy = false) (result : u.result = some (idcodeResult v)) :
    runPseudo .scan s = .next { u with result := some (scanResult u v) } := by
  rw [runPseudo, identify, issue_of_next opens opened, issue_of_next resets reset]
  by_cases none : v = 0#32 ∨ v = 0xFFFFFFFF#32
  · rw [idcodeResult, if_pos none] at result
    rw [issue_of_failed reads (by rw [State.failed, result]), scanResult, if_pos none, ← result]
  · rw [idcodeResult, if_neg none] at result
    rw [issue_of_next reads (by rw [State.failed, result]), scanResult, if_neg none]
    simp only [result]
    exact issue_of_next (execCatalogFind_of_idle v idle) rfl

end Expansion

/-- Settles O45: three commands run one after another, each from the state the one before leaves, and the answer to the word. -/
theorem scanExpansionIdentifies : Obligations.ScanExpansionIdentifies := by
  unfold Obligations.ScanExpansionIdentifies
  intro s idle closed working v
  let t0 : State := { (s.advance.record .openLink .done).openSession with result := some (.ok .empty), busy := false }
  have open0 : exec .sessionOpen s = .next t0 := execSessionOpen_performed idle closed (by rw [working]; rfl)
  have ready0 : SessionReady t0 := ⟨rfl, rfl, State.advance_link_working working⟩
  obtain ⟨u1, reset, run1⟩ := execTapReset_working ready0
  let t1 : State := { u1 with ir := none, selValid := false, result := some (.ok .empty), busy := false }
  have ready1 : ScanReady t1 := ⟨⟨rfl, reset.same.isOpen, reset.link⟩, reset.tap⟩
  obtain ⟨u2, read, run2⟩ := execReadIdcode_working ready1
  have levels : t1.tdoBits 32 = s.tdoBits 32 :=
    State.tdoBits_congr (State.tdoBit_congr reset.tdo reset.samples) 32
  rw [levels] at run2
  let t2 : State := { u2 with result := some (idcodeResult v), busy := false }
  have catalog : t2.catalog = s.catalog := read.ran.same.catalog.trans reset.same.catalog
  have scan : runPseudo .scan s = .next { t2 with result := some (scanResult t2 v) } :=
    runPseudo_scan open0 rfl (t1 := t1) run1 rfl (u := t2) run2 rfl rfl
  refine ⟨_, scan, ?_, read.ran.tap, ?_, ?_, ?_⟩
  · exact read.ran.same.isOpen.trans reset.same.isOpen
  · exact read.ran.same.device.trans reset.same.device
  · rw [scanResult, catalogLookup_congr catalog]
    rfl
  · rw [List.append_assoc]
    exact reset.sent.trans read.sent

/-! ### The rows run alone -/

section Rows

variable {s : State}

theorem irStep_working (code : Byte) (opened : s.isOpen = true) (working : s.link = .working) (tap : s.tap = .rti) :
    ∃ u, irStep code s = .next { u with result := some (.ok .empty) } ∧ scanIr (irBits code) s = .ok () u
      ∧ Ran s u 0 [.ir (irBits code)] ∧ u.ir = some (irBits code) ∧ SameShadow s u := by
  obtain ⟨u, run, ran, ir, shadow⟩ := scanIr_working (irBits_ne_nil code) working tap
  exact ⟨u, internalStep_ok opened (tapCheck_none.2 tap) (by rw [run]; rfl), run, ran, ir, shadow⟩

theorem exec_irRow {i : Instr} {code : Byte} (row : irCode s.cfg.toRawParams i = some code) : exec i s = irStep code s := by
  cases i with
  | irBypass | irDpacc | irApacc => cases row; rfl
  | _ => cases row

/-- A sequence of cycles of a row, all sampled or none (30_encoding.md R110). -/
theorem cyclesOf_working (sample : Bool) (ys : List Symbol) (working : s.link = .working) :
    ∃ u, runCycles (cyclesOf sample ys) s = .ok (if sample then s.tdoBits ys.length else []) u ∧ OnlyPins s u
      ∧ u.tap = tapAfter s.tap ys ∧ Sent s u ys := by
  obtain ⟨u, run, -, -⟩ := runCycles_working (cyclesOf sample ys) working
  obtain ⟨pins, tap, sent, -⟩ := runCycles_ok run
  rw [cyclesOf_symbols] at tap sent
  refine ⟨u, ?_, pins, tap, sent⟩
  rw [run, sampledBits, sampleCount_cyclesOf]
  cases sample <;> rfl

theorem cycleStep_working (ys : List Symbol) (opened : s.isOpen = true) (working : s.link = .working) :
    ∃ u, cycleStep ys s = .next { u with result := some (.ok .empty) } ∧ OnlyPins s u ∧ u.tap = tapAfter s.tap ys
      ∧ Sent s u ys := by
  obtain ⟨u, run, done⟩ := cyclesOf_working false ys working
  exact ⟨u, internalStep_ok opened rfl (by rw [run]; rfl), done⟩

theorem execTmsShiftBody_working (tdi : Bits) (opened : s.isOpen = true) (working : s.link = .working) :
    ∃ u, execTmsShiftBody tdi s
        = .next { u with result := some (.ok (.bits (if s.tap = .shDr then s.tdoBits tdi.length else []))) }
      ∧ OnlyPins s u ∧ u.tap = tapAfter s.tap (bodySymbols tdi) ∧ Sent s u (bodySymbols tdi) := by
  obtain ⟨u, run, done⟩ := cyclesOf_working (s.tap == .shDr) (bodySymbols tdi) working
  simp only [bodySymbols_length, beq_iff_eq] at run
  exact ⟨u, internalStep_ok opened rfl (by rw [run]; rfl), done⟩

theorem execTmsTapReset_working (opened : s.isOpen = true) (working : s.link = .working) :
    ∃ u, execTmsTapReset s = .next { u with result := some (.ok .empty) } ∧ TapReset s u := by
  obtain ⟨u, run, reset⟩ := resetCycles_working working
  exact ⟨u, internalStep_ok opened rfl (by rw [run]; rfl), reset⟩

end Rows

/-- Settles O58: each row is one IR scan of its code. -/
theorem irRowsComplete : Obligations.IrRowsComplete := by
  unfold Obligations.IrRowsComplete
  intro s i code row opened working tap
  obtain ⟨u, run, scan, ran, ir, shadow⟩ := irStep_working code opened working tap
  exact ⟨_, (exec_irRow row).trans run, rfl, ran.sentScans, ir, ran.tap, (scanIr_ok scan).2.2, { shadow with },
    { ran.same with }⟩

/-- Settles O59: each row is its sequence of cycles; only the shift body samples, and only in Shift-DR. -/
theorem tmsRowsComplete : Obligations.TmsRowsComplete := by
  unfold Obligations.TmsRowsComplete
  intro s opened working
  constructor
  · intro i ys row
    cases i with
    | tmsShiftBody tdi =>
      cases row
      obtain ⟨u, run, pins, tap, sent⟩ := execTmsShiftBody_working tdi opened working
      exact ⟨_, run, sent, tap, pins.ir, { pins.shadow with }, { pins.same with }, by rintro _ ⟨⟩; rfl,
        fun other => absurd rfl (other tdi)⟩
    | tmsIrEntry | tmsDrEntry | tmsScanExit =>
      cases row
      obtain ⟨u, run, pins, tap, sent⟩ := cycleStep_working (lowSymbols _) opened working
      exact ⟨_, run, sent, tap, pins.ir, { pins.shadow with }, { pins.same with }, nofun, fun _ => rfl⟩
    | _ => cases row
  · obtain ⟨u, run, reset⟩ := execTmsTapReset_working opened working
    exact ⟨_, run, rfl, reset.tap, reset.sent, reset.ir, { reset.shadow with }, { reset.same with }⟩

end Sys2Proof.Machine

/-! The DP/AP frame rows run alone (41_dap.md R185; log entry 8), and the DAP commands with every access acknowledged (R187, R195 to R200). -/

namespace Sys2Proof.Machine

/-! ### The frame rows -/

section FrameRows

variable {s u : State} {access : State → Res Word} {v : Word} {e : ErrorRecord}

theorem writeStep_ok (opened : s.isOpen = true) (tap : s.tap = .rti) (run : access s = .ok v u) :
    writeStep access s = .next { u with result := some (.ok .empty) } :=
  internalStep_ok opened (tapCheck_none.2 tap) (by rw [run]; rfl)

theorem readStep_ok (opened : s.isOpen = true) (tap : s.tap = .rti) (run : access s = .ok v u) :
    readStep access s = .next { u with result := some (.ok (.word v)) } :=
  internalStep_ok opened (tapCheck_none.2 tap) (by rw [run]; rfl)

theorem writeStep_raise (opened : s.isOpen = true) (tap : s.tap = .rti) (run : access s = .raise e u) :
    writeStep access s = .next (u.enterError e) :=
  internalStep_raise opened (tapCheck_none.2 tap) (by rw [run]; rfl)

theorem readStep_raise (opened : s.isOpen = true) (tap : s.tap = .rti) (run : access s = .raise e u) :
    readStep access s = .next (u.enterError e) :=
  internalStep_raise opened (tapCheck_none.2 tap) (by rw [run]; rfl)

/-- The selection runs with an invalid shadow (41_dap.md R186), on which its access does not depend. -/
theorem Ran.withSelValid {n : Nat} {xs : List Scan} {b : Bool} (h : Ran { s with selValid := b } u n xs) : Ran s u n xs :=
  { h with same := { h.same with } }

theorem execDpSelectWrite_ok {data : Word} (opened : s.isOpen = true) (tap : s.tap = .rti)
    (run : scan35 s.cfg.irDpacc regSelect false (selWord (data.extractLsb' 24 8) data) { s with selValid := false } = .ok v u) :
    execDpSelectWrite data s = .next { u with
      selValid := true, selAp := data.extractLsb' 24 8, selBank := bankOf data, result := some (.ok .empty) } := by
  have body : selectBody (data.extractLsb' 24 8) data s
      = .ok () { u with selValid := true, selAp := data.extractLsb' 24 8, selBank := bankOf data } := by
    rw [selectBody, dpWrite, run]
    rfl
  rw [execDpSelectWrite]
  exact internalStep_ok (u := { u with selValid := true, selAp := data.extractLsb' 24 8, selBank := bankOf data }) opened
    (tapCheck_none.2 tap) (by rw [body]; rfl)

theorem execDpSelectWrite_raise {data : Word} (opened : s.isOpen = true) (tap : s.tap = .rti)
    (run : scan35 s.cfg.irDpacc regSelect false (selWord (data.extractLsb' 24 8) data) { s with selValid := false } = .raise e u) :
    execDpSelectWrite data s = .next (u.enterError e) := by
  have body : selectBody (data.extractLsb' 24 8) data s = .raise e u := by
    rw [selectBody, dpWrite, run]
    rfl
  rw [execDpSelectWrite]
  exact internalStep_raise opened (tapCheck_none.2 tap) (by rw [body]; rfl)

end FrameRows

/-- Settles O33: each row is one access, answered after `r` WAITs. -/
theorem frameRowsRetryWait : Obligations.FrameRowsRetryWait := by
  unfold Obligations.FrameRowsRetryWait
  intro s i code a rnw w r opened working tap row bound waits acked
  obtain ⟨u, run, ran, ir, shadow⟩ := scan35_answered code a rnw w r working tap bound waits acked
  cases i with
  | dpSelectWrite data =>
    cases row
    obtain ⟨u, run, ran, ir, -⟩ := scan35_answered (s := { s with selValid := false }) s.cfg.irDpacc regSelect false
      (selWord (data.extractLsb' 24 8) data) r working tap bound waits acked
    exact ⟨_, execDpSelectWrite_ok opened tap run, rfl, ran.withSelValid.sentScans, ran.tap, ir,
      { ran.withSelValid.same with }, by rintro _ ⟨⟩; exact ⟨rfl, rfl, rfl⟩, fun other => absurd rfl (other data)⟩
  | apCswWrite | apTarWrite | apDrwWrite =>
    cases row
    exact ⟨_, writeStep_ok opened tap run, rfl, ran.sentScans, ran.tap, ir, { ran.same with }, nofun,
      fun _ => { shadow with }⟩
  | dpRdbuffRead | apDrwRead =>
    cases row
    exact ⟨_, readStep_ok opened tap run, rfl, ran.sentScans, ran.tap, ir, { ran.same with }, nofun,
      fun _ => { shadow with }⟩
  | _ => cases row

section FrameFails

variable {s u t : State} {ack : BitVec 3}

theorem classify_failing {retries r : Nat} (notOk : ack ≠ 0b010#3) (last : ack = 0b001#3 → r = retries) :
    classify ack = .invalid ∨ classify ack = .wait ∧ r = retries := by
  by_cases wait : ack = 0b001#3
  · exact .inr ⟨by rw [wait]; rfl, last wait⟩
  · exact .inl (by rw [classify, if_neg notOk, if_neg wait])

/-- A ProtocolError makes the shadow invalid and changes nothing else (60_exceptions.md R307). -/
theorem protocolError_end {n : Nat} {xs : List Scan} {code : Byte} (ran : Ran s u n xs) (ir : u.ir = some (irBits code))
    (run : t = u.enterError (protocolError ack)) :
    t.result = some (.error ⟨.protocolError, .none, 0, ack.zeroExtend 8⟩) ∧ SentScans s t xs ∧ t.tap = .rti
      ∧ t.ir = some (irBits code) ∧ t.selValid = false ∧ SameBinding s t := by
  subst run
  exact ⟨rfl, ran.sentScans, ran.tap, ir, rfl, { ran.same with }⟩

end FrameFails

/-- Settles O34: each row is one access, which fails after `r` WAITs. -/
theorem frameRowsFail : Obligations.FrameRowsFail := by
  unfold Obligations.FrameRowsFail
  intro s i code a rnw w r opened working tap row bound waits notOk last
  have fails := classify_failing notOk last
  obtain ⟨u, run, ran, ir, -⟩ := scan35_failed code a rnw w r working tap bound waits fails
  cases i with
  | dpSelectWrite data =>
    cases row
    obtain ⟨u, run, ran, ir, -⟩ := scan35_failed (s := { s with selValid := false }) s.cfg.irDpacc regSelect false
      (selWord (data.extractLsb' 24 8) data) r working tap bound waits fails
    exact ⟨_, execDpSelectWrite_raise opened tap run, protocolError_end ran.withSelValid ir rfl⟩
  | apCswWrite | apTarWrite | apDrwWrite =>
    cases row
    exact ⟨_, writeStep_raise opened tap run, protocolError_end ran ir rfl⟩
  | dpRdbuffRead | apDrwRead =>
    cases row
    exact ⟨_, readStep_raise opened tap run, protocolError_end ran ir rfl⟩
  | _ => cases row

/-! ### The commands -/

section CommandEnds

variable {s u : State}

theorem DapReady.dapCheck (ready : DapReady s) : dapCheck s = none := dapCheck_none.2 ⟨ready.device, ready.tap⟩

/-- A command that ends after its accesses leaves what `AccessDone` says. -/
theorem Accessed.done {m : Nat} {xs : List Scan} (h : Accessed { s with busy := true } u m xs) (idle : s.busy = false)
    (r : Option CommandResult) : AccessDone s { u with result := r, busy := false } xs where
  scans := h.ran.sentScans
  tap := h.ran.tap
  ir := h.ir
  selValid := h.selValid
  selAp := h.selAp
  selBank := h.selBank
  binding := { h.ran.same.ofBusy idle with }

/-- A command that comes to no access leaves everything but its result. -/
theorem unchanged_end (idle : s.busy = false) (r : Option CommandResult) :
    SameWire s { s with result := r, busy := false } ∧ SameShadow s { s with result := r, busy := false }
      ∧ SameBinding s { s with result := r, busy := false } :=
  ⟨⟨rfl, rfl, rfl, rfl, rfl, rfl, rfl, rfl, rfl, rfl⟩, ⟨rfl, rfl, rfl⟩, ⟨rfl, rfl, idle.symm, rfl, rfl, rfl, rfl, rfl⟩⟩

end CommandEnds

/-- Settles O35: the command is one acknowledged write of the select word. -/
theorem selectApCompletes : Obligations.SelectApCompletes := by
  unfold Obligations.SelectApCompletes
  intro s ap reg ready acked
  obtain ⟨u, run, ran, ir, valid, selAp, bank⟩ :=
    selectBody_acked (s := { s with busy := true }) ap reg ready.link ready.tap (acksOk_get acked (by omega))
  have ends : execSelectAp ap reg s = .next { u with result := some (.ok .empty), busy := false } := by
    rw [execSelectAp]
    exact command_ok ready.busy ready.isOpen ready.dapCheck (by rw [run]; rfl)
  exact ⟨_, ends, rfl, ran.sentScans, valid, selAp, bank, ran.tap, ir, { ran.same.ofBusy ready.busy with }⟩

section ApTransfers

variable {s : State}

theorem misaligned_false {addr : Word} : misaligned addr = false ↔ addr.toNat % 4 = 0 := by
  simp [misaligned]

theorem execApTransfer_read_acked {addr data : Word} (ready : DapReady s) (aligned : addr.toNat % 4 = 0)
    (acked : s.acksOk (s.selectCount + 4) = true) :
    ∃ u, execApTransfer false addr data s
        = .next { u with result := some (.ok (.word (rdataOf (s.frameAt (s.selectCount + 3))))), busy := false }
      ∧ Accessed { s with busy := true } u 4 (readScans s.cfg.toRawParams addr) := by
  obtain ⟨u, run, done⟩ := memRead_acked (s := { s with busy := true }) addr ready.link ready.tap acked
  refine ⟨u, ?_, done⟩
  rw [execApTransfer, misaligned_false.2 aligned]
  exact command_ok ready.busy ready.isOpen ready.dapCheck (by simp only [run, Res.bind_ok]; rfl)

theorem execApTransfer_write_acked {addr data : Word} (ready : DapReady s) (aligned : addr.toNat % 4 = 0)
    (acked : s.acksOk (s.selectCount + 4) = true) :
    ∃ u, execApTransfer true addr data s = .next { u with result := some (.ok (.word data)), busy := false }
      ∧ Accessed { s with busy := true } u 4 (writeScans s.cfg.toRawParams .word addr data) := by
  obtain ⟨u, run, done⟩ := memWrite_acked (s := { s with busy := true }) addr data ready.link ready.tap acked
  refine ⟨u, ?_, done⟩
  rw [execApTransfer, misaligned_false.2 aligned]
  exact command_ok ready.busy ready.isOpen ready.dapCheck (by simp only [run, Res.bind_ok]; rfl)

end ApTransfers

/-- Settles O36: the command is one memory access. -/
theorem apTransferCompletes : Obligations.ApTransferCompletes := by
  unfold Obligations.ApTransferCompletes
  intro s addr data ready aligned acked
  constructor
  · obtain ⟨u, run, done⟩ := execApTransfer_read_acked (data := data) ready aligned acked
    exact ⟨_, run, rfl, done.done ready.busy _⟩
  · obtain ⟨u, run, done⟩ := execApTransfer_write_acked (data := data) ready aligned acked
    exact ⟨_, run, rfl, done.done ready.busy _⟩

section MemoryRanges

variable {s : State}

theorem execReadMemory_acked {addr len : Word} (ready : DapReady s) (fits : addr.toNat + len.toNat ≤ 2 ^ 32)
    (alignedAddr : addr.toNat % 4 = 0) (alignedLen : len.toNat % 4 = 0)
    (acked : s.acksOk (s.selectCount + len.toNat) = true) :
    ∃ u, readWords (len.toNat / 4) addr { s with busy := true } = .ok (s.readBack s.selectCount (len.toNat / 4)) u
      ∧ execReadMemory addr len s
        = .next { u with result := some (.ok (.bytes (s.readBack s.selectCount (len.toNat / 4)))), busy := false }
      ∧ Reach { s with busy := true } u len.toNat (readWordsScans s.cfg.toRawParams addr (len.toNat / 4)) := by
  have words : 4 * (len.toNat / 4) = len.toNat := by omega
  obtain ⟨u, run, reach⟩ := readWords_acked (s := { s with busy := true }) (len.toNat / 4) addr ready.link ready.tap
    (by rw [words]; exact acked)
  rw [words] at reach
  refine ⟨u, run, ?_, reach⟩
  rw [execReadMemory, misalignedRange_false.2 ⟨alignedLen, alignedAddr⟩]
  exact command_ok ready.busy ready.isOpen (dapRangeCheck_none.2 ⟨⟨ready.device, ready.tap⟩, fits⟩)
    (by simp only [run, Res.bind_ok]; rfl)

theorem execWriteMemory_acked {addr : Word} {data : List Byte} (ready : DapReady s)
    (fits : addr.toNat + data.length ≤ 2 ^ 32) (alignedAddr : addr.toNat % 4 = 0) (alignedLen : data.length % 4 = 0)
    (acked : s.acksOk (s.selectCount + data.length) = true) :
    ∃ u, writeWords addr data { s with busy := true } = .ok () u
      ∧ execWriteMemory addr data s = .next { u with result := some (.ok .empty), busy := false }
      ∧ Reach { s with busy := true } u data.length (writeWordsScans s.cfg.toRawParams addr data) := by
  obtain ⟨u, run, reach⟩ :=
    writeWords_acked (s := { s with busy := true }) addr data ready.link ready.tap alignedLen acked
  refine ⟨u, run, ?_, reach⟩
  rw [execWriteMemory, misalignedRange_false.2 ⟨alignedLen, alignedAddr⟩]
  exact command_ok ready.busy ready.isOpen (dapRangeCheck_none.2 ⟨⟨ready.device, ready.tap⟩, fits⟩)
    (by simp only [run, Res.bind_ok]; rfl)

end MemoryRanges

/-- Settles O37: the command is one MemRead for each word. -/
theorem readMemoryCompletes : Obligations.ReadMemoryCompletes := by
  unfold Obligations.ReadMemoryCompletes
  intro s addr len ready fits alignedAddr alignedLen acked
  obtain ⟨u, words, run, reach⟩ := execReadMemory_acked ready fits alignedAddr alignedLen acked
  refine ⟨_, run, rfl, fun positive => ?_, fun zero => ?_⟩
  · have nonzero : len.toNat ≠ 0 := fun h => positive (BitVec.eq_of_toNat_eq h)
    exact (reach.accessed nonzero).done ready.busy _
  · subst zero
    obtain ⟨-, rfl⟩ : _ ∧ { s with busy := true } = u := by simpa [readWords] using words
    exact unchanged_end ready.busy _

/-- Settles O38: the command is one MemWrite for each word. -/
theorem writeMemoryCompletes : Obligations.WriteMemoryCompletes := by
  unfold Obligations.WriteMemoryCompletes
  intro s addr data ready fits alignedAddr alignedLen acked
  obtain ⟨u, words, run, reach⟩ := execWriteMemory_acked ready fits alignedAddr alignedLen acked
  refine ⟨_, run, rfl, fun positive => ?_, fun empty => ?_⟩
  · exact (reach.accessed (by simpa using positive)).done ready.busy _
  · subst empty
    obtain rfl : { s with busy := true } = u := by simpa [writeWords] using words
    exact unchanged_end ready.busy _

section CoreControl

variable {s : State}

theorem execCoreHalt_acked (ready : DapReady s) (acked : s.acksOk (s.selectCount + 4) = true) :
    ∃ u, execCoreHalt s = .next { u with result := some (.ok .empty), busy := false }
      ∧ Accessed { s with busy := true } u 4 (writeScans s.cfg.toRawParams .word dhcsrAddr dhcsrHalt) := by
  obtain ⟨u, run, done⟩ := memWrite_acked (s := { s with busy := true }) dhcsrAddr dhcsrHalt ready.link ready.tap acked
  refine ⟨u, ?_, done⟩
  rw [execCoreHalt]
  exact command_ok ready.busy ready.isOpen ready.dapCheck (by rw [run]; rfl)

theorem execCoreResume_acked (ready : DapReady s) (acked : s.acksOk (s.selectCount + 4) = true) :
    ∃ u, execCoreResume s = .next { u with result := some (.ok .empty), busy := false }
      ∧ Accessed { s with busy := true } u 4 (writeScans s.cfg.toRawParams .word dhcsrAddr dhcsrResume) := by
  obtain ⟨u, run, done⟩ := memWrite_acked (s := { s with busy := true }) dhcsrAddr dhcsrResume ready.link ready.tap acked
  refine ⟨u, ?_, done⟩
  rw [execCoreResume]
  exact command_ok ready.busy ready.isOpen ready.dapCheck (by rw [run]; rfl)

theorem execCoreReset_acked (ready : DapReady s) (acked : s.acksOk (s.selectCount + 4) = true) :
    ∃ u, execCoreReset s = .next { u with result := some (.ok .empty), busy := false }
      ∧ Accessed { s with busy := true, flashUnlocked := false } u 4
          (writeScans s.cfg.toRawParams .word aircrAddr aircrSysreset) := by
  obtain ⟨u, run, done⟩ := memWrite_acked (s := { s with busy := true, flashUnlocked := false }) aircrAddr aircrSysreset
    ready.link ready.tap acked
  refine ⟨u, ?_, done⟩
  rw [execCoreReset]
  exact command_ok ready.busy ready.isOpen ready.dapCheck (by rw [run]; rfl)

end CoreControl

/-- Settles O39: each command is one MemWrite; CORE_RESET makes it with the flash locked. -/
theorem coreControlCompletes : Obligations.CoreControlCompletes := by
  unfold Obligations.CoreControlCompletes
  intro s ready acked
  refine ⟨?_, ?_, ?_⟩
  · obtain ⟨u, run, done⟩ := execCoreHalt_acked ready acked
    exact ⟨_, run, rfl, done.done ready.busy _⟩
  · obtain ⟨u, run, done⟩ := execCoreResume_acked ready acked
    exact ⟨_, run, rfl, done.done ready.busy _⟩
  · obtain ⟨u, run, done⟩ := execCoreReset_acked ready acked
    exact ⟨_, run, rfl, done.ran.same.flashUnlocked, done.done (s := { s with flashUnlocked := false }) ready.busy _⟩

end Sys2Proof.Machine

/-! A memory access that fails (60_exceptions.md R302 (a)): how many frames each part of it shifts, and where an invalid acknowledgment stops it. -/

namespace Sys2Proof.Machine

section InvalidFrames

variable {α β : Type} {s t u : State}

/-- The step shifts `k` frames and is performed when all are acknowledged; at the first invalid acknowledgment it stops. -/
def Res.Shifts (s : State) (k : Nat) (r : Res α) : Prop :=
  s.link = .working → s.tap = .rti →
    (s.acksOk k = true → ∃ a t xs, r = .ok a t ∧ Ran s t (accLen * k) xs ∧ xs.length = 2 * k)
      ∧ ∀ j < k, s.acksOk j = true → classify (ackOf (s.frameAt j)) = .invalid →
        ∃ t xs, r = .raise (protocolError (ackOf (s.frameAt j))) t ∧ Ran s t (accLen * (j + 1)) xs
          ∧ xs.length = 2 * (j + 1)

theorem Res.Shifts.ok (a : α) (s : State) : (Res.ok a s).Shifts s 0 :=
  fun working tap => ⟨fun _ => ⟨a, s, [], rfl, .refl working tap, rfl⟩, fun _ none => absurd none (by omega)⟩

theorem Res.Shifts.cast {k m : Nat} {r : Res α} (h : r.Shifts s k) (same : k = m) : r.Shifts s m := same ▸ h

theorem acksOk_iff {n : Nat} : s.acksOk n = true ↔ ∀ j < n, ackOf (s.frameAt j) = 0b010#3 := by
  simp [State.acksOk]

/-- After `m` frames the later acknowledgments are still to come. -/
theorem Ran.acksOk {m n : Nat} {xs : List Scan} (ran : Ran s t (accLen * m) xs) (acked : s.acksOk (m + n) = true) :
    t.acksOk n = true := by
  rw [acksOk_iff] at acked ⊢
  intro j hj
  rw [ran.frameAt]
  exact acked (m + j) (by omega)

theorem Res.Shifts.bind {k m : Nat} {r : Res α} {f : α → State → Res β} (h : r.Shifts s k) (hf : ∀ a t, (f a t).Shifts t m) :
    (r.bind f).Shifts s (k + m) := by
  intro working tap
  obtain ⟨acked, stops⟩ := h working tap
  constructor
  · intro all
    obtain ⟨a, t, xs, rfl, ran, length⟩ := acked (State.acksOk_mono all (by omega))
    obtain ⟨b, u, ys, run, ran', length'⟩ := (hf a t ran.link ran.tap).1 (ran.acksOk all)
    exact ⟨b, u, xs ++ ys, run, by rw [Nat.mul_add]; exact ran.trans ran', by rw [List.length_append]; omega⟩
  · intro j hj all invalid
    by_cases early : j < k
    · obtain ⟨t, xs, rfl, done⟩ := stops j early all invalid
      exact ⟨t, xs, rfl, done⟩
    · obtain ⟨i, rfl⟩ : ∃ i, j = k + i := ⟨j - k, by omega⟩
      obtain ⟨a, t, xs, rfl, ran, length⟩ := acked (State.acksOk_mono all (by omega))
      obtain ⟨u, ys, run, ran', length'⟩ := (hf a t ran.link ran.tap).2 i (by omega) (ran.acksOk all)
        (by rw [ran.frameAt]; exact invalid)
      rw [ran.frameAt] at run
      refine ⟨u, xs ++ ys, run, ?_, by rw [List.length_append]; omega⟩
      rw [Nat.add_assoc, Nat.mul_add]
      exact ran.trans ran'

theorem scan35_shifts (code : Byte) (a : BitVec 2) (rnw : Bool) (w : Word) (s : State) :
    (scan35 code a rnw w s).Shifts s 1 := by
  intro working tap
  constructor
  · intro all
    obtain ⟨t, run, ran, -⟩ := scan35_acked code a rnw w working tap (acksOk_get all (by omega))
    exact ⟨_, t, _, run, ran, rfl⟩
  · intro j hj _ invalid
    obtain rfl : j = 0 := by omega
    obtain ⟨t, run, ran, -⟩ := scan35_failed code a rnw w 0 working tap (Nat.zero_le _)
      (fun j hj => absurd hj (by omega)) (.inl invalid)
    exact ⟨t, _, run, ran, rfl⟩

theorem selectBody_shifts (ap : Byte) (reg : Word) (s : State) : (selectBody ap reg s).Shifts s 1 := by
  intro working tap
  have access := scan35_shifts s.cfg.irDpacc regSelect false (selWord ap reg) { s with selValid := false } working tap
  constructor
  · intro all
    obtain ⟨t, run, ran, -⟩ := selectBody_acked ap reg working tap (acksOk_get all (by omega))
    exact ⟨_, t, _, run, ran, rfl⟩
  · intro j hj all invalid
    obtain ⟨t, xs, run, ran, length⟩ := access.2 j hj all invalid
    refine ⟨t, xs, ?_, ran.withSelValid, length⟩
    rw [selectBody, dpWrite, run]
    rfl

theorem ensureBank0_shifts (s : State) : (ensureBank0 s).Shifts s s.selectCount := by
  rw [ensureBank0, State.selectCount]
  cases s.bank0 with
  | true => exact .ok () s
  | false => exact selectBody_shifts _ _ s

theorem apWrite_shifts (reg : BitVec 2) (w : Word) (s : State) : (apWrite reg w s).Shifts s 1 := scan35_shifts _ _ _ _ s

theorem apRead_shifts (reg : BitVec 2) (s : State) : (apRead reg s).Shifts s 1 := scan35_shifts _ _ _ _ s

theorem dpRead_shifts (reg : BitVec 2) (s : State) : (dpRead reg s).Shifts s 1 := scan35_shifts _ _ _ _ s

theorem Res.Shifts.relabel_stops {k j : Nat} {r : Res α} (shifts : r.Shifts s k) (f : ErrorRecord → ErrorRecord)
    (working : s.link = .working) (tap : s.tap = .rti) (inside : j < k) (acked : s.acksOk j = true)
    (invalid : classify (ackOf (s.frameAt j)) = .invalid) :
    ∃ t xs, r.relabel f = .raise (f (protocolError (ackOf (s.frameAt j)))) t
      ∧ Ran s t (accLen * (j + 1)) xs ∧ xs.length = 2 * (j + 1) := by
  obtain ⟨t, xs, run, done⟩ := (shifts working tap).2 j inside acked invalid
  exact ⟨t, xs, Res.relabel_eq_raise.2 ⟨_, run, rfl⟩, done⟩

theorem memRead_stops {j : Nat} (addr : Word) (working : s.link = .working) (tap : s.tap = .rti)
    (inside : j < s.selectCount + 4) (acked : s.acksOk j = true) (invalid : classify (ackOf (s.frameAt j)) = .invalid) :
    ∃ t xs, memRead addr s = .raise (atAddr addr (protocolError (ackOf (s.frameAt j)))) t
      ∧ Ran s t (accLen * (j + 1)) xs ∧ xs.length = 2 * (j + 1) := by
  rw [memRead]
  exact Res.Shifts.relabel_stops (Res.Shifts.cast ((ensureBank0_shifts s).bind fun _ s => (apWrite_shifts _ _ s).bind
    fun _ s => (apWrite_shifts _ _ s).bind fun _ s => (apRead_shifts _ s).bind fun _ s => dpRead_shifts _ s) rfl)
    (atAddr addr) working tap inside acked invalid

theorem memWrite_stops {j : Nat} (addr data : Word) (working : s.link = .working) (tap : s.tap = .rti)
    (inside : j < s.selectCount + 4) (acked : s.acksOk j = true) (invalid : classify (ackOf (s.frameAt j)) = .invalid) :
    ∃ t xs, memWrite addr data s = .raise (atAddr addr (protocolError (ackOf (s.frameAt j)))) t
      ∧ Ran s t (accLen * (j + 1)) xs ∧ xs.length = 2 * (j + 1) := by
  rw [memWrite, memWriteSized]
  exact Res.Shifts.relabel_stops (Res.Shifts.cast ((ensureBank0_shifts s).bind fun _ s => (apWrite_shifts _ _ s).bind
    fun _ s => (apWrite_shifts _ _ s).bind fun _ s => (apWrite_shifts _ _ s).bind fun _ s => (dpRead_shifts _ s).bind
    fun _ s => .ok () s) rfl) (atAddr addr) working tap inside acked invalid

/-- The ProtocolError of a command's one access, whatever the command had written to the unlock before it. -/
theorem accessError_end {n j : Nat} {xs : List Scan} {b : Bool} {addr : Word} {ack : BitVec 3}
    (ran : Ran { s with busy := true, flashUnlocked := b } u n xs) (length : xs.length = 2 * (j + 1))
    (run : t = { u.enterError (atAddr addr (protocolError ack)) with busy := false }) :
    t.result = some (.error ⟨.protocolError, .none, addr, ack.zeroExtend 8⟩) ∧ t.selValid = false ∧ t.tap = .rti
      ∧ (∃ xs, SentScans s t xs ∧ xs.length = 2 * (j + 1)) ∧ t.device = s.device ∧ t.driver = s.driver
      ∧ t.isOpen = s.isOpen ∧ t.catalog = s.catalog := by
  subst run
  exact ⟨rfl, rfl, ran.tap, ⟨xs, ran.sentScans, length⟩, ran.same.device, ran.same.driver, ran.same.isOpen,
    ran.same.catalog⟩

end InvalidFrames

/-- Settles O44: each of the five commands is one memory access, which stops at the invalid acknowledgment. -/
theorem accessErrorCarriesAddress : Obligations.AccessErrorCarriesAddress := by
  unfold Obligations.AccessErrorCarriesAddress
  intro s i addr j sole ready driver inside acked notOk notWait
  have invalid : classify (ackOf (s.frameAt j)) = .invalid := by rw [classify, if_neg notOk, if_neg notWait]
  have writes (b : Bool) (a data : Word) := memWrite_stops (s := { s with busy := true, flashUnlocked := b }) a data
    ready.link ready.tap inside acked invalid
  have reads (a : Word) := memRead_stops (s := { s with busy := true }) a ready.link ready.tap inside acked invalid
  cases i with
  | apTransfer write a data =>
    simp only [soleAccess] at sole
    split at sole
    · cases sole
    · next aligned =>
      cases sole
      rw [Bool.not_eq_true] at aligned
      cases write with
      | true =>
        obtain ⟨u, xs, run, ran, length⟩ := writes s.flashUnlocked addr data
        refine ⟨_, ?_, accessError_end ran length rfl⟩
        simp only [exec, execApTransfer, aligned]
        exact command_raise ready.busy ready.isOpen ready.dapCheck (by simp only [run, Res.bind_raise]; rfl)
      | false =>
        obtain ⟨u, xs, run, ran, length⟩ := reads addr
        refine ⟨_, ?_, accessError_end (b := s.flashUnlocked) ran length rfl⟩
        simp only [exec, execApTransfer, aligned]
        exact command_raise ready.busy ready.isOpen ready.dapCheck (by simp only [run, Res.bind_raise]; rfl)
  | coreHalt =>
    cases sole
    obtain ⟨u, xs, run, ran, length⟩ := writes s.flashUnlocked dhcsrAddr dhcsrHalt
    refine ⟨_, ?_, accessError_end ran length rfl⟩
    simp only [exec, execCoreHalt]
    exact command_raise ready.busy ready.isOpen ready.dapCheck (by rw [run]; rfl)
  | coreResume =>
    cases sole
    obtain ⟨u, xs, run, ran, length⟩ := writes s.flashUnlocked dhcsrAddr dhcsrResume
    refine ⟨_, ?_, accessError_end ran length rfl⟩
    simp only [exec, execCoreResume]
    exact command_raise ready.busy ready.isOpen ready.dapCheck (by rw [run]; rfl)
  | coreReset =>
    cases sole
    obtain ⟨u, xs, run, ran, length⟩ := writes false aircrAddr aircrSysreset
    refine ⟨_, ?_, accessError_end ran length rfl⟩
    simp only [exec, execCoreReset]
    exact command_raise ready.busy ready.isOpen ready.dapCheck (by rw [run]; rfl)
  | flashStatus =>
    cases sole
    obtain ⟨u, xs, run, ran, length⟩ := reads s.cfg.flashSr
    have pass : flashCheck false s = none := flashCheck_none.2 ⟨⟨ready.device, ready.tap⟩, driver rfl, nofun⟩
    refine ⟨_, ?_, accessError_end (b := s.flashUnlocked) ran length rfl⟩
    simp only [exec, execFlashStatus]
    exact command_raise ready.busy ready.isOpen pass (by rw [run]; rfl)
  | _ => cases sole

end Sys2Proof.Machine

/-! The flash commands of one or two accesses and the erase walk, under a working transport that acknowledges every access (42_flash.md R232, R233, R240). -/

namespace Sys2Proof.Machine

section Keys

variable {s u : State}

theorem FlashReady.flashCheck (ready : FlashReady s) : flashCheck false s = none :=
  flashCheck_none.2 ⟨⟨ready.device, ready.tap⟩, ready.driver, nofun⟩

theorem FlashReady.flashRangeCheck {unlock : Bool} {addr : Word} {len : Nat} (ready : FlashReady s)
    (unlocked : unlock = true → s.flashUnlocked = true) (fits : addr.toNat + len ≤ 2 ^ 32) :
    flashRangeCheck unlock addr len s = none :=
  flashRangeCheck_none.2 ⟨⟨⟨ready.device, ready.tap⟩, ready.driver, unlocked⟩, fits⟩

/-- No access depends on the unlock. -/
theorem Accessed.withUnlock {m : Nat} {xs : List Scan} {a b : Bool} (h : Accessed { s with flashUnlocked := a } u m xs) :
    Accessed { s with flashUnlocked := b } { u with flashUnlocked := b } m xs :=
  { h with ran := { h.ran with same := { h.ran.same with flashUnlocked := rfl } } }

theorem execFlashInit_acked (ready : FlashReady s) (acked : s.acksOk (s.selectCount + 8) = true) :
    ∃ u, execFlashInit s = .next { u with flashUnlocked := true, result := some (.ok .empty), busy := false }
      ∧ Accessed { s with busy := true, flashUnlocked := false } u 8
          (writeScans s.cfg.toRawParams .word s.cfg.flashKeyr s.cfg.flashKey1
            ++ writeScans s.cfg.toRawParams .word s.cfg.flashKeyr s.cfg.flashKey2) := by
  obtain ⟨t, run1, done1⟩ := memWrite_acked (s := { s with busy := true, flashUnlocked := false }) s.cfg.flashKeyr
    s.cfg.flashKey1 ready.link ready.tap (State.acksOk_mono acked (by simp [State.selectCount, State.bank0]))
  have cfg : t.cfg = s.cfg := done1.ran.same.cfg
  obtain ⟨u, run2, done2⟩ := memWrite_acked t.cfg.flashKeyr t.cfg.flashKey2 done1.ran.link done1.ran.tap
    (done1.reach.acksOk acked)
  refine ⟨u, ?_, ?_⟩
  · rw [execFlashInit]
    exact command_ok (u := { u with flashUnlocked := true }) ready.busy ready.isOpen ready.flashCheck
      (by simp only [run1, Res.bind_ok, run2])
  · rw [cfg] at done2
    exact done1.trans done2

theorem execFlashStatus_acked (ready : FlashReady s) (acked : s.acksOk (s.selectCount + 4) = true) :
    ∃ u, execFlashStatus s = .next { u with
          result := some (.ok (.status (decodeStatus (rdataOf (s.frameAt (s.selectCount + 3)))))), busy := false }
      ∧ Accessed { s with busy := true } u 4 (readScans s.cfg.toRawParams s.cfg.flashSr) := by
  obtain ⟨u, run, done⟩ := memRead_acked (s := { s with busy := true }) s.cfg.flashSr ready.link ready.tap acked
  refine ⟨u, ?_, done⟩
  rw [execFlashStatus]
  exact command_ok ready.busy ready.isOpen ready.flashCheck (by rw [run]; rfl)

end Keys

/-- Settles O47: the unlock is written after both keys. -/
theorem flashInitCompletes : Obligations.FlashInitCompletes := by
  unfold Obligations.FlashInitCompletes
  intro s ready acked
  obtain ⟨u, run, done⟩ := execFlashInit_acked ready acked
  have unlocked := done.withUnlock (s := { s with busy := true }) (b := true)
  exact ⟨_, run, rfl, unlocked.done (s := { s with flashUnlocked := true }) ready.busy _⟩

/-- Settles O48: the command is one memory read. -/
theorem flashStatusCompletes : Obligations.FlashStatusCompletes := by
  unfold Obligations.FlashStatusCompletes
  intro s ready acked
  obtain ⟨u, run, done⟩ := execFlashStatus_acked ready acked
  exact ⟨_, run, rfl, done.done ready.busy _⟩

/-! ### The sectors of a range -/

section Sectors

theorem lt_ceil_iff {size a i : Nat} (positive : 0 < size) : i < (a + size - 1) / size ↔ size * i < a := by
  rw [Nat.lt_iff_add_one_le, Nat.le_div_iff_mul_le positive, Nat.mul_comm, Nat.mul_succ]
  omega

theorem firstSector_eq (p : RawParams) (addr : Nat) : firstSector p addr = p.refSectorSize * (addr / p.refSectorSize) := by
  rw [firstSector, sectorSize]
  have := Nat.div_add_mod addr p.refSectorSize
  omega

theorem firstSector_le (p : RawParams) (addr : Nat) : firstSector p addr ≤ addr := Nat.sub_le _ _

theorem addr_lt_firstSector_add (p : Params) (addr : Nat) : addr < firstSector p.toRawParams addr + p.refSectorSize := by
  have := Nat.mod_lt addr p.refSectorSize_pos
  rw [firstSector, sectorSize]
  omega

/-- The sectors of a nonempty range are those that start below its end (42_flash.md R240). -/
theorem lt_sectorStarts_length_iff (p : Params) {addr len : Nat} (nonempty : 0 < len) (i : Nat) :
    i < (sectorStarts p.toRawParams addr len).length
      ↔ firstSector p.toRawParams addr + p.refSectorSize * i < addr + len := by
  have := firstSector_le p.toRawParams addr
  rw [sectorStarts, List.length_map, List.length_range, lt_ceil_iff p.refSectorSize_pos]
  omega

theorem mem_sectorStarts (p : Params) {addr len a : Nat} (nonempty : 0 < len) :
    a ∈ sectorStarts p.toRawParams addr len
      ↔ ∃ i, firstSector p.toRawParams addr + p.refSectorSize * i < addr + len
          ∧ firstSector p.toRawParams addr + p.refSectorSize * i = a := by
  simp only [← lt_sectorStarts_length_iff p nonempty]
  simp [sectorStarts]

/-- The walk's fuel reaches every sector. -/
theorem sectorStarts_length_le (p : Params) (addr len : Nat) :
    (sectorStarts p.toRawParams addr len).length ≤ sectorBound p.toRawParams len := by
  have := firstSector_le p.toRawParams addr
  have := addr_lt_firstSector_add p addr
  rw [sectorStarts, List.length_map, List.length_range, sectorBound, ← Nat.add_div_right _ p.refSectorSize_pos]
  exact Nat.div_le_div_right (by omega)

end Sectors

/-- Settles O50: a sector boundary is a multiple of the size, the first the last at or below the address. -/
theorem eraseSectorsCoverTheRange : Obligations.EraseSectorsCoverTheRange := by
  unfold Obligations.EraseSectorsCoverTheRange
  intro p addr len nonempty
  have positive := p.refSectorSize_pos
  constructor
  · rw [sectorStarts, List.pairwise_map]
    refine List.pairwise_lt_range.imp fun less => ?_
    have := Nat.mul_lt_mul_of_pos_left less positive
    omega
  · intro a
    rw [mem_sectorStarts p nonempty]
    constructor
    · rintro ⟨i, below, rfl⟩
      have := addr_lt_firstSector_add p addr
      refine ⟨?_, below, by omega⟩
      rw [firstSector_eq, ← Nat.mul_add, Nat.mul_mod_right]
    · rintro ⟨aligned, below, touches⟩
      obtain ⟨k, rfl⟩ := Nat.dvd_of_mod_eq_zero aligned
      have first : addr / p.refSectorSize ≤ k := by
        rw [← Nat.lt_succ_iff, Nat.div_lt_iff_lt_mul positive, Nat.mul_comm, Nat.mul_succ]
        exact touches
      have start : firstSector p.toRawParams addr + p.refSectorSize * (k - addr / p.refSectorSize) = p.refSectorSize * k := by
        rw [firstSector_eq, ← Nat.mul_add, Nat.add_sub_cancel' first]
      exact ⟨_, start ▸ below, start⟩

/-! ### The erase walk -/

section Erase

variable {s : State}

theorem eraseWalk_acked (n fuel cur stop : Nat) (working : s.link = .working) (tap : s.tap = .rti)
    (reaches : ∀ i, i < n ↔ cur + s.cfg.refSectorSize * i < stop) (enough : n ≤ fuel)
    (acked : s.acksOk (s.selectCount + 24 * n) = true)
    (ready : ∀ j < n, s.readyAt (s.selectCount + 24 * j + 3) = true ∧ s.readyAt (s.selectCount + 24 * j + 19) = true) :
    ∃ t, eraseWalk fuel cur stop s = .ok () t
      ∧ Reach s t (24 * n) ((List.range n).flatMap fun i =>
          eraseSectorScans s.cfg.toRawParams (BitVec.ofNat 32 (cur + s.cfg.refSectorSize * i))) := by
  induction n generalizing fuel cur s with
  | zero =>
    refine ⟨s, ?_, .refl s⟩
    have done : ¬ cur < stop := fun below => absurd ((reaches 0).2 below) (Nat.lt_irrefl 0)
    cases fuel with
    | zero => rfl
    | succ fuel => rw [eraseWalk, if_neg done]
  | succ n ih =>
    obtain ⟨fuel, rfl⟩ : ∃ m, fuel = m + 1 := ⟨fuel - 1, by omega⟩
    obtain ⟨t, run, done⟩ := eraseSector_acked (BitVec.ofNat 32 cur) working tap (State.acksOk_mono acked (by omega))
      (ready 0 (by omega)).1 (ready 0 (by omega)).2
    have cfg : t.cfg = s.cfg := done.ran.same.cfg
    have later (j k : Nat) : t.readyAt (t.selectCount + 24 * j + k) = s.readyAt (s.selectCount + 24 * (j + 1) + k) := by
      rw [Nat.add_assoc, done.reach.readyAt]
      congr 1
      omega
    obtain ⟨u, runs, reach⟩ := ih (s := t) fuel (cur + s.cfg.refSectorSize) done.ran.link done.ran.tap
      (fun i => by rw [cfg, Nat.add_assoc, Nat.add_comm _ (_ * i), ← Nat.mul_succ, ← reaches]; omega) (by omega)
      (done.reach.acksOk (by rw [Nat.add_comm 24, ← Nat.mul_succ]; exact acked))
      (fun j hj => by rw [later, later]; exact ready (j + 1) (by omega))
    refine ⟨u, ?_, ?_⟩
    · have below : cur < stop := (reaches 0).1 (Nat.succ_pos n)
      rw [eraseWalk, if_pos below, run]
      show eraseWalk fuel (cur + t.cfg.refSectorSize) stop t = _
      rw [cfg, runs]
    · rw [cfg] at reach
      have scans := done.reach.trans reach
      rw [Nat.mul_succ, Nat.add_comm, List.range_succ_eq_map, List.flatMap_cons, List.flatMap_map]
      simpa only [Nat.mul_zero, Nat.add_zero, Nat.mul_succ, Nat.add_assoc, Nat.add_comm s.cfg.refSectorSize] using scans

theorem execFlashErase_acked {addr len : Word} (ready : FlashReady s) (unlocked : s.flashUnlocked = true)
    (fits : addr.toNat + len.toNat ≤ 2 ^ 32) (nonempty : len ≠ 0)
    (acked : s.acksOk (s.selectCount + 24 * (sectorStarts s.cfg.toRawParams addr.toNat len.toNat).length) = true)
    (waits : ∀ j < (sectorStarts s.cfg.toRawParams addr.toNat len.toNat).length,
      s.readyAt (s.selectCount + 24 * j + 3) = true ∧ s.readyAt (s.selectCount + 24 * j + 19) = true) :
    ∃ u, execFlashErase addr len s = .next { u with result := some (.ok .empty), busy := false }
      ∧ Reach { s with busy := true } u (24 * (sectorStarts s.cfg.toRawParams addr.toNat len.toNat).length)
          ((sectorStarts s.cfg.toRawParams addr.toNat len.toNat).flatMap fun a =>
            eraseSectorScans s.cfg.toRawParams (BitVec.ofNat 32 a)) := by
  have positive : 0 < len.toNat := Nat.pos_of_ne_zero fun zero => nonempty (BitVec.eq_of_toNat_eq zero)
  obtain ⟨u, run, reach⟩ := eraseWalk_acked (s := { s with busy := true }) _ _ _ (addr.toNat + len.toNat) ready.link
    ready.tap (lt_sectorStarts_length_iff s.cfg (addr := addr.toNat) positive)
    (sectorStarts_length_le s.cfg addr.toNat len.toNat) acked waits
  refine ⟨u, ?_, ?_⟩
  · rw [execFlashErase]
    exact command_ok ready.busy ready.isOpen (ready.flashRangeCheck (fun _ => unlocked) fits)
      (by rw [if_neg nonempty, run]; rfl)
  · rw [sectorStarts, List.length_map, List.length_range] at reach ⊢
    rw [List.flatMap_map]
    exact reach

theorem execFlashErase_empty {addr : Word} (ready : FlashReady s) (unlocked : s.flashUnlocked = true)
    (fits : addr.toNat ≤ 2 ^ 32) : execFlashErase addr 0 s = .next { s with result := some (.ok .empty) } := by
  rw [execFlashErase, command_ok (u := { s with busy := true }) (p := .empty) ready.busy ready.isOpen
    (ready.flashRangeCheck (fun _ => unlocked) fits) (if_pos rfl), ← ready.busy]

end Erase

/-- Settles O49: the walk erases the sectors of `sectorStarts`. -/
theorem flashEraseCompletes : Obligations.FlashEraseCompletes := by
  unfold Obligations.FlashEraseCompletes
  intro s addr len ready unlocked fits
  constructor
  · intro nonempty sectors acked waits
    obtain ⟨u, run, reach⟩ := execFlashErase_acked ready unlocked fits nonempty acked waits
    have positive : 0 < len.toNat := Nat.pos_of_ne_zero fun zero => nonempty (BitVec.eq_of_toNat_eq zero)
    have some : 0 < sectors.length := (lt_sectorStarts_length_iff s.cfg positive 0).2 (by
      have := firstSector_le s.cfg.toRawParams addr.toNat
      omega)
    exact ⟨_, run, rfl, (reach.accessed (Nat.mul_ne_zero (by decide) some.ne')).done ready.busy _⟩
  · rintro rfl
    exact execFlashErase_empty ready unlocked (by omega)

end Sys2Proof.Machine

/-! The program walk and the verify, under a working transport (42_flash.md R241, R242). -/

namespace Sys2Proof.Machine

section Chunks

variable {s t u : State} {m k : Nat} {xs : List Scan} {data : List Byte}

/-! ### What the environment answers after earlier accesses -/

theorem Reach.pageAnswered (h : Reach s t m xs) {n : Nat} :
    t.pageAnswered t.selectCount n ↔ s.pageAnswered (s.selectCount + m) n := by
  simp only [State.pageAnswered, Nat.add_assoc, h.frameAt, h.readyAt]

theorem Reach.chunkReadBack (h : Reach s t m xs) (n : Nat) :
    t.chunkReadBack t.selectCount n = s.chunkReadBack (s.selectCount + m) n := by
  simp only [State.chunkReadBack, Nat.add_assoc, h.readBack]

theorem Reach.selectAcked (h : Reach s t m xs) (acked : s.acksOk s.selectCount = true) :
    t.acksOk t.selectCount = true := by
  rcases h with ⟨-, -, rfl⟩ | h
  · exact acked
  · rw [h.selectCount]
    rfl

/-! ### The chunks of a byte string -/

theorem chunkAddr_succ (addr : Word) (k : Nat) :
    chunkAddr addr (k + 1) = chunkAddr addr k + BitVec.ofNat 32 refPageSize := by
  rw [chunkAddr, chunkAddr, Nat.mul_succ, BitVec.ofNat_add, BitVec.add_assoc]

theorem lt_chunkCount_iff {len : Nat} : k < chunkCount len ↔ refPageSize * k < len := lt_ceil_iff (by decide)

theorem chunkOf_length : (chunkOf data k).length = min refPageSize (data.length - refPageSize * k) := by
  rw [chunkOf, List.length_take, List.length_drop]

theorem chunkOf_length_full (full : k + 1 < chunkCount data.length) : (chunkOf data k).length = refPageSize := by
  rw [lt_chunkCount_iff, Nat.mul_succ] at full
  rw [chunkOf_length]
  omega

theorem chunkOf_length_mod (aligned : data.length % 4 = 0) : (chunkOf data k).length % 4 = 0 := by
  rw [chunkOf_length, refPageSize]
  omega

/-! ### The walk -/

/-- What the environment answers to chunk `k` (42_flash.md R241). -/
def ChunkAnswered (s : State) (data : List Byte) (k : Nat) : Prop :=
  s.pageAnswered (s.selectCount + chunkFrames 1024 * k) (chunkOf data k).length

/-- Chunk `k` reads back as it was written (42_flash.md R237). -/
def ChunkVerified (s : State) (data : List Byte) (k : Nat) : Prop :=
  s.chunkReadBack (s.selectCount + chunkFrames 1024 * k) (chunkOf data k).length = chunkOf data k

/-- The scans of the chunks before chunk `k`. -/
def chunksScans (p : RawParams) (addr : Word) (data : List Byte) (k : Nat) : List Scan :=
  (List.range k).flatMap fun j => chunkScans p (chunkAddr addr j) (chunkOf data j)

theorem chunksScans_succ (p : RawParams) (addr : Word) (data : List Byte) (k : Nat) :
    chunksScans p addr data (k + 1) = chunksScans p addr data k ++ chunkScans p (chunkAddr addr k) (chunkOf data k) := by
  rw [chunksScans, List.range_succ, List.flatMap_append, List.flatMap_singleton]
  rfl

theorem programWalk_chunk (addr : Word) (fuel : Nat) (inside : k < chunkCount data.length) :
    programWalk (fuel + 1) (chunkAddr addr k) (data.drop (refPageSize * k)) t
      = (programChunk (chunkAddr addr k) (chunkOf data k) t).bind fun _ t =>
          programWalk fuel (chunkAddr addr (k + 1)) (data.drop (refPageSize * (k + 1))) t := by
  have below := lt_chunkCount_iff.1 inside
  have some : data.drop (refPageSize * k) ≠ [] := by
    rw [Ne, List.drop_eq_nil_iff]
    omega
  rw [programWalk, if_neg some, chunkAddr_succ, Nat.mul_succ, ← List.drop_drop]
  rfl

/-- The walk at chunk `k`, answered: it goes on when the chunk reads back as written, and stops when it does not. -/
theorem programWalk_step (addr : Word) (fuel : Nat) (working : s.link = .working) (tap : s.tap = .rti)
    (aligned : data.length % 4 = 0) (acked : s.acksOk s.selectCount = true) (inside : k < chunkCount data.length)
    (answered : ChunkAnswered s data k)
    (reach : Reach s t (chunkFrames 1024 * k) (chunksScans s.cfg.toRawParams addr data k)) :
    ∃ u, (ChunkVerified s data k → programWalk (fuel + 1) (chunkAddr addr k) (data.drop (refPageSize * k)) t
          = programWalk fuel (chunkAddr addr (k + 1)) (data.drop (refPageSize * (k + 1))) u)
      ∧ (¬ ChunkVerified s data k → programWalk (fuel + 1) (chunkAddr addr k) (data.drop (refPageSize * k)) t
          = .raise (verifyMismatchError (chunkAddr addr k)) u)
      ∧ Accessed s u (chunkFrames 1024 * k + chunkFrames (chunkOf data k).length)
          (chunksScans s.cfg.toRawParams addr data (k + 1)) := by
  obtain ⟨u, run, done⟩ := programChunk_acked (chunkAddr addr k) (chunkOf data k) (reach.link working) (reach.tap tap)
    (chunkOf_length_mod aligned) (reach.pageAnswered.2 answered) (reach.selectAcked acked)
  rw [reach.chunkReadBack] at run
  rw [reach.same.cfg] at done
  rw [programWalk_chunk addr fuel inside, chunksScans_succ]
  exact ⟨u, fun verified => by rw [run.trans (if_pos verified)]; rfl, fun differs => by rw [run.trans (if_neg differs)]; rfl,
    (reach.trans done.reach).accessed (by simp [chunkFrames])⟩

/-- The walk comes to chunk `k` when the chunks before it are answered and read back as written. -/
theorem programWalk_reaches (addr : Word) (fuel : Nat) (working : s.link = .working) (tap : s.tap = .rti)
    (aligned : data.length % 4 = 0) (acked : s.acksOk s.selectCount = true) (inside : k < chunkCount data.length)
    (answered : ∀ j < k, ChunkAnswered s data j) (verified : ∀ j < k, ChunkVerified s data j) :
    ∃ t, programWalk (k + fuel) addr data s = programWalk fuel (chunkAddr addr k) (data.drop (refPageSize * k)) t
      ∧ Reach s t (chunkFrames 1024 * k) (chunksScans s.cfg.toRawParams addr data k) := by
  induction k generalizing fuel with
  | zero => exact ⟨s, by simp [chunkAddr], .refl s⟩
  | succ k ih =>
    obtain ⟨t, walk, reach⟩ := ih (fuel + 1) (by omega) (fun j hj => answered j (by omega))
      (fun j hj => verified j (by omega))
    obtain ⟨u, goesOn, -, done⟩ :=
      programWalk_step addr fuel working tap aligned acked (by omega) (answered k (by omega)) reach
    refine ⟨u, ?_, ?_⟩
    · rw [Nat.add_assoc, Nat.add_comm 1, walk, goesOn (verified k (by omega))]
    · rw [chunkOf_length_full inside] at done
      exact done.reach

/-- The walk through chunk `k`, with `fuel` chunks allowed after it. -/
theorem programWalk_through (addr : Word) (fuel : Nat) (working : s.link = .working) (tap : s.tap = .rti)
    (aligned : data.length % 4 = 0) (acked : s.acksOk s.selectCount = true) (inside : k < chunkCount data.length)
    (answered : ∀ j ≤ k, ChunkAnswered s data j) (verified : ∀ j < k, ChunkVerified s data j) :
    ∃ u m, (ChunkVerified s data k → programWalk (k + 1 + fuel) addr data s
          = programWalk fuel (chunkAddr addr (k + 1)) (data.drop (refPageSize * (k + 1))) u)
      ∧ (¬ ChunkVerified s data k → programWalk (k + 1 + fuel) addr data s
          = .raise (verifyMismatchError (chunkAddr addr k)) u)
      ∧ Accessed s u m (chunksScans s.cfg.toRawParams addr data (k + 1)) := by
  obtain ⟨t, walk, reach⟩ := programWalk_reaches addr (fuel + 1) working tap aligned acked inside
    (fun j hj => answered j (Nat.le_of_lt hj)) verified
  obtain ⟨u, goesOn, stops, done⟩ :=
    programWalk_step addr fuel working tap aligned acked inside (answered k (Nat.le_refl k)) reach
  rw [Nat.add_assoc, Nat.add_comm 1, walk]
  exact ⟨u, _, goesOn, stops, done⟩

/-! ### FLASH_PROGRAM -/

theorem execFlashProgram_ok {addr : Word} (ready : FlashReady s) (unlocked : s.flashUnlocked = true)
    (fits : addr.toNat + data.length ≤ 2 ^ 32) (alignedAddr : addr.toNat % 4 = 0) (alignedLen : data.length % 4 = 0)
    (run : programWalk (chunkCount data.length) addr data { s with busy := true } = .ok () u) :
    execFlashProgram addr data s = .next { u with result := some (.ok .empty), busy := false } := by
  rw [execFlashProgram, misalignedRange_false.2 ⟨alignedLen, alignedAddr⟩]
  exact command_ok ready.busy ready.isOpen (ready.flashRangeCheck (fun _ => unlocked) fits)
    (by simp only [run, Res.bind_ok]; rfl)

theorem execFlashProgram_raise {addr : Word} {e : ErrorRecord} (ready : FlashReady s) (unlocked : s.flashUnlocked = true)
    (fits : addr.toNat + data.length ≤ 2 ^ 32) (alignedAddr : addr.toNat % 4 = 0) (alignedLen : data.length % 4 = 0)
    (run : programWalk (chunkCount data.length) addr data { s with busy := true } = .raise e u) :
    execFlashProgram addr data s = .next { u.enterError e with busy := false } := by
  rw [execFlashProgram, misalignedRange_false.2 ⟨alignedLen, alignedAddr⟩]
  exact command_raise ready.busy ready.isOpen (ready.flashRangeCheck (fun _ => unlocked) fits)
    (by simp only [run, Res.bind_raise]; rfl)

end Chunks

/-- Settles O51: the walk goes through its last chunk and ends there. -/
theorem flashProgramCompletes : Obligations.FlashProgramCompletes := by
  unfold Obligations.FlashProgramCompletes
  intro s addr data ready unlocked fits alignedAddr alignedLen
  constructor
  · intro nonempty acked chunks
    have some : 0 < chunkCount data.length := lt_chunkCount_iff.2 (by simpa [List.length_pos_iff] using nonempty)
    obtain ⟨k, count⟩ : ∃ k, chunkCount data.length = k + 1 := ⟨chunkCount data.length - 1, by omega⟩
    obtain ⟨u, m, ends, -, done⟩ := programWalk_through (s := { s with busy := true }) (k := k) addr 0 ready.link ready.tap
      alignedLen acked (by omega) (fun j hj => (chunks j (by omega)).1) (fun j hj => (chunks j (by omega)).2)
    have run := ends (chunks k (by omega)).2
    rw [Nat.add_zero, ← count] at run
    rw [← count] at done
    exact ⟨_, execFlashProgram_ok ready unlocked fits alignedAddr alignedLen run, rfl, done.done ready.busy _⟩
  · rintro rfl
    have run := execFlashProgram_ok (u := { s with busy := true }) ready unlocked fits alignedAddr alignedLen rfl
    rw [← ready.busy] at run
    exact run

/-- Settles O52: the walk stops at the chunk that reads back wrong. -/
theorem programStopsAtFirstMismatch : Obligations.ProgramStopsAtFirstMismatch := by
  unfold Obligations.ProgramStopsAtFirstMismatch
  intro s addr data k ready unlocked fits alignedAddr alignedLen inside acked answered verified differs
  obtain ⟨fuel, count⟩ : ∃ fuel, chunkCount data.length = k + 1 + fuel :=
    ⟨chunkCount data.length - (k + 1), by omega⟩
  obtain ⟨u, m, -, stops, done⟩ := programWalk_through (s := { s with busy := true }) addr fuel ready.link ready.tap
    alignedLen acked inside answered verified
  have run := stops differs
  rw [← count] at run
  exact ⟨_, execFlashProgram_raise ready unlocked fits alignedAddr alignedLen run, rfl, done.done ready.busy _⟩

/-! ### FLASH_VERIFY -/

section Verify

variable {s : State}

/-- The read of the range, and how the command ends with what it read. -/
theorem execFlashVerify_acked {addr : Word} {data : List Byte} (ready : FlashReady s)
    (fits : addr.toNat + data.length ≤ 2 ^ 32) (alignedAddr : addr.toNat % 4 = 0) (alignedLen : data.length % 4 = 0)
    (acked : s.acksOk (s.selectCount + data.length) = true) :
    ∃ u, verify addr data { s with busy := true } = .ok (s.readBack s.selectCount (data.length / 4) == data) u
      ∧ execFlashVerify addr data s = .next { u with
          result := some (if s.readBack s.selectCount (data.length / 4) = data then .ok .empty
            else .error ⟨.verifyMismatchError, .verify, addr, 0⟩), busy := false }
      ∧ Reach { s with busy := true } u data.length (readWordsScans s.cfg.toRawParams addr (data.length / 4)) := by
  obtain ⟨u, run, reach⟩ := verify_acked (s := { s with busy := true }) addr data ready.link ready.tap alignedLen acked
  refine ⟨u, run, ?_, reach⟩
  change verify addr data _ = .ok (s.readBack s.selectCount (data.length / 4) == data) u at run
  have pass := ready.flashRangeCheck (unlock := false) nofun fits
  rw [execFlashVerify, misalignedRange_false.2 ⟨alignedLen, alignedAddr⟩]
  by_cases same : s.readBack s.selectCount (data.length / 4) = data
  · rw [if_pos same]
    rw [beq_iff_eq.2 same] at run
    exact command_ok ready.busy ready.isOpen pass (by rw [run]; rfl)
  · rw [if_neg same]
    rw [beq_false_of_ne same] at run
    exact command_raise (e := verifyMismatchError addr) (u := u) ready.busy ready.isOpen pass (by rw [run]; rfl)

end Verify

/-- Settles O53: the command is one read for each word, and a comparison. -/
theorem flashVerifyCompletes : Obligations.FlashVerifyCompletes := by
  unfold Obligations.FlashVerifyCompletes
  intro s addr data ready fits alignedAddr alignedLen acked
  obtain ⟨u, read, run, reach⟩ := execFlashVerify_acked ready fits alignedAddr alignedLen acked
  refine ⟨_, run, rfl, fun nonempty => ?_, fun empty => ?_⟩
  · exact (reach.accessed (by simpa using nonempty)).done ready.busy _
  · subst empty
    obtain ⟨-, rfl⟩ : _ ∧ { s with busy := true } = u := by simpa [verify, readWords] using read
    exact unchanged_end ready.busy _

end Sys2Proof.Machine

/-! The first wait of FLASH_ERASE and FLASH_PROGRAM fails (42_flash.md R234). -/

namespace Sys2Proof.Machine

section FirstWait

variable {s u : State} {e : ErrorRecord} {k : StepKind} {addr : Word}

theorem eraseWalk_firstWait {fuel cur stop : Nat} (fails : checkReady s = .raise e u) (below : cur < stop) :
    eraseWalk (fuel + 1) cur stop s = .raise (atStep .erase (BitVec.ofNat 32 cur) e) u := by
  rw [eraseWalk, if_pos below, eraseSector, fails]
  rfl

theorem programWalk_firstWait {fuel : Nat} {data : List Byte} (fails : checkReady s = .raise e u) (nonempty : data ≠ []) :
    programWalk (fuel + 1) addr data s = .raise (atStep .program addr e) u := by
  rw [programWalk, if_neg nonempty, programChunk, programPage, fails]
  rfl

theorem execFlashErase_firstWait {start len : Word} (ready : FlashReady s) (unlocked : s.flashUnlocked = true)
    (fails : checkReady { s with busy := true } = .raise e u) (nonempty : len ≠ 0)
    (fits : start.toNat + len.toNat ≤ 2 ^ 32) :
    execFlashErase start len s = .next { u.enterError
      (atStep .erase (BitVec.ofNat 32 (firstSector s.cfg.toRawParams start.toNat)) e) with busy := false } := by
  have below : firstSector s.cfg.toRawParams start.toNat < start.toNat + len.toNat := by
    have first := firstSector_le s.cfg.toRawParams start.toNat
    have positive : len.toNat ≠ 0 := fun zero => nonempty (BitVec.eq_of_toNat_eq zero)
    omega
  rw [execFlashErase]
  exact command_raise ready.busy ready.isOpen (ready.flashRangeCheck (fun _ => unlocked) fits)
    (by rw [if_neg nonempty, sectorBound, eraseWalk_firstWait fails below]; rfl)

theorem execFlashProgram_firstWait {data : List Byte} (ready : FlashReady s) (unlocked : s.flashUnlocked = true)
    (fails : checkReady { s with busy := true } = .raise e u) (nonempty : data ≠ [])
    (fits : addr.toNat + data.length ≤ 2 ^ 32) (alignedAddr : addr.toNat % 4 = 0) (alignedLen : data.length % 4 = 0) :
    execFlashProgram addr data s = .next { u.enterError (atStep .program addr e) with busy := false } := by
  have some : 0 < chunkCount data.length := lt_chunkCount_iff.2 (by simpa [List.length_pos_iff] using nonempty)
  refine execFlashProgram_raise ready unlocked fits alignedAddr alignedLen ?_
  rw [← Nat.sub_add_cancel some, programWalk_firstWait fails nonempty]

/-- A failing first wait ends the command with its error, at the step and address of the first sector or chunk. -/
theorem exec_of_firstWait {i : Instr} (ready : FlashReady s) (unlocked : s.flashUnlocked = true)
    (polls : pollsFirst s i = some (k, addr)) (fails : checkReady { s with busy := true } = .raise e u) :
    exec i s = .next { u.enterError (atStep k addr e) with busy := false } := by
  cases i with
  | flashErase start len =>
    rw [pollsFirst] at polls
    split at polls
    · cases polls
    · next ok =>
      cases polls
      rw [not_or, Nat.not_lt] at ok
      exact execFlashErase_firstWait ready unlocked fails ok.1 ok.2
  | flashProgram start data =>
    rw [pollsFirst] at polls
    split at polls
    · cases polls
    · next ok =>
      cases polls
      simp only [not_or, Nat.not_lt, not_not] at ok
      obtain ⟨nonempty, fits, alignedAddr, alignedLen⟩ := ok
      exact execFlashProgram_firstWait ready unlocked fails nonempty fits alignedAddr alignedLen
  | _ => cases polls

end FirstWait

/-- Settles O54: the first wait stays busy in every status read. -/
theorem busyPollsTimeOut : Obligations.BusyPollsTimeOut := by
  unfold Obligations.BusyPollsTimeOut
  intro s i k addr ready unlocked polls acked busy
  simp only [Nat.add_assoc] at busy
  obtain ⟨u, run, done⟩ := checkReady_busy (s := { s with busy := true }) ready.link ready.tap acked busy
  exact ⟨_, exec_of_firstWait ready unlocked polls run, rfl, done.done ready.busy _⟩

/-- Settles O55: the first wait ends with a status word that holds an error bit. -/
theorem latchedErrorFails : Obligations.LatchedErrorFails := by
  unfold Obligations.LatchedErrorFails
  intro s i k addr n ready unlocked polls inside acked busy free latched
  simp only [Nat.add_assoc] at busy free latched
  obtain ⟨u, run, done⟩ :=
    checkReady_latched (s := { s with busy := true }) n inside ready.link ready.tap acked busy free latched
  exact ⟨_, exec_of_firstWait ready unlocked polls run, rfl, done.done ready.busy _⟩

end Sys2Proof.Machine
